-- ==== Sys2Proof/Word.lean ====
section
/-! DEFINITION. The two word types of the block: unsigned bytes and unsigned 16-bit words (00_scope.md R8). -/

namespace Sys2Proof

/-- `u8`: every queue element, marker and 8-bit command field (R8). -/
abbrev Byte := BitVec 8

/-- `u16`: the 16-bit command fields, addresses and lengths on the wire (R8). -/
abbrev Word := BitVec 16

end Sys2Proof
end

