-- ==== Sys2Proof/Config.lean ====
section
/-! DEFINITION. The parameters of a build (00_scope.md R7) as plain data, with the spec's defaults, and the one free value. -/

namespace Sys2Proof

/-- One decoded Command (10_state.md R18): the register snapshot of an inbound frame. -/
structure Command where
  bc  : Word
  de  : Word
  hl  : Word
  f   : Byte
  a   : Byte
  cmd : Byte
deriving DecidableEq, Repr

/-- The class `classify` gives a CMD byte (30_encoding.md R55). -/
inductive CmdClass where
  | dskio | known | unknown
deriving DecidableEq, Repr

/-- The outcome of the parameter `FIXED_REPLY` for one Command (44_dispatcher.md R104). -/
inductive Reply where
  | noResponse
  | reply (bs : List Byte)
  | unimplemented
deriving DecidableEq, Repr

/-- A 16-bit field of a Command. -/
inductive WordReg where
  | bc | de | hl
deriving DecidableEq, Repr

/-- An 8-bit field of a Command, the aliases of 10_state.md R19 among them. -/
inductive ByteReg where
  | b | c | d | e | h | l | f | a
deriving DecidableEq, Repr

/-- `DSKIO_MAP` (R7, 44_dispatcher.md R102): which fields carry the sector count, the start sector and the
destination address. The default is the spec's (92_eei_decisions.md D16, from general knowledge). -/
structure DskioMap where
  count : ByteReg := .b
  start : WordReg := .de
  dest  : WordReg := .hl
deriving DecidableEq, Repr

/-- The parameters of R7, each with the spec's default. `SYNC` is held as a first byte and the bytes after it, so
that the pattern of `IQ.WAITSEQ` is never empty (40_inbound_queue.md R65, `m >= 1`). `FIXED_REPLY` is held as the
list of the Commands that have an outcome other than `Unimplemented` (44_dispatcher.md R104's default; log entry 19).
`STORE_SIZE` is OPEN; the default here is a DESIGN CHOICE (log entry 18). -/
structure Config where
  timeoutMs    : Nat := 700
  tickMs       : Nat := 1
  sync0        : Byte := 0xAF#8
  syncRest     : List Byte := [0x05#8]
  header       : List Byte := [0xFF#8, 0xAF#8, 0x05#8]
  fixedLen     : Nat := 9
  chunkSize    : Nat := 128
  maxPayload   : Nat := 254
  codeFast     : Byte := 0x01#8
  codeSlow     : Byte := 0x02#8
  codeExit     : Byte := 0x03#8
  opCmdrequest : Byte := 0x93#8
  opDskio      : Byte := 0x80#8
  knownOpcodes : List Byte :=
    [0x80#8, 0x81#8, 0x82#8, 0x83#8, 0x84#8, 0x85#8, 0x86#8, 0x87#8, 0x88#8, 0x89#8, 0x8A#8, 0x8B#8, 0x8C#8]
    ++ [0x8D#8, 0x8E#8, 0x8F#8, 0x90#8, 0x91#8, 0x92#8, 0x93#8, 0x94#8, 0x95#8, 0x96#8, 0x97#8, 0x98#8]
  sectorSize   : Nat := 512
  dskioMap     : DskioMap := {}
  fixedReply   : List (Command × Reply) := []
  inDepth      : Option Nat := none
  outDepth     : Option Nat := none
  cntWidth     : Nat := 32
  storeSize    : Nat := 737280
deriving DecidableEq, Repr

/-- The build with every parameter at its default (R7). -/
def Config.default : Config := {}

/-- The synchronization pattern `SYNC` (R7). -/
def Config.sync (cfg : Config) : List Byte := cfg.sync0 :: cfg.syncRest

/-- FREE VALUE (log entry 3). The draw of 40_inbound_queue.md R60 when a wait is ready and the deadline has
expired: the `k`-th draw takes the timeout (`true`) or makes progress (`false`). Nothing constrains it. -/
opaque Config.drawTimeout : Nat → Bool

end Sys2Proof
end

