-- ==== Sys2Proof/Machine/Operands.lean ====
section
/-! DEFINITION. Operand assembly (30_encoding.md R54): halves, little-endian words, command fields and their aliases. -/

namespace Sys2Proof

/-- `high(x) = (x >> 8) & 0xFF` (00_scope.md R9, 42_datablock_command.md R82). -/
def high (x : Word) : Byte := x.extractLsb' 8 8

/-- `low(x) = x & 0xFF` (R9, R82). -/
def low (x : Word) : Byte := x.extractLsb' 0 8

/-- `le16(lo, hi) = lo + 256*hi` (R9): a 16-bit value from two bytes, low byte first. -/
def le16 (lo hi : Byte) : Word := hi ++ lo

/-- `bytes16(v) = [low(v), high(v)]` (R9). -/
def bytes16 (v : Word) : List Byte := [low v, high v]

/-- A 16-bit field of a Command. -/
def WordReg.read (r : WordReg) (c : Command) : Word :=
  match r with
  | .bc => c.bc
  | .de => c.de
  | .hl => c.hl

/-- An 8-bit field of a Command; the halves are the read-only aliases of 10_state.md R19. -/
def ByteReg.read (r : ByteReg) (c : Command) : Byte :=
  match r with
  | .b => high c.bc
  | .c => low c.bc
  | .d => high c.de
  | .e => low c.de
  | .h => high c.hl
  | .l => low c.hl
  | .f => c.f
  | .a => c.a

/-- The nine field bytes of an inbound frame, in the wire order of 30_encoding.md R44. -/
def fieldBytes (c : Command) : List Byte :=
  bytes16 c.bc ++ bytes16 c.de ++ bytes16 c.hl ++ [c.f, c.a, c.cmd]

/-- The whole inbound frame: `SYNC`, then the nine field bytes (R44). -/
def frameBytes (cfg : Config) (c : Command) : List Byte := cfg.sync ++ fieldBytes c

/-- `sum(|p|)` over a list of payloads (30_encoding.md R48, 43_read_operation.md R84). -/
def totalSize : List (List Byte) → Nat
  | [] => 0
  | p :: ps => p.length + totalSize ps

end Sys2Proof
end

