-- ==== Sys2Proof/Machine/Flags.lean ====
section
/-! DEFINITION. What is computed from values alone: the write flag, the opcode class, the reply, the marker. -/

namespace Sys2Proof

/-- Bit 0 of `F`: 1 is a write request (10_state.md R20). No other bit of `F` is read. -/
def writeFlag (f : Byte) : Bool := f.getLsbD 0

/-- `classify(cmd)` (30_encoding.md R55). -/
def classify (cfg : Config) (cmd : Byte) : CmdClass :=
  if cmd = cfg.opDskio then .dskio else if cmd ∈ cfg.knownOpcodes then .known else .unknown

/-- The outcome listed for a Command, `Unimplemented` when none is listed (44_dispatcher.md R104). -/
def lookupReply : List (Command × Reply) → Command → Reply
  | [], _ => .unimplemented
  | (c', r) :: rest, c => if c' = c then r else lookupReply rest c

/-- `FIXED_REPLY(Command)` (R104). -/
def fixedReply (cfg : Config) (c : Command) : Reply := lookupReply cfg.fixedReply c

/-- The smallest of the `fuel` values from `v` on that is absent from `p`. -/
def markerFrom : Nat → Nat → List Byte → Option Byte
  | 0, _, _ => none
  | fuel + 1, v, p => if BitVec.ofNat 8 v ∈ p then markerFrom fuel (v + 1) p else some (BitVec.ofNat 8 v)

/-- The marker of a payload, "smallest value in [0,255] absent from `payload`" (42_datablock_command.md R78); none
when all 256 values occur. -/
def marker (p : List Byte) : Option Byte := markerFrom 256 0 p

/-- A DataBlock payload has 1 to `MAX_PAYLOAD` bytes (42_datablock_command.md R79). -/
def legalPayload (cfg : Config) (p : List Byte) : Bool := decide (1 ≤ p.length) && decide (p.length ≤ cfg.maxPayload)

end Sys2Proof
end

