-- ==== Sys2Proof/Syntax.lean ====
section
/-! DEFINITION. The instructions: one constructor per row of spec/opcode_table.json, operands as values (30_encoding.md R58). -/

namespace Sys2Proof

/-- The "format" column of spec/opcode_table.json: which of the spec's encodings an instruction has. -/
inductive Format where
  | uop       -- the micro-operation codes of 30_encoding.md R58
  | inbound   -- the 11-byte command frame of R44
  | outbound  -- the outbound frames of R46 to R51
deriving DecidableEq, Repr

/-- Every row of spec/opcode_table.json. The pattern of `IQ.WAITSEQ` is given as its first byte and the rest, since
R65 has `|pat| >= 1`; so is the block list of `OUT.FASTTRANSFER` (R48, "1..255"). -/
inductive Instr where
  | iqAppend (bs : List Byte)
  | iqNextbyte
  | iqWaitseq (p0 : Byte) (ps : List Byte)
  | iqWaitavail (n : Nat)
  | iqReadbyte
  | iqReadword
  | iqClear
  | iqDlreset
  | clkTick
  | oqHeader
  | oqByte (v : Byte)
  | oqWord (v : Word)
  | oqRaw (bs : List Byte)
  | oqBlock (p : List Byte)
  | oqTakeall
  | dbMarker (p : List Byte)
  | dbConstruct (p : List Byte)
  | cmdDecode (bc de hl : Word) (f a cmd : Byte)
  | cmdHigh (x : Word)
  | cmdLow (x : Word)
  | cmdClassify (cmd : Byte)
  | roConstruct (base : Word) (data : List Byte)
  | roRound
  | roEcho
  | roEndround
  | roExit
  | dspWaitSync
  | dspReadFixed9
  | dspDecode
  | dspDispatch
  | dspRespond
  | dspFlush
  | inDskioRead (bc de hl : Word) (f a : Byte)
  | inDskioWrite (bc de hl : Word) (f a : Byte)
  | inCmdrequest (bc de hl : Word) (f a : Byte)
  | inKnownOther (bc de hl : Word) (f a cmd : Byte)
  | inUnknown (bc de hl : Word) (f a cmd : Byte)
  | outFasttransfer (endAddr : Word) (p0 : List Byte) (ps : List (List Byte))
  | outSlowtransfer (dest : Word) (p : List Byte)
  | outExit
  | outFixedReply (bs : List Byte)
deriving DecidableEq, Repr

/-- The encoding an instruction has. -/
def Instr.format : Instr → Format
  | .inDskioRead .. | .inDskioWrite .. | .inCmdrequest .. | .inKnownOther .. | .inUnknown .. => .inbound
  | .outFasttransfer .. | .outSlowtransfer .. | .outExit | .outFixedReply .. => .outbound
  | .iqAppend .. | .iqNextbyte | .iqWaitseq .. | .iqWaitavail .. | .iqReadbyte | .iqReadword | .iqClear | .iqDlreset
  | .clkTick | .oqHeader | .oqByte .. | .oqWord .. | .oqRaw .. | .oqBlock .. | .oqTakeall | .dbMarker ..
  | .dbConstruct .. | .cmdDecode .. | .cmdHigh .. | .cmdLow .. | .cmdClassify .. | .roConstruct .. | .roRound | .roEcho
  | .roEndround | .roExit | .dspWaitSync | .dspReadFixed9 | .dspDecode | .dspDispatch | .dspRespond | .dspFlush => .uop

end Sys2Proof
end

