-- ==== Sys2Proof/WellFormed.lean ====
section
/-! DEFINITION. Which parameter sets the spec's rules fit together for, and which instructions have an encoding. -/

namespace Sys2Proof

/-- The relations between parameters that the rules rely on: a frame has nine field bytes (30_encoding.md R44, R99); a
chunk is a legal DataBlock payload (43_read_operation.md R83); a legal payload leaves a marker free (R80,
`MAX_PAYLOAD <= 254`); `OP_DSKIO` and 0x93 are members of `KNOWN_OPCODES` (R55) and differ; the response codes differ. -/
def Config.wf (cfg : Config) : Bool :=
  decide (cfg.fixedLen = 9) && decide (1 ≤ cfg.chunkSize) && decide (cfg.chunkSize ≤ cfg.maxPayload)
    && decide (cfg.maxPayload ≤ 254) && decide (cfg.opDskio ∈ cfg.knownOpcodes)
    && decide (cfg.opCmdrequest ∈ cfg.knownOpcodes) && decide (cfg.opDskio ≠ cfg.opCmdrequest)
    && decide (cfg.codeFast ≠ cfg.codeSlow) && decide (cfg.codeFast ≠ cfg.codeExit)
    && decide (cfg.codeSlow ≠ cfg.codeExit)

/-- A first byte that a reader of outbound frames takes for a response code (30_encoding.md R47, R53). -/
def isResponseCode (cfg : Config) (b : Byte) : Bool := b == cfg.codeFast || b == cfg.codeSlow || b == cfg.codeExit

/-- The bytes of a fixed reply do not begin with a response code: such bytes would be read as another frame (R53; log
entry 26). -/
def replyReadable (cfg : Config) : List Byte → Bool
  | [] => true
  | b :: _ => !isResponseCode cfg b

/-- Whether an instruction is one of its row of spec/opcode_table.json: every micro-operation is (any operand values,
R58); an inbound frame meets its row's "condition" (R55); a FAST frame has 1 to 255 blocks with legal payloads (R48); a
SLOW frame has 1 to `CHUNK_SIZE - 1` payload bytes in a 16-bit length field (R49). -/
def Instr.wf (cfg : Config) : Instr → Bool
  | .inDskioRead _ _ _ f _ => !writeFlag f
  | .inDskioWrite _ _ _ f _ => writeFlag f
  | .inCmdrequest .. => true
  | .inKnownOther _ _ _ _ _ cmd => decide (classify cfg cmd = .known) && decide (cmd ≠ cfg.opCmdrequest)
  | .inUnknown _ _ _ _ _ cmd => decide (classify cfg cmd = .unknown)
  | .outFasttransfer _ p0 ps => decide (ps.length < 255) && (p0 :: ps).all (legalPayload cfg)
  | .outSlowtransfer _ p => legalPayload cfg p && decide (p.length < cfg.chunkSize) && decide (p.length < 65536)
  | .outExit => true
  | .outFixedReply bs => replyReadable cfg bs
  | .iqAppend .. | .iqNextbyte | .iqWaitseq .. | .iqWaitavail .. | .iqReadbyte | .iqReadword | .iqClear | .iqDlreset
  | .clkTick | .oqHeader | .oqByte .. | .oqWord .. | .oqRaw .. | .oqBlock .. | .oqTakeall | .dbMarker ..
  | .dbConstruct .. | .cmdDecode .. | .cmdHigh .. | .cmdLow .. | .cmdClassify .. | .roConstruct .. | .roRound | .roEcho
  | .roEndround | .roExit | .dspWaitSync | .dspReadFixed9 | .dspDecode | .dspDispatch | .dspRespond | .dspFlush => true

end Sys2Proof
end

