-- ==== Sys2Proof/Decode.lean ====
section
/-! DEFINITION. The decoder, total on any bytes and rejecting by name, then the encoder written from the same tables
(30_encoding.md R44 to R51 for the frames, R58 for the micro-operation codes; log entry 9 for their operand bytes). -/

namespace Sys2Proof

/-- Why a byte string is no instruction. -/
inductive DecodeError where
  | noBytes        -- there is no byte to read a code from
  | unknownCode    -- a micro-operation code that names no operation (R58)
  | noOperand      -- the operand bytes end too early
  | badListTag     -- an operand list whose next byte is neither 0 (end) nor 1 (one more byte follows)
  | noSync         -- an inbound frame that does not begin with SYNC (R44)
  | shortFrame     -- a frame whose bytes end too early
  | noHeader       -- an outbound frame that does not begin with HEADER (R46)
  | noBlocks       -- a FAST frame with block count 0 (R48)
  | badBlock       -- a bracketed block with an illegal payload or a marker that is not its payload's (R52)
  | badLength      -- a SLOW frame whose length is not 1 to CHUNK_SIZE - 1 (R49)
deriving DecidableEq, Repr

/-- What a reader gives: the value read and the bytes after it, or why not. -/
abbrev Read (α : Type) := Except DecodeError (α × List Byte)

/-- Go on reading with the bytes that are left. -/
def Read.andThen {α β : Type} (r : Read α) (k : α → List Byte → Read β) : Read β :=
  match r with
  | .ok (a, bs) => k a bs
  | .error e => .error e

/-- Turn the value read into another. -/
def Read.as {α β : Type} (r : Read α) (g : α → β) : Read β :=
  match r with
  | .ok (a, bs) => .ok (g a, bs)
  | .error e => .error e

/-! ### Operands of micro-operations (log entry 9) -/

/-- A `u8` operand: one byte. -/
def takeByte : List Byte → Read Byte
  | [] => .error .noOperand
  | b :: r => .ok (b, r)

/-- A `u16` operand: two bytes, low byte first (R54). -/
def takeWord : List Byte → Read Word
  | lo :: hi :: r => .ok (le16 lo hi, r)
  | _ => .error .noOperand

/-- A "list of u8" operand: 1 before every byte of the list, 0 at its end. -/
def takeList : List Byte → Read (List Byte)
  | [] => .error .noOperand
  | [t] => if t = 0#8 then .ok ([], []) else if t = 1#8 then .error .noOperand else .error .badListTag
  | t :: b :: r =>
    if t = 0#8 then .ok ([], b :: r)
    else if t = 1#8 then (takeList r).as (fun bs => b :: bs)
    else .error .badListTag

/-- The natural whose base-256 digits, least significant first, are the bytes. -/
def ofDigits : List Byte → Nat
  | [] => 0
  | b :: bs => b.toNat + 256 * ofDigits bs

/-- The base-256 digits of a natural, least significant first; `fuel` bounds their number. -/
def digits : Nat → Nat → List Byte
  | 0, _ => []
  | fuel + 1, n => if n = 0 then [] else BitVec.ofNat 8 n :: digits fuel (n / 256)

/-- A natural operand: the list of its base-256 digits. -/
def takeNat (bs : List Byte) : Read Nat := (takeList bs).as ofDigits

/-- The six operands of `CMD.DECODE`, in the wire order of R44. -/
def takeCommand (bs : List Byte) : Read Command :=
  Read.andThen (takeWord bs) fun bc r => Read.andThen (takeWord r) fun de r => Read.andThen (takeWord r) fun hl r =>
    Read.andThen (takeByte r) fun f r => Read.andThen (takeByte r) fun a r => Read.andThen (takeByte r) fun cmd r =>
      .ok (⟨bc, de, hl, f, a, cmd⟩, r)

/-- The micro-operation whose code is `c`, its operands read from `r`; a code that is not in R58's table is refused. -/
def decodeCode (c : Byte) (r : List Byte) : Read Instr :=
  if c = 0x01#8 then (takeList r).as .iqAppend
  else if c = 0x02#8 then .ok (.iqNextbyte, r)
  else if c = 0x03#8 then Read.andThen (takeByte r) fun p0 r => (takeList r).as (.iqWaitseq p0)
  else if c = 0x04#8 then (takeNat r).as .iqWaitavail
  else if c = 0x05#8 then .ok (.iqReadbyte, r)
  else if c = 0x06#8 then .ok (.iqReadword, r)
  else if c = 0x07#8 then .ok (.iqClear, r)
  else if c = 0x08#8 then .ok (.iqDlreset, r)
  else if c = 0x09#8 then .ok (.clkTick, r)
  else if c = 0x10#8 then .ok (.oqHeader, r)
  else if c = 0x11#8 then (takeByte r).as .oqByte
  else if c = 0x12#8 then (takeWord r).as .oqWord
  else if c = 0x13#8 then (takeList r).as .oqRaw
  else if c = 0x14#8 then (takeList r).as .oqBlock
  else if c = 0x15#8 then .ok (.oqTakeall, r)
  else if c = 0x20#8 then (takeList r).as .dbMarker
  else if c = 0x21#8 then (takeList r).as .dbConstruct
  else if c = 0x22#8 then (takeCommand r).as fun x => .cmdDecode x.bc x.de x.hl x.f x.a x.cmd
  else if c = 0x23#8 then (takeWord r).as .cmdHigh
  else if c = 0x24#8 then (takeWord r).as .cmdLow
  else if c = 0x25#8 then (takeByte r).as .cmdClassify
  else if c = 0x30#8 then Read.andThen (takeWord r) fun base r => (takeList r).as (.roConstruct base)
  else if c = 0x31#8 then .ok (.roRound, r)
  else if c = 0x32#8 then .ok (.roEcho, r)
  else if c = 0x33#8 then .ok (.roEndround, r)
  else if c = 0x34#8 then .ok (.roExit, r)
  else if c = 0x40#8 then .ok (.dspWaitSync, r)
  else if c = 0x41#8 then .ok (.dspReadFixed9, r)
  else if c = 0x42#8 then .ok (.dspDecode, r)
  else if c = 0x43#8 then .ok (.dspDispatch, r)
  else if c = 0x44#8 then .ok (.dspRespond, r)
  else if c = 0x45#8 then .ok (.dspFlush, r)
  else .error .unknownCode

/-- A micro-operation from its code byte and operand bytes (R58). -/
def decodeUop : List Byte → Read Instr
  | [] => .error .noBytes
  | c :: r => decodeCode c r

/-! ### Inbound command frames (R44) -/

/-- What is left of `bs` after `pre`, if `bs` begins with it. -/
def stripPrefix : List Byte → List Byte → Option (List Byte)
  | [], bs => some bs
  | _ :: _, [] => none
  | p :: ps, b :: bs => if p = b then stripPrefix ps bs else none

/-- The row of spec/opcode_table.json an inbound frame belongs to: by CMD, and for the disk read by `F[0]` (R55, R102). -/
def frameInstr (cfg : Config) (c : Command) : Instr :=
  match classify cfg c.cmd with
  | .dskio => if writeFlag c.f then .inDskioWrite c.bc c.de c.hl c.f c.a else .inDskioRead c.bc c.de c.hl c.f c.a
  | .known =>
    if c.cmd = cfg.opCmdrequest then .inCmdrequest c.bc c.de c.hl c.f c.a
    else .inKnownOther c.bc c.de c.hl c.f c.a c.cmd
  | .unknown => .inUnknown c.bc c.de c.hl c.f c.a c.cmd

/-- An inbound frame: `SYNC`, then exactly nine bytes `BC_lo BC_hi DE_lo DE_hi HL_lo HL_hi F A CMD`, whatever their
values (R44, R45). -/
def decodeInbound (cfg : Config) (bs : List Byte) : Read Instr :=
  match stripPrefix cfg.sync bs with
  | none => .error .noSync
  | some (b0 :: b1 :: b2 :: b3 :: b4 :: b5 :: b6 :: b7 :: b8 :: rest) =>
    .ok (frameInstr cfg ⟨le16 b0 b1, le16 b2 b3, le16 b4 b5, b6, b7, b8⟩, rest)
  | some _ => .error .shortFrame

/-! ### Outbound frames (R46 to R52) -/

/-- The bytes before the first `m`, and the bytes after it. -/
def splitAtMarker (m : Byte) : List Byte → Option (List Byte × List Byte)
  | [] => none
  | b :: bs =>
    if b = m then some ([], bs)
    else
      match splitAtMarker m bs with
      | none => none
      | some (p, rest) => some (b :: p, rest)

/-- A bracketed block `M, p[0], ..., p[L-1], M`: the closing marker is the first byte after the opening one that equals
it (R52). -/
def takeBlock (cfg : Config) : List Byte → Read (List Byte)
  | [] => .error .shortFrame
  | m :: bs =>
    match splitAtMarker m bs with
    | none => .error .shortFrame
    | some (p, rest) => if legalPayload cfg p ∧ marker p = some m then .ok (p, rest) else .error .badBlock

/-- `n` bracketed blocks, one after the other. -/
def takeBlocks (cfg : Config) : Nat → List Byte → Read (List (List Byte))
  | 0, bs => .ok ([], bs)
  | n + 1, bs => Read.andThen (takeBlock cfg bs) fun p r => (takeBlocks cfg n r).as fun ps => p :: ps

/-- A FASTTRANSFER frame after its code: end address, block count 1..255, the blocks (R48). -/
def decodeFast (cfg : Config) (bs : List Byte) : Read Instr :=
  Read.andThen (takeWord bs) fun e r => Read.andThen (takeByte r) fun n r =>
    match n.toNat with
    | 0 => .error .noBlocks
    | k + 1 => Read.andThen (takeBlock cfg r) fun p r => (takeBlocks cfg k r).as (.outFasttransfer e p)

/-- A SLOWTRANSFER frame after its code: destination, length, one block of that length (R49). -/
def decodeSlow (cfg : Config) (bs : List Byte) : Read Instr :=
  Read.andThen (takeWord bs) fun d r => Read.andThen (takeWord r) fun n r => Read.andThen (takeBlock cfg r) fun p r =>
    if p.length = n.toNat ∧ p.length < cfg.chunkSize then .ok (.outSlowtransfer d p, r) else .error .badLength

/-- An outbound frame: `HEADER`, then the byte that tells the frame (R47, R53); a first byte that is no response code
begins the bytes of a fixed reply, whose length only its opcode tells, so they are all the bytes there are (R51, R53). -/
def decodeOutbound (cfg : Config) (bs : List Byte) : Read Instr :=
  match stripPrefix cfg.header bs with
  | none => .error .noHeader
  | some [] => .ok (.outFixedReply [], [])
  | some (c :: r) =>
    if c = cfg.codeFast then decodeFast cfg r
    else if c = cfg.codeSlow then decodeSlow cfg r
    else if c = cfg.codeExit then .ok (.outExit, r)
    else .ok (.outFixedReply (c :: r), [])

/-- The instruction a byte string of the given format begins with, and the bytes after it. -/
def decode (cfg : Config) (fmt : Format) (bs : List Byte) : Read Instr :=
  match fmt with
  | .uop => decodeUop bs
  | .inbound => decodeInbound cfg bs
  | .outbound => decodeOutbound cfg bs

/-! ### The encoder -/

/-- The operand bytes of a list (see `takeList`). -/
def listBytes : List Byte → List Byte
  | [] => [0#8]
  | b :: bs => 1#8 :: b :: listBytes bs

/-- The operand bytes of a natural (see `takeNat`). -/
def natBytes (n : Nat) : List Byte := listBytes (digits n n)

/-- A bracketed block (R52). A payload that leaves no marker free (more than 254 bytes) has none; 0 stands there. -/
def blockBytes (p : List Byte) : List Byte := [(marker p).getD 0#8] ++ p ++ [(marker p).getD 0#8]

/-- The bracketed blocks of a list of payloads, in list order (R48). -/
def blocksBytes : List (List Byte) → List Byte
  | [] => []
  | p :: ps => blockBytes p ++ blocksBytes ps

/-- The FASTTRANSFER frame (R48). -/
def fastFrame (cfg : Config) (endAddr : Word) (ps : List (List Byte)) : List Byte :=
  cfg.header ++ [cfg.codeFast] ++ bytes16 endAddr ++ [BitVec.ofNat 8 ps.length] ++ blocksBytes ps

/-- The SLOWTRANSFER frame (R49). -/
def slowFrame (cfg : Config) (dest : Word) (p : List Byte) : List Byte :=
  cfg.header ++ [cfg.codeSlow] ++ bytes16 dest ++ bytes16 (BitVec.ofNat 16 p.length) ++ blockBytes p

/-- The EXIT frame (R50). -/
def exitFrame (cfg : Config) : List Byte := cfg.header ++ [cfg.codeExit]

/-- The fixed-opcode reply frame (R51). -/
def replyFrame (cfg : Config) (bs : List Byte) : List Byte := cfg.header ++ bs

/-- The bytes of an instruction, in its own format. -/
def encode (cfg : Config) : Instr → List Byte
  | .iqAppend bs => 0x01#8 :: listBytes bs
  | .iqNextbyte => [0x02#8]
  | .iqWaitseq p0 ps => 0x03#8 :: p0 :: listBytes ps
  | .iqWaitavail n => 0x04#8 :: natBytes n
  | .iqReadbyte => [0x05#8]
  | .iqReadword => [0x06#8]
  | .iqClear => [0x07#8]
  | .iqDlreset => [0x08#8]
  | .clkTick => [0x09#8]
  | .oqHeader => [0x10#8]
  | .oqByte v => [0x11#8, v]
  | .oqWord v => 0x12#8 :: bytes16 v
  | .oqRaw bs => 0x13#8 :: listBytes bs
  | .oqBlock p => 0x14#8 :: listBytes p
  | .oqTakeall => [0x15#8]
  | .dbMarker p => 0x20#8 :: listBytes p
  | .dbConstruct p => 0x21#8 :: listBytes p
  | .cmdDecode bc de hl f a cmd => 0x22#8 :: fieldBytes ⟨bc, de, hl, f, a, cmd⟩
  | .cmdHigh x => 0x23#8 :: bytes16 x
  | .cmdLow x => 0x24#8 :: bytes16 x
  | .cmdClassify cmd => [0x25#8, cmd]
  | .roConstruct base data => 0x30#8 :: (bytes16 base ++ listBytes data)
  | .roRound => [0x31#8]
  | .roEcho => [0x32#8]
  | .roEndround => [0x33#8]
  | .roExit => [0x34#8]
  | .dspWaitSync => [0x40#8]
  | .dspReadFixed9 => [0x41#8]
  | .dspDecode => [0x42#8]
  | .dspDispatch => [0x43#8]
  | .dspRespond => [0x44#8]
  | .dspFlush => [0x45#8]
  | .inDskioRead bc de hl f a => frameBytes cfg ⟨bc, de, hl, f, a, cfg.opDskio⟩
  | .inDskioWrite bc de hl f a => frameBytes cfg ⟨bc, de, hl, f, a, cfg.opDskio⟩
  | .inCmdrequest bc de hl f a => frameBytes cfg ⟨bc, de, hl, f, a, cfg.opCmdrequest⟩
  | .inKnownOther bc de hl f a cmd => frameBytes cfg ⟨bc, de, hl, f, a, cmd⟩
  | .inUnknown bc de hl f a cmd => frameBytes cfg ⟨bc, de, hl, f, a, cmd⟩
  | .outFasttransfer e p0 ps => fastFrame cfg e (p0 :: ps)
  | .outSlowtransfer d p => slowFrame cfg d p
  | .outExit => exitFrame cfg
  | .outFixedReply bs => replyFrame cfg bs

/-! ### A word of spec/opcode_table.json (log entry 10) -/

/-- `n` bytes of a number, least significant first. -/
def wordBytes : Nat → Nat → List Byte
  | 0, _ => []
  | n + 1, w => BitVec.ofNat 8 w :: wordBytes n (w / 256)

/-- The longest instruction whose operand bytes are all 0: `CMD.DECODE`, a code and nine bytes. -/
def zeroOperands : List Byte := List.replicate 9 0#8

/-- The bytes of a table word as they are stored: a micro-operation code at the front, its operand bytes 0 above the
table's bits; where no micro-operation has that code, the word is the key byte CMD of an inbound frame (byte 10 of the
frame, R44) whose other field bytes are 0. -/
def tableBytes (cfg : Config) (nbits w : Nat) : Format × List Byte :=
  let bytes := wordBytes (max 1 (nbits / 8)) w
  match decodeUop (bytes ++ zeroOperands) with
  | .ok _ => (.uop, bytes ++ zeroOperands)
  | .error _ => (.inbound, frameBytes cfg ⟨0#16, 0#16, 0#16, 0#8, 0#8, BitVec.ofNat 8 w⟩)

/-- The instruction the decoder reads from a word of spec/opcode_table.json. -/
def decodeTableWord (nbits w : Nat) : Option Instr :=
  let t := tableBytes Config.default nbits w
  match decode Config.default t.1 t.2 with
  | .ok (i, _) => some i
  | .error _ => none

end Sys2Proof
end

