-- ==== Sys2Proof/Machine/State.lean ====
section
/-! DEFINITION. The machine's state as plain data, holding everything 10_state.md gives it, and the reasons a step stops. -/

namespace Sys2Proof.Machine

/-- The Dispatcher state, the analogue of a program counter (10_state.md R21). -/
inductive Fsm where
  | waitSync | readFixed9 | decode | dispatch | respond | flush | halted
deriving DecidableEq, Repr

/-- The phase of the ReadOperation (R22). -/
inductive RoPhase where
  | none | send | echo
deriving DecidableEq, Repr

/-- The error codes of 60_exceptions.md R108. `protocolDesync` is reserved and never raised (R109). -/
inductive ErrCode where
  | none | protocolTimeout | protocolDesync | markerExhausted | unimplementedOpcode | transportLost
  | diskStoreFault | blockLength | fieldOverflow | queueOverflow | readUnderflow
deriving DecidableEq, Repr

/-- A DataBlock: a payload and its marker (R22, 42_datablock_command.md R79). -/
structure DataBlock where
  payload : List Byte
  marker  : Byte
deriving DecidableEq, Repr

/-- Which queue a `QueueOverflow` names (R108). -/
inductive QueueId where
  | inbound | outbound
deriving DecidableEq, Repr

/-- Which pop a `ReadUnderflow` names (R108). -/
inductive PopId where
  | readByte | readWord
deriving DecidableEq, Repr

/-- The "info recorded" column of R108. -/
inductive ErrInfo where
  | none                                              -- TransportLost
  | nextbyte                                          -- ProtocolTimeout in IQ.NEXTBYTE
  | waitseq (discard : Nat)                           -- ProtocolTimeout in IQ.WAITSEQ
  | waitavail (haveBytes need : Nat)                  -- ProtocolTimeout in IQ.WAITAVAIL
  | payloadLength (n : Nat)                           -- MarkerExhausted, BlockLength
  | opcode (cmd : Byte)                               -- UnimplementedOpcode
  | store (offset length : Nat)                       -- DiskStoreFault
  | blockCount (n : Nat)                              -- FieldOverflow
  | queue (q : QueueId) (length request : Nat)        -- QueueOverflow
  | pop (op : PopId) (haveBytes : Nat)                -- ReadUnderflow
deriving DecidableEq, Repr

/-- A diagnostic event (60_exceptions.md R120). -/
inductive DiagEvent where
  | cmdReceived (c : Command) (cls : CmdClass)
  | unknownOpcode (cmd : Byte)
  | zeroLength
  | error (code : ErrCode) (info : ErrInfo)
deriving DecidableEq, Repr

/-- What a value-returning operation returned (the model's own; log entry 7). -/
inductive RetVal where
  | none
  | completed
  | byte (v : Byte)
  | word (v : Word)
  | bytes (bs : List Byte)
  | count (n : Nat)
  | cls (c : CmdClass)
  | block (b : DataBlock)
deriving DecidableEq, Repr

/-- Who moves at a step (log entry 2): ENG, FEED with one batch, CLK, or one operation given by its encoding. -/
inductive Move where
  | eng
  | feed (bs : List Byte)
  | clk
  | operation (fmt : Format) (bytes : List Byte)
deriving DecidableEq, Repr

/-- What is offered at one step: a mover, and whether the inputs `reset` and `link_lost` are raised (60_exceptions.md
R114; log entry 21). -/
structure Offer where
  reset    : Bool := false
  linkLost : Bool := false
  move     : Move := .eng
deriving DecidableEq, Repr

/-- The state (10_state.md R13), the configuration and disk image no step writes, and the model's own fields. -/
structure State where
  inq         : List Byte
  outq        : List Byte
  dlElapsed   : Nat
  syncI       : Nat
  syncDiscard : Nat
  seq         : Option (List Byte)      -- the pattern of the IQ.WAITSEQ in progress (log entry 8)
  command     : Command
  cmdValid    : Bool
  fsm         : Fsm
  roPhase     : RoPhase
  roBase      : Word
  roPending   : List DataBlock
  roRetained  : List DataBlock
  roIdx       : Nat
  roRetx      : Nat
  fault       : ErrCode
  txlog       : List (List Byte)
  diaglog     : List DiagEvent
  cfg         : Config                  -- the parameters of R7 (log entry 1)
  image       : List Host.Cell          -- the disk image's listed bytes (20_memory.md R28, R29; log entry 18)
  agenda      : List Offer              -- the model's own: the interleaving to come (log entry 2)
  draws       : Nat                     -- the model's own: the index of the next free draw (log entry 3)
  ret         : RetVal                  -- the model's own: what the last operation returned (log entry 7)
deriving DecidableEq, Repr

/-- Right after reset (10_state.md R13, 70_reset_and_hazards.md R124): queues, logs and counters empty, `fsm = WAIT_SYNC`
with `IQ.WAITSEQ SYNC` started. The command registers and `ro_base` hold 0, a DESIGN CHOICE (log entries 5 and 6). The
parameters are the defaults, the image lists no byte, and no schedule stands in the agenda (log entries 1, 2, 18). -/
def State.reset : State where
  inq := []
  outq := []
  dlElapsed := 0
  syncI := 0
  syncDiscard := 0
  seq := some Config.default.sync
  command := ⟨0#16, 0#16, 0#16, 0#8, 0#8, 0#8⟩
  cmdValid := false
  fsm := .waitSync
  roPhase := .none
  roBase := 0#16
  roPending := []
  roRetained := []
  roIdx := 0
  roRetx := 0
  fault := .none
  txlog := []
  diaglog := []
  cfg := Config.default
  image := []
  agenda := []
  draws := 0
  ret := .none

/-- Why a step stops with a fault. Safe: the model stops where the spec gives no effect. -/
inductive Fault where
  /-- Raised by `RO.ROUND`, `RO.ECHO`, `RO.ENDROUND` and `RO.EXIT` when what the rule requires of `ro_phase`, `ro_idx` and
  `ro_pending` does not hold (43_read_operation.md R84, R86, R87, R88; log entry 13). Safe; never raised by the engine's
  own steps. -/
  | roNotEnabled
deriving DecidableEq, Repr

/-- Why a step is refused. -/
inductive Refusal where
  /-- Raised by `exec`'s arm of an instruction that has no meaning yet. Safe. No arm of this model raises it. -/
  | notModelled (mnemonic : String)
  /-- Raised by `step` when the bytes of an operation move are no instruction: "a model's decoder of micro-operation codes
  refuses them" (30_encoding.md R58). Safe. -/
  | undecodable (e : DecodeError)
deriving DecidableEq, Repr

end Sys2Proof.Machine
end

