-- ==== Sys2Proof/Machine/Ops.lean ====
section
/-! DEFINITION. The shared operations: results of an operation, faults and recovery, queues, waits, frames, the store. -/

namespace Sys2Proof.Machine

/-! ### How an operation ends -/

/-- An operation that does not wait: it returns a value, or raises an error in the state it had reached (R108). -/
inductive Res (α : Type) where
  | ok (v : α) (s : State)
  | raised (code : ErrCode) (info : ErrInfo) (s : State)

/-- One evaluation of a wait (40_inbound_queue.md R60): complete, still suspended, or timed out. -/
inductive Wait (α : Type) where
  | complete (v : α) (s : State)
  | suspended (s : State)
  | timeout (info : ErrInfo) (s : State)

/-- Pseudocode order (60_exceptions.md R114 item 3): a raise ends the action. -/
def Res.andThen {α β : Type} (r : Res α) (k : α → State → Res β) : Res β :=
  match r with
  | .ok v s => k v s
  | .raised c i s => .raised c i s

/-! ### Diagnostics, errors, recovery (60_exceptions.md) -/

/-- `Diag.emit(event)` (R120). -/
def emit (e : DiagEvent) (s : State) : State := { s with diaglog := s.diaglog ++ [e] }

/-- Taking a fatal fault (R112): the diagnostic, the latched code, `HALTED`; nothing else is written. -/
def fatal (c : ErrCode) (i : ErrInfo) (s : State) : State :=
  { emit (.error c i) s with fault := c, fsm := .halted }

/-- `IQ.DLRESET` (40_inbound_queue.md R63). -/
def deadlineReset (s : State) : State := { s with dlElapsed := 0 }

/-- Entering `WAIT_SYNC` (44_dispatcher.md R97): the deadline is reset and `IQ.WAITSEQ SYNC` is started. -/
def enterWaitSync (s : State) : State :=
  { deadlineReset s with fsm := .waitSync, syncI := 0, syncDiscard := 0, seq := some s.cfg.sync }

/-- Recovery from `ProtocolTimeout` (60_exceptions.md R110). -/
def recovery (i : ErrInfo) (s : State) : State :=
  enterWaitSync
    { emit (.error .protocolTimeout i) s with
      inq := [], outq := [], roPhase := .none, roPending := [], roRetained := [], roIdx := 0 }

/-- Taking an error: the recoverable one recovers (R110), every other is fatal (R112). -/
def takeError (c : ErrCode) (i : ErrInfo) (s : State) : State :=
  if c = .protocolTimeout then recovery i s else fatal c i s

/-! ### Outcomes of an instruction -/

/-- The next state of an action: `k` on its result, or the error taken. -/
def Res.finish {α : Type} (r : Res α) (k : α → State → State) : Host.Outcome State Fault Refusal :=
  match r with
  | .ok v s => .next (k v s)
  | .raised c i s => .next (takeError c i s)

/-- The next state of one evaluation of a wait: `k` on completion, the state as it stands while suspended, recovery on a
timeout (R60, R110). -/
def Wait.finish {α : Type} (w : Wait α) (k : α → State → Host.Outcome State Fault Refusal) :
    Host.Outcome State Fault Refusal :=
  match w with
  | .complete v s => k v s
  | .suspended s => .next s
  | .timeout i s => .next (recovery i s)

/-- An operation of ENG: "In `HALTED` ENG has no step" (R112), so nothing changes there (log entry 15). -/
def engineOnly (s : State) (act : State → Host.Outcome State Fault Refusal) : Host.Outcome State Fault Refusal :=
  if s.fsm = .halted then .next s else act s

/-- Record what an operation returned (log entry 7). -/
def withRet (v : RetVal) (s : State) : State := { s with ret := v }

/-! ### Deadline and waits (10_state.md R16, 40_inbound_queue.md R60) -/

/-- `expired`: `dl_elapsed * TICK_MS >= TIMEOUT_MS` (R16). -/
def expired (s : State) : Bool := decide (s.cfg.timeoutMs ≤ s.dlElapsed * s.cfg.tickMs)

/-- `CLK.TICK` (R62). -/
def tick (s : State) : State := { s with dlElapsed := s.dlElapsed + 1 }

/-- R60: ready and not expired, progress; ready and expired, the next free draw says which; not ready and expired, the
timeout; neither, hold. -/
def suspend {α : Type} (ready : Bool) (info : ErrInfo) (progress : State → Wait α) (s : State) : Wait α :=
  if ready then
    if expired s then
      if Config.drawTimeout s.draws then .timeout info { s with draws := s.draws + 1 }
      else progress { s with draws := s.draws + 1 }
    else progress s
  else if expired s then .timeout info s
  else .suspended s

/-! ### The queues (41_outbound_queue.md, 40_inbound_queue.md) -/

/-- Whether `request` more bytes fit a queue of `length` bytes; an unbounded queue takes any number (R61, R70). -/
def fits (depth : Option Nat) (length request : Nat) : Bool :=
  match depth with
  | none => true
  | some d => decide (length + request ≤ d)

/-- `append(bs)` (R61): all of `bs` at the tail, or `QueueOverflow` with a bounded depth. -/
def append (bs : List Byte) (s : State) : Res Unit :=
  if fits s.cfg.inDepth s.inq.length bs.length then .ok () { s with inq := s.inq ++ bs }
  else .raised .queueOverflow (.queue .inbound s.inq.length bs.length) s

/-- Bytes at the tail of `outq`. -/
def pushed (bs : List Byte) (s : State) : State := { s with outq := s.outq ++ bs }

/-- `OutPush(bs)` (R70). -/
def outPush (bs : List Byte) (s : State) : Res Unit :=
  if fits s.cfg.outDepth s.outq.length bs.length then .ok () (pushed bs s)
  else .raised .queueOverflow (.queue .outbound s.outq.length bs.length) s

/-- `addHeader()` (R71). -/
def addHeader (s : State) : Res Unit := outPush s.cfg.header s

/-- `addByte(v)` (R72). -/
def addByte (v : Byte) (s : State) : Res Unit := outPush [v] s

/-- `addWord16LE(v)` (R73). -/
def addWord (v : Word) (s : State) : Res Unit := outPush (bytes16 v) s

/-- `marker(p)` as an operation (42_datablock_command.md R78). -/
def findMarker (p : List Byte) (s : State) : Res Byte :=
  match marker p with
  | some m => .ok m s
  | none => .raised .markerExhausted (.payloadLength p.length) s

/-- `construct(p)` (R79). -/
def construct (p : List Byte) (s : State) : Res DataBlock :=
  if legalPayload s.cfg p then (findMarker p s).andThen fun m s => .ok ⟨p, m⟩ s
  else .raised .blockLength (.payloadLength p.length) s

/-- `addBlock(p)` (41_outbound_queue.md R75). -/
def addBlock (p : List Byte) (s : State) : Res Unit :=
  if legalPayload s.cfg p then (findMarker p s).andThen fun m s => outPush ([m] ++ p ++ [m]) s
  else .raised .blockLength (.payloadLength p.length) s

/-- `addBlock` of each payload in list order. -/
def addBlocks : List (List Byte) → State → Res Unit
  | [], s => .ok () s
  | p :: ps, s => (addBlock p s).andThen fun _ s => addBlocks ps s

/-- `takeAll()` (R76). -/
def takeAll (s : State) : List Byte × State := (s.outq, { s with outq := [] })

/-- A flush (R77): one transport write when there is anything to write. -/
def flush (s : State) : State :=
  let (r, s1) := takeAll s
  if r = [] then s1 else { s1 with txlog := s1.txlog ++ [r] }

/-- `clear()` (40_inbound_queue.md R69). -/
def clear (s : State) : State := { s with inq := [] }

/-- `readByte()` (R67). -/
def readByte (s : State) : Res Byte :=
  match s.inq with
  | b :: rest => .ok b { s with inq := rest }
  | [] => .raised .readUnderflow (.pop .readByte 0) s

/-- `readWord16LE()` (R68): low byte first; with fewer than two bytes nothing is popped. -/
def readWord (s : State) : Res Word :=
  match s.inq with
  | lo :: hi :: rest => .ok (le16 lo hi) { s with inq := rest }
  | _ => .raised .readUnderflow (.pop .readWord s.inq.length) s

/-- The progress of `nextByte()` (R64). -/
def popByte (s : State) : Wait Byte :=
  match s.inq with
  | b :: rest => .complete b { s with inq := rest }
  | [] => .suspended s

/-- One evaluation of `nextByte()` (R64). -/
def nextByte (s : State) : Wait Byte := suspend (!s.inq.isEmpty) .nextbyte popByte s

/-- One evaluation of `waitForAvailable(n)` (R66). -/
def waitAvailable (n : Nat) (s : State) : Wait Unit :=
  suspend (decide (n ≤ s.inq.length)) (.waitavail s.inq.length n) (fun s => .complete () s) s

/-- The start of `IQ.WAITSEQ pat` (R65, "on entry"); nothing where that wait is in progress (log entry 8). -/
def startSequence (pat : List Byte) (s : State) : State :=
  if s.seq = some pat then s else { s with syncI := 0, syncDiscard := 0, seq := some pat }

/-- The match index and discard count after the byte `b` (R65). -/
def matchByte (pat : List Byte) (b : Byte) (i discard : Nat) : Nat × Nat :=
  if pat[i]? = some b then (i + 1, discard)
  else if pat[0]? = some b then (1, discard + i)
  else (0, discard + i + 1)

/-- The progress of `waitForSequence(pat)` (R65): one byte popped and matched. -/
def matchStep (pat : List Byte) (s : State) : Wait Nat :=
  match s.inq with
  | [] => .suspended s
  | b :: rest =>
    let r := matchByte pat b s.syncI s.syncDiscard
    let s1 := { s with inq := rest, syncI := r.1, syncDiscard := r.2 }
    if r.1 = pat.length then .complete r.2 { s1 with seq := none } else .suspended s1

/-- One evaluation of `waitForSequence(pat)` (R65). -/
def waitSequence (pat : List Byte) (s : State) : Wait Nat :=
  let s1 := startSequence pat s
  suspend (!s1.inq.isEmpty) (.waitseq s1.syncDiscard) (matchStep pat) s1

/-! ### The command register file (10_state.md R18) -/

/-- The one write of the file: all six fields and `cmd_valid` (42_datablock_command.md R81). -/
def writeCommand (c : Command) (s : State) : State := { s with command := c, cmdValid := true }

/-- A read of the file. While `cmd_valid = 0` it gives what the registers hold from reset (log entry 5); the Dispatcher
reads only after a decode (R18). -/
def readCommand (s : State) : Command := s.command

/-! ### Frames (30_encoding.md R59) -/

/-- `OQ.FRAME_EXIT`. -/
def frameExit (s : State) : Res Unit := (addHeader s).andThen fun _ s => addByte s.cfg.codeExit s

/-- `OQ.FRAME_SLOW dest p`. -/
def frameSlow (dest : Word) (p : List Byte) (s : State) : Res Unit :=
  (addHeader s).andThen fun _ s => (addByte s.cfg.codeSlow s).andThen fun _ s => (addWord dest s).andThen fun _ s =>
    (addWord (BitVec.ofNat 16 p.length) s).andThen fun _ s => addBlock p s

/-- `OQ.FRAME_FAST end blks`; more blocks than the 8-bit count holds raise `FieldOverflow` before any byte is pushed
(43_read_operation.md R92). -/
def frameFast (endAddr : Word) (ps : List (List Byte)) (s : State) : Res Unit :=
  if ps.length > 255 then .raised .fieldOverflow (.blockCount ps.length) s
  else (addHeader s).andThen fun _ s => (addByte s.cfg.codeFast s).andThen fun _ s => (addWord endAddr s).andThen fun _ s =>
    (addByte (BitVec.ofNat 8 ps.length) s).andThen fun _ s => addBlocks ps s

/-- The fixed-opcode reply frame (44_dispatcher.md R104): `OQ.HEADER; OQ.RAW bs`. -/
def frameReply (bs : List Byte) (s : State) : Res Unit := (addHeader s).andThen fun _ s => outPush bs s

/-! ### The disk-image store (20_memory.md R29) -/

/-- The image's byte at an offset; a byte that no entry lists reads 0 (log entry 18). -/
def imageByte : List Host.Cell → Nat → Byte
  | [], _ => 0#8
  | (a, b) :: rest, k => if a = k then b else imageByte rest k

/-- `length` bytes of the image from `offset`, in offset order. -/
def imageBytes (image : List Host.Cell) : Nat → Nat → List Byte
  | _, 0 => []
  | offset, n + 1 => imageByte image offset :: imageBytes image (offset + 1) n

/-- `Store.read(offset, length)` (R29). -/
def storeRead (offset length : Nat) (s : State) : Res (List Byte) :=
  if s.cfg.storeSize < offset + length then .raised .diskStoreFault (.store offset length) s
  else .ok (imageBytes s.image offset length) s

/-- Set one byte of an image, keeping it canonical: offsets strictly rising, no entry equal to what an unlisted offset
reads as. No step writes the image; this is how surrounding software fills it before a session
(70_reset_and_hazards.md R127). -/
def imageSet : List Host.Cell → Nat → Byte → List Host.Cell
  | [], k, v => if v = 0#8 then [] else [(k, v)]
  | (a, b) :: rest, k, v =>
    if k < a then (if v = 0#8 then (a, b) :: rest else (k, v) :: (a, b) :: rest)
    else if k = a then (if v = 0#8 then rest else (k, v) :: rest)
    else (a, b) :: imageSet rest k v

/-- Every entry's offset is at least `lo`, offsets strictly rise, and no entry is 0. -/
def imageWfFrom : Nat → List Host.Cell → Bool
  | _, [] => true
  | lo, (a, b) :: rest => decide (lo ≤ a) && decide (b ≠ 0#8) && imageWfFrom (a + 1) rest

/-- The canonical form of an image. -/
def Memory.wf (image : List Host.Cell) : Bool := imageWfFrom 0 image

/-! ### Inputs (10_state.md R27) -/

/-- `link_lost` (60_exceptions.md R113): fatal in every state but `HALTED`, where it changes nothing. -/
def linkLost (s : State) : State := if s.fsm = .halted then s else fatal .transportLost .none s

/-- `reset` (70_reset_and_hazards.md R124): every state element at its reset value. Parameters are not changed (R125), the
image is the environment's, and the schedule and the free draws go on (log entry 25). -/
def resetEvent (s : State) : State :=
  { State.reset with cfg := s.cfg, seq := some s.cfg.sync, image := s.image, agenda := s.agenda, draws := s.draws }

end Sys2Proof.Machine
end

