-- ==== Sys2Proof/Machine/DataBlockCommand.lean ====
section
/-! DEFINITION. The meanings of the DB and CMD operations (42_datablock_command.md, 30_encoding.md R55). -/

namespace Sys2Proof.Machine

/-- R78. -/
def execDbMarker (p : List Byte) (s : State) : Host.Outcome State Fault Refusal :=
  engineOnly s fun s => (findMarker p s).finish fun m s => withRet (.byte m) s

/-- R79. -/
def execDbConstruct (p : List Byte) (s : State) : Host.Outcome State Fault Refusal :=
  engineOnly s fun s => (construct p s).finish fun b s => withRet (.block b) s

/-- R81. -/
def execCmdDecode (bc de hl : Word) (f a cmd : Byte) (s : State) : Host.Outcome State Fault Refusal :=
  engineOnly s fun s => .next (writeCommand ⟨bc, de, hl, f, a, cmd⟩ s)

/-- R82. -/
def execCmdHigh (x : Word) (s : State) : Host.Outcome State Fault Refusal :=
  engineOnly s fun s => .next (withRet (.byte (high x)) s)

/-- R82. -/
def execCmdLow (x : Word) (s : State) : Host.Outcome State Fault Refusal :=
  engineOnly s fun s => .next (withRet (.byte (low x)) s)

/-- R55. -/
def execCmdClassify (cmd : Byte) (s : State) : Host.Outcome State Fault Refusal :=
  engineOnly s fun s => .next (withRet (.cls (classify s.cfg cmd)) s)

end Sys2Proof.Machine
end

