-- ==== Sys2Proof/Machine/ReadOperation.lean ====
section
/-! DEFINITION. The ReadOperation block-transfer sequencer (43_read_operation.md). -/

namespace Sys2Proof.Machine

/-- `fuel` chunks of `n` bytes cut from the front of `data`, fewer when the data ends (R83). -/
def chunksFrom : Nat → Nat → List Byte → List (List Byte)
  | 0, _, _ => []
  | fuel + 1, n, data => if data = [] then [] else data.take n :: chunksFrom fuel n (data.drop n)

/-- `chunks(data)` (R83): every chunk but the last has `CHUNK_SIZE` bytes, none is empty. -/
def chunks (cfg : Config) (data : List Byte) : List (List Byte) := chunksFrom data.length cfg.chunkSize data

/-- `DB.CONSTRUCT` of each chunk in order. -/
def constructAll : List (List Byte) → State → Res (List DataBlock)
  | [], s => .ok [] s
  | p :: ps, s => (construct p s).andThen fun b s => (constructAll ps s).andThen fun bs s => .ok (b :: bs) s

/-- `RO.CONSTRUCT base data` (R83): the chunks as DataBlocks, in reverse order. -/
def roConstruct (base : Word) (data : List Byte) (s : State) : Res Unit :=
  (constructAll (chunks s.cfg data) { s with roBase := base }).andThen fun blks s =>
    .ok () { s with roPending := blks.reverse, roRetained := [], roIdx := 0, roRetx := 0, roPhase := .send }

/-- The payloads of a list of DataBlocks. -/
def payloads (blks : List DataBlock) : List (List Byte) := blks.map DataBlock.payload

/-- The end address of a round, `ro_base +16 total` (R84, R93, 20_memory.md R30). -/
def endAddress (s : State) : Word := s.roBase + BitVec.ofNat 16 (totalSize (payloads s.roPending))

/-- `RO.ROUND` (R84): the FAST frame of the pending blocks, its flush and deadline reset (R85). -/
def roRound (s : State) : Res Unit :=
  (frameFast (endAddress s) (payloads s.roPending) s).andThen fun _ s =>
    .ok () { deadlineReset (flush s) with roRetained := [], roIdx := 0, roPhase := .echo }

/-- One echo against the block it is awaited for (R86). -/
def takeEcho (blk : DataBlock) (e : Byte) (s : State) : State :=
  if e = blk.marker then { s with roIdx := s.roIdx + 1 }
  else { s with roRetained := s.roRetained ++ [blk], roRetx := s.roRetx + 1, roIdx := s.roIdx + 1 }

/-- `RO.ENDROUND` (R87). -/
def roEndround (s : State) : State :=
  { s with roPending := s.roRetained, roRetained := [], roIdx := 0, roPhase := .send }

/-- `RO.EXIT` (R88). -/
def roExit (s : State) : Res Unit := (frameExit s).andThen fun _ s => .ok () { s with roPhase := .none }

/-- R83. -/
def execRoConstruct (base : Word) (data : List Byte) (s : State) : Host.Outcome State Fault Refusal :=
  engineOnly s fun s => (roConstruct base data s).finish fun _ s => s

/-- R84, "requires ro_phase == RO_SEND and ro_pending != []" (log entry 13). -/
def execRoRound (s : State) : Host.Outcome State Fault Refusal :=
  engineOnly s fun s =>
    if s.roPhase = .send ∧ s.roPending ≠ [] then (roRound s).finish fun _ s => s else .fault .roNotEnabled

/-- R86, "requires ro_phase == RO_ECHO and ro_idx < |ro_pending|" (log entry 13). -/
def execRoEcho (s : State) : Host.Outcome State Fault Refusal :=
  engineOnly s fun s =>
    match s.roPhase, s.roPending[s.roIdx]? with
    | .echo, some blk => (nextByte s).finish fun e s => .next (takeEcho blk e s)
    | _, _ => .fault .roNotEnabled

/-- R87, "When every block of the round has had its echo" (log entry 13). -/
def execRoEndround (s : State) : Host.Outcome State Fault Refusal :=
  engineOnly s fun s =>
    if s.roPhase = .echo ∧ s.roPending.length ≤ s.roIdx then .next (roEndround s) else .fault .roNotEnabled

/-- R88, "requires ro_phase == RO_SEND and ro_pending == []" (log entry 13). -/
def execRoExit (s : State) : Host.Outcome State Fault Refusal :=
  engineOnly s fun s =>
    if s.roPhase = .send ∧ s.roPending = [] then (roExit s).finish fun _ s => s else .fault .roNotEnabled

end Sys2Proof.Machine
end

