-- ==== Sys2Proof/Machine/Dispatcher.lean ====
section
/-! DEFINITION. The Dispatcher's actions (44_dispatcher.md), one per state, and which of them ENG takes next. -/

namespace Sys2Proof.Machine

/-- Go to a Dispatcher state. -/
def goto (f : Fsm) (s : State) : State := { s with fsm := f }

/-- `IQ.READCMD` (30_encoding.md R59): BC, DE, HL as words, then F, A, CMD, in that order (R99). -/
def readFields (s : State) : Res Command :=
  (readWord s).andThen fun bc s => (readWord s).andThen fun de s => (readWord s).andThen fun hl s =>
    (readByte s).andThen fun f s => (readByte s).andThen fun a s => (readByte s).andThen fun cmd s =>
      .ok ⟨bc, de, hl, f, a, cmd⟩ s

/-- The slow path of a disk read (R103): one SLOWTRANSFER frame, queued for the flush. -/
def slowPath (dest : Word) (data : List Byte) (s : State) : Res Unit := frameSlow dest data s

/-- The disk-read action (R102, R103). -/
def diskRead (c : Command) (s : State) : Res Unit :=
  if writeFlag c.f then .ok () s
  else
    let size := (s.cfg.dskioMap.count.read c).toNat * s.cfg.sectorSize
    let start := (s.cfg.dskioMap.start.read c).toNat * s.cfg.sectorSize
    let dest := s.cfg.dskioMap.dest.read c
    if size = 0 then .ok () (emit .zeroLength s)
    else
      (storeRead start size s).andThen fun data s =>
        if size < s.cfg.chunkSize then slowPath dest data s else roConstruct dest data s

/-- The fixed-reply action (R104). -/
def fixedReplyAction (c : Command) (s : State) : Res Unit :=
  match fixedReply s.cfg c with
  | .noResponse => .ok () s
  | .reply bs => frameReply bs s
  | .unimplemented => .raised .unimplementedOpcode (.opcode c.cmd) s

/-- The unknown action (R105). -/
def unknownAction (c : Command) (s : State) : Res Unit := .ok () (emit (.unknownOpcode c.cmd) s)

/-- The opcode-keyed action (R101). -/
def dispatchAction (c : Command) (s : State) : Res Unit :=
  match classify s.cfg c.cmd with
  | .dskio => diskRead c s
  | .known => fixedReplyAction c s
  | .unknown => unknownAction c s

/-- The action of `DECODE` on a Command (R100). -/
def decodeAction (c : Command) (s : State) : State :=
  goto .dispatch (emit (.cmdReceived c (classify s.cfg c.cmd)) s)

/-- The action of `DISPATCH` on a Command (R101). -/
def dispatchCommand (c : Command) (s : State) : Host.Outcome State Fault Refusal :=
  (dispatchAction c s).finish fun _ s => goto .respond s

/-- R98: one step of `IQ.WAITSEQ SYNC`; on completion the deadline is reset and the fields are awaited. -/
def execDspWaitSync (s : State) : Host.Outcome State Fault Refusal :=
  engineOnly s fun s => (waitSequence s.cfg.sync s).finish fun _ s => .next (goto .readFixed9 (deadlineReset s))

/-- R99: one step of `IQ.WAITAVAIL FIXED_LEN`; the nine pops and the decode are in the step it completes in. -/
def execDspReadFixed9 (s : State) : Host.Outcome State Fault Refusal :=
  engineOnly s fun s => (waitAvailable s.cfg.fixedLen s).finish fun _ s =>
    (readFields s).finish fun c s => goto .decode (writeCommand c s)

/-- R100. -/
def execDspDecode (s : State) : Host.Outcome State Fault Refusal :=
  engineOnly s fun s => .next (decodeAction (readCommand s) s)

/-- R101. -/
def execDspDispatch (s : State) : Host.Outcome State Fault Refusal :=
  engineOnly s fun s => dispatchCommand (readCommand s) s

/-- R106: one action of the ReadOperation, or on to `FLUSH`. -/
def execDspRespond (s : State) : Host.Outcome State Fault Refusal :=
  engineOnly s fun s =>
    if s.roPhase = .none then .next (goto .flush s)
    else if s.roPhase = .send ∧ s.roPending ≠ [] then execRoRound s
    else if s.roPhase = .echo ∧ s.roIdx < s.roPending.length then execRoEcho s
    else if s.roPhase = .echo then execRoEndround s
    else (roExit s).finish fun _ s => goto .flush s

/-- R107: the queued response is flushed and `WAIT_SYNC` is entered. -/
def execDspFlush (s : State) : Host.Outcome State Fault Refusal :=
  engineOnly s fun s => .next (enterWaitSync (flush s))

/-- ENG's next action, "chosen from `fsm` and `ro_phase` alone" (R95; the choice on `ro_phase` is `DSP.RESPOND`'s). In
`HALTED` there is none. -/
def engineInstr (s : State) : Option Instr :=
  match s.fsm with
  | .waitSync => some .dspWaitSync
  | .readFixed9 => some .dspReadFixed9
  | .decode => some .dspDecode
  | .dispatch => some .dspDispatch
  | .respond => some .dspRespond
  | .flush => some .dspFlush
  | .halted => none

end Sys2Proof.Machine
end

