-- ==== Sys2Proof/Machine/Frames.lean ====
section
/-! DEFINITION. The meanings of the wire-level rows: an inbound frame as the command it gives the block (30_encoding.md
R44, 44_dispatcher.md R101 to R105; log entry 11), an outbound frame as the building of it (R48 to R51, R59; log entry 12). -/

namespace Sys2Proof.Machine

/-- ENG can take a frame that arrives now: it waits in `WAIT_SYNC` with nothing matched, nothing queued before the frame
and the deadline still running, and a frame holds all the bytes `READ_FIXED_9` awaits. -/
def readyForFrame (s : State) : Bool :=
  decide (s.fsm = .waitSync) && decide (s.inq = []) && decide (s.seq = some s.cfg.sync) && decide (s.syncI = 0)
    && !expired s && decide (s.cfg.fixedLen ≤ 9)

/-- ENG has taken a frame: `SYNC` matched with the discard count unchanged, the deadline reset on completion (R96 item 2),
the nine fields popped and decoded (R98, R99). -/
def frameTaken (c : Command) (s : State) : State :=
  writeCommand c { deadlineReset s with inq := [], syncI := s.cfg.sync.length, seq := none, fsm := .decode }

/-- An inbound frame (log entry 11): FEED appends its bytes (R61); where ENG is ready for it, ENG takes it and performs
`DECODE` and `DISPATCH` on it; otherwise the bytes stay in `inq`, for ENG to take in later steps as noise, fields or
echoes (R45, R86). -/
def frameArrives (c : Command) (s : State) : Host.Outcome State Fault Refusal :=
  match append (frameBytes s.cfg c) s with
  | .raised code i s1 => .next (takeError code i s1)
  | .ok _ s1 => if readyForFrame s then dispatchCommand c (decodeAction c (frameTaken c s1)) else .next s1

/-- R102: a disk read request (`F[0] = 0`). -/
def execInDskioRead (bc de hl : Word) (f a : Byte) (s : State) : Host.Outcome State Fault Refusal :=
  frameArrives ⟨bc, de, hl, f, a, s.cfg.opDskio⟩ s

/-- R102: a disk write request (`F[0] = 1`), ignored. -/
def execInDskioWrite (bc de hl : Word) (f a : Byte) (s : State) : Host.Outcome State Fault Refusal :=
  frameArrives ⟨bc, de, hl, f, a, s.cfg.opDskio⟩ s

/-- R104: the command-request poll. -/
def execInCmdrequest (bc de hl : Word) (f a : Byte) (s : State) : Host.Outcome State Fault Refusal :=
  frameArrives ⟨bc, de, hl, f, a, s.cfg.opCmdrequest⟩ s

/-- R104: any other known opcode. -/
def execInKnownOther (bc de hl : Word) (f a cmd : Byte) (s : State) : Host.Outcome State Fault Refusal :=
  frameArrives ⟨bc, de, hl, f, a, cmd⟩ s

/-- R105: an unknown opcode. -/
def execInUnknown (bc de hl : Word) (f a cmd : Byte) (s : State) : Host.Outcome State Fault Refusal :=
  frameArrives ⟨bc, de, hl, f, a, cmd⟩ s

/-- R48, by `OQ.FRAME_FAST` (R59). -/
def execOutFasttransfer (endAddr : Word) (p0 : List Byte) (ps : List (List Byte)) (s : State) :
    Host.Outcome State Fault Refusal :=
  engineOnly s fun s => (frameFast endAddr (p0 :: ps) s).finish fun _ s => s

/-- R49, by `OQ.FRAME_SLOW` (R59). -/
def execOutSlowtransfer (dest : Word) (p : List Byte) (s : State) : Host.Outcome State Fault Refusal :=
  engineOnly s fun s => (frameSlow dest p s).finish fun _ s => s

/-- R50, by `OQ.FRAME_EXIT` (R59). -/
def execOutExit (s : State) : Host.Outcome State Fault Refusal :=
  engineOnly s fun s => (frameExit s).finish fun _ s => s

/-- R51, built as in R104: `OQ.HEADER; OQ.RAW bs`. -/
def execOutFixedReply (bs : List Byte) (s : State) : Host.Outcome State Fault Refusal :=
  engineOnly s fun s => (frameReply bs s).finish fun _ s => s

end Sys2Proof.Machine
end

