-- ==== Sys2Proof/Machine/InboundQueue.lean ====
section
/-! DEFINITION. The meanings of the IQ and CLK operations (40_inbound_queue.md). FEED's append and CLK's tick happen in
every Dispatcher state; the others are ENG's. -/

namespace Sys2Proof.Machine

/-- R61. -/
def execIqAppend (bs : List Byte) (s : State) : Host.Outcome State Fault Refusal := (append bs s).finish fun _ s => s

/-- R64. -/
def execIqNextbyte (s : State) : Host.Outcome State Fault Refusal :=
  engineOnly s fun s => (nextByte s).finish fun b s => .next (withRet (.byte b) s)

/-- R65: one evaluation; a re-issued `IQ.WAITSEQ` with the pattern in progress resumes it (log entry 8). -/
def execIqWaitseq (p0 : Byte) (ps : List Byte) (s : State) : Host.Outcome State Fault Refusal :=
  engineOnly s fun s => (waitSequence (p0 :: ps) s).finish fun n s => .next (withRet (.count n) s)

/-- R66. -/
def execIqWaitavail (n : Nat) (s : State) : Host.Outcome State Fault Refusal :=
  engineOnly s fun s => (waitAvailable n s).finish fun _ s => .next (withRet .completed s)

/-- R67. -/
def execIqReadbyte (s : State) : Host.Outcome State Fault Refusal :=
  engineOnly s fun s => (readByte s).finish fun b s => withRet (.byte b) s

/-- R68. -/
def execIqReadword (s : State) : Host.Outcome State Fault Refusal :=
  engineOnly s fun s => (readWord s).finish fun w s => withRet (.word w) s

/-- R69. -/
def execIqClear (s : State) : Host.Outcome State Fault Refusal := engineOnly s fun s => .next (clear s)

/-- R63. -/
def execIqDlreset (s : State) : Host.Outcome State Fault Refusal := engineOnly s fun s => .next (deadlineReset s)

/-- R62: "ticks continue in every state, including `HALTED`". -/
def execClkTick (s : State) : Host.Outcome State Fault Refusal := .next (tick s)

end Sys2Proof.Machine
end

