-- ==== Sys2Proof/Machine/OutboundQueue.lean ====
section
/-! DEFINITION. The meanings of the OQ operations (41_outbound_queue.md). -/

namespace Sys2Proof.Machine

/-- R71. -/
def execOqHeader (s : State) : Host.Outcome State Fault Refusal :=
  engineOnly s fun s => (addHeader s).finish fun _ s => s

/-- R72. -/
def execOqByte (v : Byte) (s : State) : Host.Outcome State Fault Refusal :=
  engineOnly s fun s => (addByte v s).finish fun _ s => s

/-- R73. -/
def execOqWord (v : Word) (s : State) : Host.Outcome State Fault Refusal :=
  engineOnly s fun s => (addWord v s).finish fun _ s => s

/-- R74. -/
def execOqRaw (bs : List Byte) (s : State) : Host.Outcome State Fault Refusal :=
  engineOnly s fun s => (outPush bs s).finish fun _ s => s

/-- R75. -/
def execOqBlock (p : List Byte) (s : State) : Host.Outcome State Fault Refusal :=
  engineOnly s fun s => (addBlock p s).finish fun _ s => s

/-- R76: the bytes are returned, not written to the transport (that is the flush, R77). -/
def execOqTakeall (s : State) : Host.Outcome State Fault Refusal :=
  engineOnly s fun s => .next (withRet (.bytes (takeAll s).1) (takeAll s).2)

end Sys2Proof.Machine
end

