-- ==== Sys2Proof/Machine/Dispatch.lean ====
section
/-! DEFINITION. One arm per instruction, each one call of its meaning. -/

namespace Sys2Proof.Machine

/-- The meaning of every instruction. -/
def exec (i : Instr) (s : State) : Host.Outcome State Fault Refusal :=
  match i with
  | .iqAppend bs => Sys2Proof.Machine.execIqAppend bs s
  | .iqNextbyte => Sys2Proof.Machine.execIqNextbyte s
  | .iqWaitseq p0 ps => Sys2Proof.Machine.execIqWaitseq p0 ps s
  | .iqWaitavail n => Sys2Proof.Machine.execIqWaitavail n s
  | .iqReadbyte => Sys2Proof.Machine.execIqReadbyte s
  | .iqReadword => Sys2Proof.Machine.execIqReadword s
  | .iqClear => Sys2Proof.Machine.execIqClear s
  | .iqDlreset => Sys2Proof.Machine.execIqDlreset s
  | .clkTick => Sys2Proof.Machine.execClkTick s
  | .oqHeader => Sys2Proof.Machine.execOqHeader s
  | .oqByte v => Sys2Proof.Machine.execOqByte v s
  | .oqWord v => Sys2Proof.Machine.execOqWord v s
  | .oqRaw bs => Sys2Proof.Machine.execOqRaw bs s
  | .oqBlock p => Sys2Proof.Machine.execOqBlock p s
  | .oqTakeall => Sys2Proof.Machine.execOqTakeall s
  | .dbMarker p => Sys2Proof.Machine.execDbMarker p s
  | .dbConstruct p => Sys2Proof.Machine.execDbConstruct p s
  | .cmdDecode bc de hl f a cmd => Sys2Proof.Machine.execCmdDecode bc de hl f a cmd s
  | .cmdHigh x => Sys2Proof.Machine.execCmdHigh x s
  | .cmdLow x => Sys2Proof.Machine.execCmdLow x s
  | .cmdClassify cmd => Sys2Proof.Machine.execCmdClassify cmd s
  | .roConstruct base data => Sys2Proof.Machine.execRoConstruct base data s
  | .roRound => Sys2Proof.Machine.execRoRound s
  | .roEcho => Sys2Proof.Machine.execRoEcho s
  | .roEndround => Sys2Proof.Machine.execRoEndround s
  | .roExit => Sys2Proof.Machine.execRoExit s
  | .dspWaitSync => Sys2Proof.Machine.execDspWaitSync s
  | .dspReadFixed9 => Sys2Proof.Machine.execDspReadFixed9 s
  | .dspDecode => Sys2Proof.Machine.execDspDecode s
  | .dspDispatch => Sys2Proof.Machine.execDspDispatch s
  | .dspRespond => Sys2Proof.Machine.execDspRespond s
  | .dspFlush => Sys2Proof.Machine.execDspFlush s
  | .inDskioRead bc de hl f a => Sys2Proof.Machine.execInDskioRead bc de hl f a s
  | .inDskioWrite bc de hl f a => Sys2Proof.Machine.execInDskioWrite bc de hl f a s
  | .inCmdrequest bc de hl f a => Sys2Proof.Machine.execInCmdrequest bc de hl f a s
  | .inKnownOther bc de hl f a cmd => Sys2Proof.Machine.execInKnownOther bc de hl f a cmd s
  | .inUnknown bc de hl f a cmd => Sys2Proof.Machine.execInUnknown bc de hl f a cmd s
  | .outFasttransfer endAddr p0 ps => Sys2Proof.Machine.execOutFasttransfer endAddr p0 ps s
  | .outSlowtransfer dest p => Sys2Proof.Machine.execOutSlowtransfer dest p s
  | .outExit => Sys2Proof.Machine.execOutExit s
  | .outFixedReply bs => Sys2Proof.Machine.execOutFixedReply bs s

end Sys2Proof.Machine
end

