-- ==== Sys2Proof/Machine/Schedule.lean ====
section
/-! DEFINITION. What a step takes from the agenda: the offered events (60_exceptions.md R114) and the mover's instruction. -/

namespace Sys2Proof.Machine

/-- What is offered at this step; ENG moves when the agenda is empty (log entry 2). -/
def currentOffer (s : State) : Offer :=
  match s.agenda with
  | [] => {}
  | o :: _ => o

/-- The state with this step's entry taken from the agenda. -/
def dropOffer (s : State) : State := { s with agenda := s.agenda.drop 1 }

/-- The instruction a mover performs: ENG's next action or none in `HALTED` (44_dispatcher.md R95), FEED's append (R61),
CLK's tick (R62), or the operation whose bytes are given. -/
def moveInstr (s : State) (m : Move) : Except DecodeError (Option Instr) :=
  match m with
  | .eng => .ok (engineInstr s)
  | .feed bs => .ok (some (.iqAppend bs))
  | .clk => .ok (some .clkTick)
  | .operation fmt bytes =>
    match decode s.cfg fmt bytes with
    | .ok (i, _) => .ok (some i)
    | .error e => .error e

end Sys2Proof.Machine
end

