-- ==== Sys2Proof/Machine/Step.lean ====
section
/-! DEFINITION. One step: the offered event of the highest priority (60_exceptions.md R114), or one agent's instruction. -/

namespace Sys2Proof.Machine

/-- One step (00_scope.md R4): `reset` over everything, then `link_lost`, then the mover's instruction. ENG's move in
`HALTED` leaves the state as it is. -/
def step (s : State) : Host.Outcome State Fault Refusal :=
  if (currentOffer s).reset then .next (resetEvent (dropOffer s))
  else if (currentOffer s).linkLost then .next (linkLost (dropOffer s))
  else
    match moveInstr (dropOffer s) (currentOffer s).move with
    | .ok (some i) => exec i (dropOffer s)
    | .ok none => .next (dropOffer s)
    | .error e => .refused (.undecodable e)

/-- The state whose very next step runs the instruction of a table word: that operation stands first in the agenda
(log entry 10). -/
def State.withFetchWord (s : State) (nbits w : Nat) : State :=
  let t := tableBytes s.cfg nbits w
  { s with agenda := { move := .operation t.1 t.2 } :: s.agenda }

end Sys2Proof.Machine
end

