-- ==== Sys2Proof/Machine/Status.lean ====
section
/-! DEFINITION. The numeric encodings a read-only status port shows (10_state.md R21, R22, R25, 60_exceptions.md R108) and
the opcode names (30_encoding.md R56). No rule of the block reads them. -/

namespace Sys2Proof.Machine

/-- The encoding of `fsm` (R21); 6 is unused. -/
def fsmCode : Fsm → Nat
  | .waitSync => 0
  | .readFixed9 => 1
  | .decode => 2
  | .dispatch => 3
  | .respond => 4
  | .flush => 5
  | .halted => 7

/-- The encoding of `ro_phase` (R22). -/
def roPhaseCode : RoPhase → Nat
  | .none => 0
  | .send => 1
  | .echo => 2

/-- The numbers of the error codes (R108). -/
def errNumber : ErrCode → Nat
  | .none => 0
  | .protocolTimeout => 1
  | .protocolDesync => 2
  | .markerExhausted => 3
  | .unimplementedOpcode => 4
  | .transportLost => 5
  | .diskStoreFault => 6
  | .blockLength => 7
  | .fieldOverflow => 8
  | .queueOverflow => 9
  | .readUnderflow => 10

/-- What the status port shows: `fsm` and `fault` (R25). -/
def statusPort (s : State) : Nat × Nat := (fsmCode s.fsm, errNumber s.fault)

/-- The opcode names from 0x80 on (R56, from general knowledge except 0x93). -/
def opcodeNames : List String :=
  ["DSKIO", "DSKCHG", "GETDPB", "CHOICE", "DSKFMT", "DRIVES", "INIENV", "GETDATE", "DEVICEOPEN"]
  ++ ["DEVICECLOSE", "DEVICERNDIO", "DEVICEWRITE", "DEVICEREAD", "DEVICEEOF", "AUXIN", "AUXOUT", "MESSAGE"]
  ++ ["CHANGEIMAGE", "GETDOSVERSION", "CMDREQUEST", "BLOCKREAD", "BLOCKWRITE", "CPUINFO", "COMMAND", "STDOUT"]

/-- The name of a CMD value of the default table, if it has one (R56). -/
def opcodeName (cmd : Byte) : Option String :=
  if 0x80 ≤ cmd.toNat then opcodeNames[cmd.toNat - 0x80]? else none

end Sys2Proof.Machine
end

