-- ==== Sys2Proof/Safety.lean ====
section
/-! DEFINITION. What claims speak of: a quiescent state, a run driven only through the ports, and the engine's invariant. -/

namespace Sys2Proof.Machine

/-- A run is quiescent here (60_exceptions.md R122). -/
def State.quiescent (s : State) : Prop :=
  s.fsm = .waitSync ∧ s.inq = [] ∧ s.outq = [] ∧ s.roPhase = .none ∧ s.fault = .none

/-- The diagnostic counters are in the range in which the hardware's `CNT_WIDTH` bits hold them (10_state.md R17, R22). -/
def State.countersFit (s : State) : Prop := s.syncDiscard < 2 ^ s.cfg.cntWidth ∧ s.roRetx < 2 ^ s.cfg.cntWidth

/-- An `OutPush` of `n` more bytes does not overflow (41_outbound_queue.md R70). -/
def State.outRoom (s : State) (n : Nat) : Prop := ∀ d, s.cfg.outDepth = some d → s.outq.length + n ≤ d

/-- An append of `n` more bytes does not overflow (40_inbound_queue.md R61). -/
def State.inRoom (s : State) (n : Nat) : Prop := ∀ d, s.cfg.inDepth = some d → s.inq.length + n ≤ d

/-- `t` is `s` after an action that was to push `frame` met a bounded `OUT_DEPTH`: the parts of `frame` before the first
one that does not fit (of `req` bytes) are pushed, and the fatal `QueueOverflow` is taken (41_outbound_queue.md R70,
60_exceptions.md R112; that the earlier parts stay is log entry 16). -/
def State.outOverflowed (frame : List Byte) (s t : State) : Prop :=
  ∃ sent req, sent <+: frame ∧ sent.length + req ≤ frame.length ∧ ¬ s.outRoom (sent.length + req) ∧
    t = { s with
      outq := s.outq ++ sent,
      diaglog := s.diaglog ++ [.error .queueOverflow (.queue .outbound (s.outq.length + sent.length) req)],
      fault := .queueOverflow, fsm := .halted }

/-- The match index and discard count of the wait for `pat`: those in progress, or 0 and 0 where it is only now started
(40_inbound_queue.md R65; log entry 8). -/
abbrev State.seqAt (s : State) (pat : List Byte) (i d : Nat) : Prop :=
  (s.seq = some pat → i = s.syncI ∧ d = s.syncDiscard) ∧ (s.seq ≠ some pat → i = 0 ∧ d = 0)

/-- R65's three cases of one byte `b`: advance, restart at 1, restart at 0, with the discard count each gives. -/
abbrev matchedTo (pat : List Byte) (b : Byte) (i d i' d' : Nat) : Prop :=
  (pat[i]? = some b ∧ i' = i + 1 ∧ d' = d) ∨
  (pat[i]? ≠ some b ∧ pat.head? = some b ∧ i' = 1 ∧ d' = d + i) ∨
  (pat[i]? ≠ some b ∧ pat.head? ≠ some b ∧ i' = 0 ∧ d' = d + i + 1)

/-- From `s` to `t` ENG passed one of the points of 44_dispatcher.md R96: it entered `WAIT_SYNC` from `FLUSH` or by a
recovery, it completed the wait for `SYNC`, or it flushed a round. -/
def deadlinePoint (s t : State) : Prop :=
  (s.fsm = .flush ∧ t.fsm = .waitSync) ∨
  (∃ info, t.diaglog = s.diaglog ++ [.error .protocolTimeout info] ∧ t.fsm = .waitSync) ∨
  (s.fsm = .waitSync ∧ t.fsm = .readFixed9) ∨
  (s.fsm = .respond ∧ s.roPhase = .send ∧ t.roPhase = .echo)

/-- An agenda entry that only uses the block's ports (10_state.md R27, 60_exceptions.md R116: "no external agent can invoke
an operation except `append`, `tick`, `link_lost` and `reset`"). -/
def Offer.usesPorts (o : Offer) : Prop := ∀ fmt bytes, o.move ≠ .operation fmt bytes

/-- A DataBlock as `DB.CONSTRUCT` makes it (42_datablock_command.md R79). -/
def DataBlock.legal (cfg : Config) (b : DataBlock) : Prop :=
  1 ≤ b.payload.length ∧ b.payload.length ≤ cfg.maxPayload ∧ Sys2Proof.marker b.payload = some b.marker

/-- The blocks of a transfer of `data`, in wire order (43_read_operation.md R83): `ceil(N / CHUNK_SIZE)` blocks, each legal;
the last chunk comes first and may be short, every other has `CHUNK_SIZE` bytes; read back in reverse they are the data. -/
def transferBlocks (cfg : Config) (data : List Byte) (blks : List DataBlock) : Prop :=
  blks.length = (data.length + cfg.chunkSize - 1) / cfg.chunkSize ∧
  (∀ b ∈ blks, b.legal cfg ∧ b.payload.length ≤ cfg.chunkSize) ∧
  (∀ b ∈ blks.drop 1, b.payload.length = cfg.chunkSize) ∧
  (blks.reverse.map DataBlock.payload).flatten = data

/-- `length` bytes of the image from `offset`, in offset order (20_memory.md R29). -/
def imageSlice (image : List Host.Cell) (offset length : Nat) (data : List Byte) : Prop :=
  data.length = length ∧ ∀ k, k < length → data[k]? = some (imageByte image (offset + k))

/-- The bracketed bytes of DataBlocks, each with the marker it holds (30_encoding.md R48, R52). -/
def bracketed (blks : List DataBlock) : List Byte := (blks.map fun b => b.marker :: b.payload ++ [b.marker]).flatten

/-- `sum(|b.payload|)` (43_read_operation.md R84). -/
def pendingSize (blks : List DataBlock) : Nat := (blks.map fun b => b.payload.length).sum

/-- The FASTTRANSFER frame of a round (30_encoding.md R48), from the ReadOperation's base and blocks. -/
def roundFrame (cfg : Config) (base : Word) (blks : List DataBlock) : List Byte :=
  cfg.header ++ [cfg.codeFast] ++ bytes16 (base + BitVec.ofNat 16 (pendingSize blks)) ++ [BitVec.ofNat 8 blks.length]
    ++ bracketed blks

/-- The agenda entry by which ENG moves. -/
abbrev engTurn : Offer := { reset := false, linkLost := false, move := .eng }

/-- The agenda entry by which FEED appends one batch. -/
abbrev feedTurn (bs : List Byte) : Offer := { reset := false, linkLost := false, move := .feed bs }

/-- The agenda entry by which CLK ticks. -/
abbrev clkTurn : Offer := { reset := false, linkLost := false, move := .clk }

/-- The agenda entry by which one operation, given by its bytes, is performed. -/
abbrev operationTurn (fmt : Format) (bytes : List Byte) : Offer :=
  { reset := false, linkLost := false, move := .operation fmt bytes }

/-- `n` steps, stopping at the first fault or refusal. -/
def runSteps : Nat → State → Host.Outcome State Fault Refusal
  | 0, s => .next s
  | n + 1, s =>
    match step s with
    | .next t => runSteps n t
    | .fault r => .fault r
    | .refused r => .refused r

/-- ENG moves at this step, with neither `reset` nor `link_lost` raised. -/
def State.engineMoves (s : State) : Prop := currentOffer s = engTurn

/-- What holds at every state of a run driven only through the ports, from reset on. -/
structure EngineInv (s : State) : Prop where
  /-- The parameters fit together. -/
  cfgOk : s.cfg.wf = true
  /-- The image is in canonical form. -/
  imageOk : Memory.wf s.image = true
  /-- The schedule only uses the ports. -/
  portsOnly : ∀ o ∈ s.agenda, o.usesPorts
  /-- A latched fault and `HALTED` go together (10_state.md R23). -/
  faultHalts : s.fault = .none ↔ s.fsm ≠ .halted
  /-- The engine's own steps never raise these (R67, R80, R83, R99), and `ProtocolTimeout` never latches (R23). -/
  faultKind : s.fault ≠ .protocolTimeout ∧ s.fault ≠ .protocolDesync ∧ s.fault ≠ .markerExhausted ∧
    s.fault ≠ .blockLength ∧ s.fault ≠ .readUnderflow
  /-- The command registers are read only after a decode (R18). -/
  decoded : s.fsm = .decode ∨ s.fsm = .dispatch → s.cmdValid = true
  /-- A ReadOperation is in flight only in `RESPOND`, or was when the engine halted (R94). -/
  inFlight : s.roPhase ≠ .none → s.fsm = .respond ∨ s.fsm = .halted
  /-- Nothing waits to be sent where the engine waits for bytes (92_eei_decisions.md D7). -/
  outEmpty : (s.fsm = .waitSync ∨ s.fsm = .readFixed9 ∨ s.fsm = .decode ∨ s.fsm = .dispatch ∨
    (s.fsm = .respond ∧ s.roPhase ≠ .none)) → s.outq = []
  /-- In `WAIT_SYNC` the wait for `SYNC` is in progress and not yet complete (R97, R98). -/
  matching : s.fsm = .waitSync → s.seq = some s.cfg.sync ∧ s.syncI < s.cfg.sync.length
  /-- Every DataBlock is a legal one with its own marker (R22, R79). -/
  blocksOk : ∀ b, b ∈ s.roPending ∨ b ∈ s.roRetained → b.legal s.cfg
  /-- While echoes are awaited, the retained blocks are among those already echoed, in order (R86). -/
  echoing : s.roPhase = .echo → s.roIdx ≤ s.roPending.length ∧ s.roRetained.Sublist (s.roPending.take s.roIdx)
  /-- A round carries 1 to 255 blocks (R92). -/
  roundSize : s.roPhase = .echo → 1 ≤ s.roPending.length ∧ s.roPending.length ≤ 255

end Sys2Proof.Machine
end

