-- ==== Sys2Proof/Certificates/Slice0/Obligations.lean ====
section
/-! DEFINITION. The statements for the provers. Each docstring names the rules it formalises; where a clause rests on a
choice of the model, it names the log entry. -/

open Sys2Proof Sys2Proof.Machine

/-! ### Encodings -/

/-- R44, R45, R48 to R52, R58. Every instruction of every row, with every operand value its encoding admits, is read back
from its own bytes, whatever bytes follow (a fixed reply takes all the bytes there are, R53). The operand bytes of the
micro-operations and the bound on a fixed reply's first byte are the model's choice (log entries 9 and 26). -/
def Obligations.DecodeEncodeAgree : Prop :=
  ∀ (cfg : Config) (i : Instr) (rest : List Byte),
    cfg.wf = true → i.wf cfg = true → ((∃ bs, i = .outFixedReply bs) → rest = []) →
    decode cfg i.format (encode cfg i ++ rest) = .ok (i, rest)

/-- Words written out from R44, R46 to R51, R55, R56, R58 and R102, and codes R58 refuses. That CMD 0x80 is the disk row
holds at the default `OP_DSKIO`, which the spec marks as general knowledge (log entry 23). -/
def Obligations.WordsDecodeAsTheSpecHasThem : Prop :=
  decode Config.default .inbound
      [0xAF#8, 0x05#8, 0xC2#8, 0x10#8, 0x34#8, 0x12#8, 0x78#8, 0x56#8, 0x00#8, 0x00#8, 0x93#8]
    = .ok (.inCmdrequest 0x10C2#16 0x1234#16 0x5678#16 0#8 0#8, []) ∧
  decode Config.default .inbound
      [0xAF#8, 0x05#8, 0xF9#8, 0x01#8, 0x03#8, 0x00#8, 0x00#8, 0xC0#8, 0x01#8, 0x00#8, 0x80#8]
    = .ok (.inDskioWrite 0x01F9#16 0x0003#16 0xC000#16 1#8 0#8, []) ∧
  decode Config.default .outbound
      [0xFF#8, 0xAF#8, 0x05#8, 0x01#8, 0x02#8, 0x80#8, 0x01#8, 0x00#8, 0x41#8, 0x42#8, 0x00#8]
    = .ok (.outFasttransfer 0x8002#16 [0x41#8, 0x42#8] [], []) ∧
  decode Config.default .outbound [0xFF#8, 0xAF#8, 0x05#8, 0x03#8] = .ok (.outExit, []) ∧
  decode Config.default .uop [0x44#8] = .ok (.dspRespond, []) ∧
  decode Config.default .uop [0x0A#8] = .error .unknownCode ∧
  decode Config.default .uop [0x00#8] = .error .unknownCode ∧
  decode Config.default .uop [0x46#8] = .error .unknownCode

/-! ### The step -/

/-- Where an operation's bytes are offered and decode, the step runs that instruction on the state with the offer taken
(log entries 2 and 10); bytes that are no instruction are refused (R58). FEED's and CLK's moves are their operations
(R61, R62). -/
def Obligations.StepRunsTheDecodedInstruction : Prop :=
  (∀ (s : State) (fmt : Format) (bytes rest : List Byte) (i : Instr) (ag : List Offer),
    s.agenda = operationTurn fmt bytes :: ag →
    decode s.cfg fmt bytes = .ok (i, rest) → step s = exec i { s with agenda := ag }) ∧
  (∀ (s : State) (fmt : Format) (bytes : List Byte) (e : DecodeError) (ag : List Offer),
    s.agenda = operationTurn fmt bytes :: ag →
    decode s.cfg fmt bytes = .error e → step s = .refused (.undecodable e)) ∧
  (∀ (s : State) (bs : List Byte) (ag : List Offer),
    s.agenda = feedTurn bs :: ag →
    step s = exec (.iqAppend bs) { s with agenda := ag }) ∧
  (∀ (s : State) (ag : List Offer),
    s.agenda = clkTurn :: ag →
    step s = exec .clkTick { s with agenda := ag })

/-- R95: ENG's action is chosen from `fsm` (and, in `RESPOND`, from `ro_phase`, by `DSP.RESPOND`); in `HALTED` ENG has no
step, so its move only takes the offer (log entry 4). An empty agenda lets ENG move (log entry 2). -/
def Obligations.EngineMovesByFsm : Prop :=
  ∀ (s s0 : State), s.engineMoves → s0 = { s with agenda := s.agenda.drop 1 } →
    (s.fsm = .waitSync → step s = exec .dspWaitSync s0) ∧
    (s.fsm = .readFixed9 → step s = exec .dspReadFixed9 s0) ∧
    (s.fsm = .decode → step s = exec .dspDecode s0) ∧
    (s.fsm = .dispatch → step s = exec .dspDispatch s0) ∧
    (s.fsm = .respond → step s = exec .dspRespond s0) ∧
    (s.fsm = .flush → step s = exec .dspFlush s0) ∧
    (s.fsm = .halted → step s = .next s0)

/-- R124, R114 item 1: `reset` is taken over every other event, in every state, and gives every element its reset value;
parameters are not changed (R125). The value 0 of the command registers and of `ro_base`, and what happens to the model's
own fields, are the model's choice (log entries 5, 6, 25). -/
def Obligations.ResetTakenOverEverything : Prop :=
  ∀ (s : State) (o : Offer) (ag : List Offer), s.agenda = o :: ag → o.reset = true →
    ∃ t, step s = .next t ∧ t.inq = [] ∧ t.outq = [] ∧ t.dlElapsed = 0 ∧ t.syncI = 0 ∧ t.syncDiscard = 0 ∧
      t.seq = some s.cfg.sync ∧ t.cmdValid = false ∧ t.fsm = .waitSync ∧ t.roPhase = .none ∧ t.roPending = [] ∧
      t.roRetained = [] ∧ t.roIdx = 0 ∧ t.roRetx = 0 ∧ t.fault = .none ∧ t.txlog = [] ∧ t.diaglog = [] ∧
      t.cfg = s.cfg ∧ t.image = s.image ∧ t.agenda = ag

/-- R113, R114 item 2: `link_lost` is taken over every ENG action, whatever `fsm` is, and is fatal; in `HALTED` it changes
nothing. That the move offered beside it is dropped with its agenda entry is the model's choice (log entry 21). -/
def Obligations.LinkLostIsFatal : Prop :=
  ∀ (s : State) (o : Offer) (ag : List Offer), s.agenda = o :: ag → o.reset = false → o.linkLost = true →
    (s.fsm ≠ .halted → step s = .next { s with
      agenda := ag, diaglog := s.diaglog ++ [.error .transportLost .none], fault := .transportLost, fsm := .halted }) ∧
    (s.fsm = .halted → step s = .next { s with agenda := ag })

/-! ### InboundQueue and time -/

/-- R61. In every `fsm` state the whole batch is placed at the tail; with a bounded `IN_DEPTH` that it would exceed, the
fatal `QueueOverflow` is taken and `inq` keeps its value (in `HALTED` that is the model's reading, log entry 17, and is
stated by `InboundFrameIsDispatched`). -/
def Obligations.AppendPlacesTheWholeBatch : Prop :=
  ∀ (bs : List Byte) (s : State),
    (∀ cfg, (encode cfg (.iqAppend bs)).head? = some 0x01#8) ∧
    (s.inRoom bs.length → exec (.iqAppend bs) s = .next { s with inq := s.inq ++ bs }) ∧
    (s.fsm ≠ .halted → ¬ s.inRoom bs.length → exec (.iqAppend bs) s = .next { s with
      diaglog := s.diaglog ++ [.error .queueOverflow (.queue .inbound s.inq.length bs.length)],
      fault := .queueOverflow, fsm := .halted })

/-- R62, R63. A tick adds one to `dl_elapsed` in every state and changes nothing else; the deadline reset sets it to 0 and
touches nothing else. -/
def Obligations.TickAndDeadlineReset : Prop :=
  ∀ (cfg : Config) (s : State),
    encode cfg .clkTick = [0x09#8] ∧ encode cfg .iqDlreset = [0x08#8] ∧
    exec .clkTick s = .next { s with dlElapsed := s.dlElapsed + 1 } ∧
    (s.fsm ≠ .halted → exec .iqDlreset s = .next { s with dlElapsed := 0 })

/-- R60, R64. The four cases of the wait for one byte; where both hold, either outcome, whatever the draw is (log entry 3).
Where the byte returned stands, and that the operation run on its own takes the recovery of R110 in every `fsm` state but
`HALTED`, is the model's choice (log entries 7 and 28). -/
def Obligations.NextByteWaitsForAByte : Prop :=
  ∀ (s : State), s.fsm ≠ .halted →
    (∀ b rest, s.inq = b :: rest → s.dlElapsed * s.cfg.tickMs < s.cfg.timeoutMs →
      exec .iqNextbyte s = .next { s with inq := rest, ret := .byte b }) ∧
    (∀ b rest, s.inq = b :: rest → s.cfg.timeoutMs ≤ s.dlElapsed * s.cfg.tickMs →
      exec .iqNextbyte s = .next { s with inq := rest, ret := .byte b, draws := s.draws + 1 } ∨
      exec .iqNextbyte s = .next (recovery .nextbyte { s with draws := s.draws + 1 })) ∧
    (s.inq = [] → s.cfg.timeoutMs ≤ s.dlElapsed * s.cfg.tickMs → exec .iqNextbyte s = .next (recovery .nextbyte s)) ∧
    (s.inq = [] → s.dlElapsed * s.cfg.tickMs < s.cfg.timeoutMs → exec .iqNextbyte s = .next s)

/-- R60, R65. One evaluation of the matcher on the byte `b`, from the index and discard count in progress, or from 0 and 0
where this wait is only now started: R65's three cases, complete when the index reaches `m`; with the deadline expired as
well, that or the timeout, whatever the draw is (log entry 3). With no byte it holds, or times out annotated with the discard
count. That a re-issued wait resumes, where the count returned stands, and that the operation run on its own takes the
recovery of R110, is the model's choice (log entries 8, 7 and 28). -/
def Obligations.WaitSequenceMatchesOneByte : Prop :=
  ∀ (p0 : Byte) (ps : List Byte) (s : State) (i d : Nat), s.fsm ≠ .halted → s.seqAt (p0 :: ps) i d →
    (∀ (b : Byte) (rest : List Byte) (i' d' : Nat) (t : State), s.inq = b :: rest → matchedTo (p0 :: ps) b i d i' d' →
      (i' = ps.length + 1 → t = { s with inq := rest, syncI := i', syncDiscard := d', seq := none, ret := .count d' }) →
      (i' ≠ ps.length + 1 → t = { s with inq := rest, syncI := i', syncDiscard := d', seq := some (p0 :: ps) }) →
      (s.dlElapsed * s.cfg.tickMs < s.cfg.timeoutMs → exec (.iqWaitseq p0 ps) s = .next t) ∧
      (s.cfg.timeoutMs ≤ s.dlElapsed * s.cfg.tickMs →
        exec (.iqWaitseq p0 ps) s = .next { t with draws := s.draws + 1 } ∨
        exec (.iqWaitseq p0 ps) s = .next (recovery (.waitseq d) { s with draws := s.draws + 1 }))) ∧
    (s.inq = [] → s.dlElapsed * s.cfg.tickMs < s.cfg.timeoutMs →
      exec (.iqWaitseq p0 ps) s = .next { s with syncI := i, syncDiscard := d, seq := some (p0 :: ps) }) ∧
    (s.inq = [] → s.cfg.timeoutMs ≤ s.dlElapsed * s.cfg.tickMs →
      exec (.iqWaitseq p0 ps) s = .next (recovery (.waitseq d) s))

/-- R60, R66. Complete when the queue holds `n` bytes (nothing is popped), hold or time out with the bytes present and needed
otherwise; where both hold, either outcome, whatever the draw is (log entry 3). That completion is recorded in `ret`, and
that the operation run on its own takes the recovery of R110, is the model's choice (log entries 7 and 28). -/
def Obligations.WaitAvailableTestsTheLength : Prop :=
  ∀ (n : Nat) (s : State), s.fsm ≠ .halted →
    (n ≤ s.inq.length → s.dlElapsed * s.cfg.tickMs < s.cfg.timeoutMs →
      exec (.iqWaitavail n) s = .next { s with ret := .completed }) ∧
    (s.inq.length < n → s.dlElapsed * s.cfg.tickMs < s.cfg.timeoutMs → exec (.iqWaitavail n) s = .next s) ∧
    (s.inq.length < n → s.cfg.timeoutMs ≤ s.dlElapsed * s.cfg.tickMs →
      exec (.iqWaitavail n) s = .next (recovery (.waitavail s.inq.length n) s)) ∧
    (n ≤ s.inq.length → s.cfg.timeoutMs ≤ s.dlElapsed * s.cfg.tickMs →
      exec (.iqWaitavail n) s = .next { s with ret := .completed, draws := s.draws + 1 } ∨
      exec (.iqWaitavail n) s = .next (recovery (.waitavail s.inq.length n) { s with draws := s.draws + 1 }))

/-- R67, R68. A pop ignores the deadline; a word is popped low byte first; without enough bytes `ReadUnderflow` is fatal
and nothing is popped. Where the value returned stands is the model's choice (log entry 7). -/
def Obligations.ReadByteAndWordPop : Prop :=
  ∀ (s : State), s.fsm ≠ .halted →
    (∀ b rest, s.inq = b :: rest → exec .iqReadbyte s = .next { s with inq := rest, ret := .byte b }) ∧
    (s.inq = [] → exec .iqReadbyte s = .next { s with
      diaglog := s.diaglog ++ [.error .readUnderflow (.pop .readByte 0)], fault := .readUnderflow, fsm := .halted }) ∧
    (∀ lo hi rest w, s.inq = lo :: hi :: rest → w.toNat = lo.toNat + 256 * hi.toNat →
      exec .iqReadword s = .next { s with inq := rest, ret := .word w }) ∧
    (s.inq.length < 2 → exec .iqReadword s = .next { s with
      diaglog := s.diaglog ++ [.error .readUnderflow (.pop .readWord s.inq.length)],
      fault := .readUnderflow, fsm := .halted })

/-- R69. Every byte of `inq` is discarded and nothing else changes, the deadline included. -/
def Obligations.ClearDiscardsInbound : Prop :=
  ∀ (cfg : Config) (s : State), encode cfg .iqClear = [0x07#8] ∧
    (s.fsm ≠ .halted → exec .iqClear s = .next { s with inq := [] })

/-- R65 (c), V-SRC-3: with `SYNC = [0xAF, 0x05]`, ENG's steps in `WAIT_SYNC` complete exactly at the end of the first
`0xAF 0x05` of the stream, one byte a step, with every byte before it counted as discarded (the spec marks this as derived
from R65). -/
def Obligations.SyncFoundAtFirstOccurrence : Prop :=
  ∀ (s : State) (pre rest : List Byte) (ag : List Offer),
    s.cfg.sync0 = 0xAF#8 → s.cfg.syncRest = [0x05#8] → s.fsm = .waitSync → s.seq = some s.cfg.sync → s.syncI = 0 →
    s.syncDiscard = 0 → s.dlElapsed * s.cfg.tickMs < s.cfg.timeoutMs →
    s.inq = pre ++ [0xAF#8, 0x05#8] ++ rest → ¬ [0xAF#8, 0x05#8] <:+: pre ++ [0xAF#8] →
    s.agenda = List.replicate (pre.length + 2) engTurn ++ ag →
    runSteps (pre.length + 2) s = .next { s with
      inq := rest, syncI := 2, syncDiscard := pre.length, seq := none, dlElapsed := 0, fsm := .readFixed9, agenda := ag }

/-- R60, R62, R16: once CLK has ticked long enough after the last deadline reset the deadline has expired, so a held ENG
has a step (the spec marks this as derived). -/
def Obligations.DeadlineExpiresAfterTicks : Prop :=
  ∀ (s : State) (n : Nat) (ag : List Offer), s.agenda = List.replicate n clkTurn ++ ag →
    s.cfg.timeoutMs ≤ n * s.cfg.tickMs →
    runSteps n s = .next { s with dlElapsed := s.dlElapsed + n, agenda := ag } ∧
    expired { s with dlElapsed := s.dlElapsed + n, agenda := ag } = true

/-! ### OutboundQueue, DataBlock, Command -/

/-- R70 to R74. Each builder pushes exactly its bytes at the tail; where a bounded `OUT_DEPTH` would be exceeded the fatal
`QueueOverflow` is taken and nothing is pushed. -/
def Obligations.BuildersPushTheirBytes : Prop :=
  ∀ (i : Instr) (bs : List Byte) (s : State), s.fsm ≠ .halted →
    ((i = .oqHeader ∧ bs = s.cfg.header) ∨ (∃ v, i = .oqByte v ∧ bs = [v]) ∨
      (∃ v : Word, i = .oqWord v ∧ bs = [BitVec.ofNat 8 (v.toNat % 256), BitVec.ofNat 8 (v.toNat / 256)]) ∨
      i = .oqRaw bs) →
    (s.outRoom bs.length → exec i s = .next { s with outq := s.outq ++ bs }) ∧
    (¬ s.outRoom bs.length → exec i s = .next { s with
      diaglog := s.diaglog ++ [.error .queueOverflow (.queue .outbound s.outq.length bs.length)],
      fault := .queueOverflow, fsm := .halted }) ∧
    (∀ cfg, (encode cfg i).head? = some 0x10#8 ∨ (encode cfg i).head? = some 0x11#8 ∨
      (encode cfg i).head? = some 0x12#8 ∨ (encode cfg i).head? = some 0x13#8) ∧
    Config.default.header = [0xFF#8, 0xAF#8, 0x05#8]

/-- R75. A legal payload is pushed bracketed by its marker, the smallest value absent from it; a payload of length 0 or
above `MAX_PAYLOAD` raises the fatal `BlockLength` and nothing is pushed. -/
def Obligations.BlockIsBracketedByItsMarker : Prop :=
  ∀ (p : List Byte) (s : State), s.fsm ≠ .halted →
    (∀ m : Byte, 1 ≤ p.length → p.length ≤ s.cfg.maxPayload → m ∉ p → (∀ v : Byte, v.toNat < m.toNat → v ∈ p) →
      (s.outRoom (p.length + 2) → exec (.oqBlock p) s = .next { s with outq := s.outq ++ ([m] ++ p ++ [m]) }) ∧
      (¬ s.outRoom (p.length + 2) → exec (.oqBlock p) s = .next { s with
        diaglog := s.diaglog ++ [.error .queueOverflow (.queue .outbound s.outq.length (p.length + 2))],
        fault := .queueOverflow, fsm := .halted })) ∧
    (p.length < 1 ∨ s.cfg.maxPayload < p.length → exec (.oqBlock p) s = .next { s with
      diaglog := s.diaglog ++ [.error .blockLength (.payloadLength p.length)], fault := .blockLength, fsm := .halted }) ∧
    (∀ cfg, (encode cfg (.oqBlock p)).head? = some 0x14#8)

/-- R76: everything queued is returned and the queue is emptied, in one step. Where the bytes returned stand is the model's
choice (log entry 7). -/
def Obligations.TakeAllReturnsAndClears : Prop :=
  ∀ (s : State), s.fsm ≠ .halted → exec .oqTakeall s = .next { s with outq := [], ret := .bytes s.outq }

/-- R78: the marker is the smallest value absent from the payload, and the fatal `MarkerExhausted` is raised exactly when
all 256 values occur. Where the value returned stands is the model's choice (log entry 7). -/
def Obligations.MarkerIsSmallestAbsent : Prop :=
  ∀ (p : List Byte) (s : State), s.fsm ≠ .halted →
    (∀ m : Byte, m ∉ p → (∀ v : Byte, v.toNat < m.toNat → v ∈ p) →
      exec (.dbMarker p) s = .next { s with ret := .byte m }) ∧
    ((∀ v : Byte, v ∈ p) → exec (.dbMarker p) s = .next { s with
      diaglog := s.diaglog ++ [.error .markerExhausted (.payloadLength p.length)],
      fault := .markerExhausted, fsm := .halted })

/-- R80: a payload of 1 to 254 bytes has a marker, absent from it and at most its length (the bound is marked in the spec
as derived). -/
def Obligations.LegalPayloadHasMarker : Prop :=
  ∀ p : List Byte, 1 ≤ p.length → p.length ≤ 254 →
    ∃ m : Byte, marker p = some m ∧ m ∉ p ∧ m.toNat ≤ p.length ∧ m ≠ 0xFF#8

/-- R79: a payload of legal length gives the DataBlock of it and its marker; any other raises the fatal `BlockLength`.
Where the block returned stands is the model's choice (log entry 7). -/
def Obligations.ConstructPairsPayloadWithMarker : Prop :=
  ∀ (p : List Byte) (s : State), s.fsm ≠ .halted →
    (∀ m : Byte, 1 ≤ p.length → p.length ≤ s.cfg.maxPayload → m ∉ p → (∀ v : Byte, v.toNat < m.toNat → v ∈ p) →
      exec (.dbConstruct p) s = .next { s with ret := .block ⟨p, m⟩ }) ∧
    (p.length < 1 ∨ s.cfg.maxPayload < p.length → exec (.dbConstruct p) s = .next { s with
      diaglog := s.diaglog ++ [.error .blockLength (.payloadLength p.length)], fault := .blockLength, fsm := .halted })

/-- R81: the six fields are written as one Command and `cmd_valid` is set; nothing else changes. -/
def Obligations.DecodeWritesTheWholeCommand : Prop :=
  ∀ (bc de hl : Word) (f a cmd : Byte) (s : State), s.fsm ≠ .halted →
    exec (.cmdDecode bc de hl f a cmd) s
      = .next { s with command := ⟨bc, de, hl, f, a, cmd⟩, cmdValid := true } ∧
    (∀ cfg, (encode cfg (.cmdDecode bc de hl f a cmd)).head? = some 0x22#8)

/-- R82: `high(x) = (x >> 8) & 0xFF`, `low(x) = x & 0xFF`, and `le16(low(x), high(x)) = x`. Where the byte returned stands
is the model's choice (log entry 7). -/
def Obligations.HighAndLowSplitAWord : Prop :=
  ∀ (x : Word) (s : State), s.fsm ≠ .halted →
    ∃ h l : Byte, exec (.cmdHigh x) s = .next { s with ret := .byte h } ∧
      exec (.cmdLow x) s = .next { s with ret := .byte l } ∧
      h.toNat = x.toNat / 256 ∧ l.toNat = x.toNat % 256 ∧ le16 l h = x

/-- R55: the class of a CMD byte, in the order DSKIO, known, unknown; every value has one. Where the class returned stands
is the model's choice (log entry 7). -/
def Obligations.ClassifyByOpcodeTable : Prop :=
  ∀ (cmd : Byte) (s : State), s.fsm ≠ .halted →
    (cmd = s.cfg.opDskio → exec (.cmdClassify cmd) s = .next { s with ret := .cls .dskio }) ∧
    (cmd ≠ s.cfg.opDskio → cmd ∈ s.cfg.knownOpcodes → exec (.cmdClassify cmd) s = .next { s with ret := .cls .known }) ∧
    (cmd ≠ s.cfg.opDskio → cmd ∉ s.cfg.knownOpcodes →
      exec (.cmdClassify cmd) s = .next { s with ret := .cls .unknown })

/-! ### ReadOperation -/

/-- R83: the data is cut into `ceil(N / CHUNK_SIZE)` chunks in reverse order, each wrapped as a DataBlock, and the
registers are set for the first round; reading the chunks back in reverse gives the data. -/
def Obligations.ConstructSplitsDataInReverse : Prop :=
  ∀ (base : Word) (data : List Byte) (s : State), s.fsm ≠ .halted → s.cfg.wf = true →
    (∃ blks, transferBlocks s.cfg data blks ∧
      exec (.roConstruct base data) s = .next { s with
        roBase := base, roPending := blks, roRetained := [], roIdx := 0, roRetx := 0, roPhase := .send }) ∧
    (∀ cfg, (encode cfg (.roConstruct base data)).head? = some 0x30#8)

/-- R84, R85, R92, R93: a round writes one FASTTRANSFER frame of all pending blocks to the transport in its own step,
resets the deadline and awaits the echoes; more than 255 blocks raise the fatal `FieldOverflow` before any byte is pushed;
a frame that a bounded `OUT_DEPTH` cannot hold raises the fatal `QueueOverflow` and nothing is written. -/
def Obligations.RoundSendsOneFastFrame : Prop :=
  ∀ (s : State), s.fsm ≠ .halted → s.roPhase = .send → s.roPending ≠ [] → (∀ b ∈ s.roPending, b.legal s.cfg) →
    (s.roPending.length ≤ 255 → s.outRoom (roundFrame s.cfg s.roBase s.roPending).length →
      exec .roRound s = .next { s with
        outq := [], txlog := s.txlog ++ [s.outq ++ roundFrame s.cfg s.roBase s.roPending], dlElapsed := 0,
        roRetained := [], roIdx := 0, roPhase := .echo }) ∧
    (255 < s.roPending.length → exec .roRound s = .next { s with
      diaglog := s.diaglog ++ [.error .fieldOverflow (.blockCount s.roPending.length)],
      fault := .fieldOverflow, fsm := .halted }) ∧
    (s.roPending.length ≤ 255 → ¬ s.outRoom (roundFrame s.cfg s.roBase s.roPending).length →
      ∃ t, exec .roRound s = .next t ∧ t.fault = .queueOverflow ∧ t.fsm = .halted ∧ t.txlog = s.txlog ∧
        t.roPending = s.roPending ∧ t.roPhase = .send)

/-- R86: one echo is compared with its own block's marker, by position; a mismatch retains the block and counts one
retransmission. With no byte the wait holds, or times out and takes the recovery (R90). With a byte and an expired deadline,
either the echo is taken or the recovery is, whatever the draw is (R60, log entry 3). That `RO.ECHO` run on its own outside
`RESPOND` takes the recovery too is the model's choice (log entry 28). -/
def Obligations.EchoComparesItsOwnMarker : Prop :=
  ∀ (s : State) (blk : DataBlock), s.fsm ≠ .halted → s.roPhase = .echo → s.roPending[s.roIdx]? = some blk →
    (∀ e rest, s.inq = e :: rest → s.dlElapsed * s.cfg.tickMs < s.cfg.timeoutMs →
      (e = blk.marker → exec .roEcho s = .next { s with inq := rest, roIdx := s.roIdx + 1 }) ∧
      (e ≠ blk.marker → exec .roEcho s = .next { s with
        inq := rest, roRetained := s.roRetained ++ [blk], roRetx := s.roRetx + 1, roIdx := s.roIdx + 1 })) ∧
    (∀ e rest, s.inq = e :: rest → s.cfg.timeoutMs ≤ s.dlElapsed * s.cfg.tickMs →
      (e = blk.marker ∧
        exec .roEcho s = .next { s with inq := rest, roIdx := s.roIdx + 1, draws := s.draws + 1 }) ∨
      (e ≠ blk.marker ∧ exec .roEcho s = .next { s with
        inq := rest, roRetained := s.roRetained ++ [blk], roRetx := s.roRetx + 1, roIdx := s.roIdx + 1,
        draws := s.draws + 1 }) ∨
      exec .roEcho s = .next (recovery .nextbyte { s with draws := s.draws + 1 })) ∧
    (s.inq = [] → s.dlElapsed * s.cfg.tickMs < s.cfg.timeoutMs → exec .roEcho s = .next s) ∧
    (s.inq = [] → s.cfg.timeoutMs ≤ s.dlElapsed * s.cfg.tickMs → exec .roEcho s = .next (recovery .nextbyte s))

/-- R87, R88: the end of a round makes the retained blocks the pending ones; the EXIT frame is queued once nothing is
pending, and ends the operation; where a bounded `OUT_DEPTH` cannot hold it, the fatal `QueueOverflow` is taken and the
operation has not ended. -/
def Obligations.RoundEndsAndOperationExits : Prop :=
  ∀ (s : State), s.fsm ≠ .halted →
    (s.roPhase = .echo → s.roIdx = s.roPending.length →
      exec .roEndround s = .next { s with
        roPending := s.roRetained, roRetained := [], roIdx := 0, roPhase := .send }) ∧
    (s.roPhase = .send → s.roPending = [] → s.outRoom (s.cfg.header.length + 1) →
      exec .roExit s = .next { s with outq := s.outq ++ s.cfg.header ++ [s.cfg.codeExit], roPhase := .none }) ∧
    (s.roPhase = .send → s.roPending = [] → ¬ s.outRoom (s.cfg.header.length + 1) →
      ∃ t, exec .roExit s = .next t ∧ t.fault = .queueOverflow ∧ t.fsm = .halted ∧ t.roPhase = .send ∧
        t.txlog = s.txlog) ∧
    (∀ cfg, encode cfg .roEndround = [0x33#8] ∧ encode cfg .roExit = [0x34#8])

/-- A ReadOperation step whose requirement (R84, R86, R87, R88) does not hold stops with the model fault `roNotEnabled`;
that it stops so is the model's choice (log entry 13). -/
def Obligations.ReadOperationStepsNeedTheirPhase : Prop :=
  ∀ (s : State), s.fsm ≠ .halted →
    (s.roPhase ≠ .send ∨ s.roPending = [] → exec .roRound s = .fault .roNotEnabled) ∧
    (s.roPhase ≠ .echo ∨ s.roPending.length ≤ s.roIdx → exec .roEcho s = .fault .roNotEnabled) ∧
    (s.roPhase ≠ .echo ∨ s.roIdx < s.roPending.length → exec .roEndround s = .fault .roNotEnabled) ∧
    (s.roPhase ≠ .send ∨ s.roPending ≠ [] → exec .roExit s = .fault .roNotEnabled)

/-- R86: over a whole round of echoes, the blocks retained are exactly those whose own echo was wrong, in wire order, and
each adds one to the counter. -/
def Obligations.RoundRetainsTheMismatchedBlocks : Prop :=
  ∀ (s : State) (es rest : List Byte) (ag : List Offer),
    s.fsm = .respond → s.roPhase = .echo → s.roIdx = 0 → s.roRetained = [] → es.length = s.roPending.length →
    s.inq = es ++ rest → s.dlElapsed * s.cfg.tickMs < s.cfg.timeoutMs → s.agenda = List.replicate es.length engTurn ++ ag →
    runSteps es.length s = .next { s with
      inq := rest, roIdx := es.length, agenda := ag,
      roRetained := ((s.roPending.zip es).filter fun x => decide (x.2 ≠ x.1.marker)).map Prod.fst,
      roRetx := s.roRetx + ((s.roPending.zip es).filter fun x => decide (x.2 ≠ x.1.marker)).length }

/-- R84 to R88, R106, R107, V-SRC-5: with every echo right, an operation of 1 to 255 blocks writes exactly one
FASTTRANSFER frame and one EXIT frame, counts no retransmission, and the engine is back in `WAIT_SYNC`. -/
def Obligations.MatchingEchoesCompleteTheTransfer : Prop :=
  ∀ (s : State) (ag : List Offer),
    s.fsm = .respond → s.roPhase = .send → s.roPending ≠ [] → s.roPending.length ≤ 255 →
    (∀ b ∈ s.roPending, b.legal s.cfg) → s.outq = [] → s.inq = [] → s.cfg.outDepth = none → s.cfg.inDepth = none →
    0 < s.cfg.timeoutMs →
    s.agenda = engTurn :: feedTurn (s.roPending.map DataBlock.marker) ::
      (List.replicate (s.roPending.length + 3) engTurn ++ ag) →
    runSteps (s.roPending.length + 5) s = .next { s with
      txlog := s.txlog ++ [roundFrame s.cfg s.roBase s.roPending, s.cfg.header ++ [s.cfg.codeExit]],
      roPending := [], roRetained := [], roIdx := 0, roPhase := .none, fsm := .waitSync, dlElapsed := 0,
      syncI := 0, syncDiscard := 0, seq := some s.cfg.sync, agenda := ag }

/-! ### Dispatcher -/

/-- R98, R60, R65: in `WAIT_SYNC` each byte moves the match index and the discard count as R65 has it; the byte that
completes `SYNC` resets the deadline and goes to `READ_FIXED_9`, and any other leaves the deadline and `fsm` as they are. With
the deadline expired as well, that or the recovery, whatever the draw is (log entry 3). With no byte the wait holds, or the
recovery is taken. That the wait stands in `seq` and resumes is the model's reading (log entry 8). -/
def Obligations.WaitSyncCompletesOnSync : Prop :=
  ∀ (s : State) (i d : Nat), s.fsm = .waitSync → s.seqAt s.cfg.sync i d →
    (∀ (b : Byte) (rest : List Byte) (i' d' : Nat) (t : State), s.inq = b :: rest → matchedTo s.cfg.sync b i d i' d' →
      (i' = s.cfg.sync.length → t = { s with
        inq := rest, syncI := i', syncDiscard := d', seq := none, dlElapsed := 0, fsm := .readFixed9 }) →
      (i' ≠ s.cfg.sync.length → t = { s with inq := rest, syncI := i', syncDiscard := d', seq := some s.cfg.sync }) →
      (s.dlElapsed * s.cfg.tickMs < s.cfg.timeoutMs → exec .dspWaitSync s = .next t) ∧
      (s.cfg.timeoutMs ≤ s.dlElapsed * s.cfg.tickMs →
        exec .dspWaitSync s = .next { t with draws := s.draws + 1 } ∨
        exec .dspWaitSync s = .next (recovery (.waitseq d) { s with draws := s.draws + 1 }))) ∧
    (s.inq = [] → s.dlElapsed * s.cfg.tickMs < s.cfg.timeoutMs →
      exec .dspWaitSync s = .next { s with syncI := i, syncDiscard := d, seq := some s.cfg.sync }) ∧
    (s.inq = [] → s.cfg.timeoutMs ≤ s.dlElapsed * s.cfg.tickMs →
      exec .dspWaitSync s = .next (recovery (.waitseq d) s))

/-- R99, R44, R130: the nine bytes are popped and decoded in the fixed wire order, low byte first, whatever their values,
in the step the wait completes in; bytes beyond the ninth stay. With fewer bytes it holds, or takes the recovery; with nine
bytes and an expired deadline, either, whatever the draw is (R60, log entry 3). Run on its own in another `fsm` state it does
the same, the model's choice (log entries 14 and 28). -/
def Obligations.ReadFixedNineDecodesInWireOrder : Prop :=
  ∀ (s : State), s.fsm ≠ .halted → s.cfg.fixedLen = 9 →
    (∀ (c0 c1 e0 e1 h0 h1 f a cmd : Byte) (rest : List Byte) (bc de hl : Word),
      s.inq = [c0, c1, e0, e1, h0, h1, f, a, cmd] ++ rest →
      bc.toNat = c0.toNat + 256 * c1.toNat → de.toNat = e0.toNat + 256 * e1.toNat →
      hl.toNat = h0.toNat + 256 * h1.toNat →
      (s.dlElapsed * s.cfg.tickMs < s.cfg.timeoutMs → exec .dspReadFixed9 s = .next { s with
        inq := rest, command := ⟨bc, de, hl, f, a, cmd⟩, cmdValid := true, fsm := .decode }) ∧
      (s.cfg.timeoutMs ≤ s.dlElapsed * s.cfg.tickMs →
        exec .dspReadFixed9 s = .next { s with
          inq := rest, command := ⟨bc, de, hl, f, a, cmd⟩, cmdValid := true, fsm := .decode, draws := s.draws + 1 } ∨
        exec .dspReadFixed9 s = .next (recovery (.waitavail s.inq.length 9) { s with draws := s.draws + 1 }))) ∧
    (s.inq.length < 9 → s.dlElapsed * s.cfg.tickMs < s.cfg.timeoutMs → exec .dspReadFixed9 s = .next s) ∧
    (s.inq.length < 9 → s.cfg.timeoutMs ≤ s.dlElapsed * s.cfg.tickMs →
      exec .dspReadFixed9 s = .next (recovery (.waitavail s.inq.length 9) s))

/-- R100: one `CMD_RECEIVED` event with the fields and the class, and on to `DISPATCH`; nothing else changes.
That with `cmd_valid = 0` the values held from reset are the fields is the model's choice (log entry 5). -/
def Obligations.DecodeReportsTheCommand : Prop :=
  ∀ (s : State), s.fsm ≠ .halted →
    exec .dspDecode s = .next { s with
      diaglog := s.diaglog ++ [.cmdReceived s.command (classify s.cfg s.command.cmd)], fsm := .dispatch } ∧
    (s.command.cmd = s.cfg.opDskio → classify s.cfg s.command.cmd = .dskio) ∧
    (s.command.cmd ≠ s.cfg.opDskio → s.command.cmd ∈ s.cfg.knownOpcodes → classify s.cfg s.command.cmd = .known) ∧
    (s.command.cmd ≠ s.cfg.opDskio → s.command.cmd ∉ s.cfg.knownOpcodes → classify s.cfg s.command.cmd = .unknown) ∧
    (∀ cfg, encode cfg .dspDecode = [0x42#8])

/-- R102, R103: a write request is ignored, and a read of size 0 is logged; neither builds a frame nor reads the store. A
read past the end of the image raises the fatal `DiskStoreFault`. With `cmd_valid = 0` the fields are the values held (log entry
5). -/
def Obligations.DispatchIgnoresWriteAndZeroLength : Prop :=
  ∀ (s : State) (size start : Nat), s.fsm ≠ .halted → s.command.cmd = s.cfg.opDskio →
    s.cfg.dskioMap = { count := .b, start := .de, dest := .hl } →
    size = s.command.bc.toNat / 256 * s.cfg.sectorSize → start = s.command.de.toNat * s.cfg.sectorSize →
    (s.command.f.getLsbD 0 = true → exec .dspDispatch s = .next { s with fsm := .respond }) ∧
    (s.command.f.getLsbD 0 = false → size = 0 →
      exec .dspDispatch s = .next { s with diaglog := s.diaglog ++ [.zeroLength], fsm := .respond }) ∧
    (s.command.f.getLsbD 0 = false → size ≠ 0 → s.cfg.storeSize < start + size →
      exec .dspDispatch s = .next { s with
        diaglog := s.diaglog ++ [.error .diskStoreFault (.store start size)], fault := .diskStoreFault,
        fsm := .halted })

/-- R102, R83, R29: a disk read of at least one chunk reads the image's bytes and constructs the ReadOperation on them;
R103: a smaller one queues one SLOWTRANSFER frame, or, where a bounded `OUT_DEPTH` cannot hold it, halts with `QueueOverflow`
(R70, R112; the parts of the frame that fitted stay queued, log entry 16). With `cmd_valid = 0` the fields are the values held
(log entry 5). -/
def Obligations.DispatchStartsTheDiskRead : Prop :=
  ∀ (s : State) (size start : Nat), s.fsm ≠ .halted → s.command.cmd = s.cfg.opDskio →
    s.cfg.wf = true → s.cfg.dskioMap = { count := .b, start := .de, dest := .hl } →
    size = s.command.bc.toNat / 256 * s.cfg.sectorSize → start = s.command.de.toNat * s.cfg.sectorSize →
    s.command.f.getLsbD 0 = false → size ≠ 0 → start + size ≤ s.cfg.storeSize →
    (s.cfg.chunkSize ≤ size →
      ∃ data blks, imageSlice s.image start size data ∧ transferBlocks s.cfg data blks ∧
        exec .dspDispatch s = .next { s with
          roBase := s.command.hl, roPending := blks, roRetained := [], roIdx := 0, roRetx := 0, roPhase := .send,
          fsm := .respond }) ∧
    (size < s.cfg.chunkSize →
      ∃ data m frame, imageSlice s.image start size data ∧ m ∉ data ∧ (∀ v : Byte, v.toNat < m.toNat → v ∈ data) ∧
        frame = s.cfg.header ++ [s.cfg.codeSlow] ++ bytes16 s.command.hl ++ bytes16 (BitVec.ofNat 16 size)
          ++ ([m] ++ data ++ [m]) ∧
        (s.outRoom frame.length → exec .dspDispatch s = .next { s with outq := s.outq ++ frame, fsm := .respond }) ∧
        (¬ s.outRoom frame.length → ∃ t, exec .dspDispatch s = .next t ∧ s.outOverflowed frame t))

/-- R104: the three outcomes of `FIXED_REPLY` for a known opcode (held as a list, log entry 19); a reply that a bounded
`OUT_DEPTH` cannot hold halts with `QueueOverflow` (R70, R112; the parts of it that fitted stay queued, log entry 16). With `cmd_valid = 0` the fields are
the values held (log entry 5). -/
def Obligations.DispatchTakesTheFixedReply : Prop :=
  ∀ (s : State), s.fsm ≠ .halted → classify s.cfg s.command.cmd = .known →
    (fixedReply s.cfg s.command = .noResponse → exec .dspDispatch s = .next { s with fsm := .respond }) ∧
    (∀ bs, fixedReply s.cfg s.command = .reply bs → s.outRoom (s.cfg.header.length + bs.length) →
      exec .dspDispatch s = .next { s with outq := s.outq ++ s.cfg.header ++ bs, fsm := .respond }) ∧
    (∀ bs, fixedReply s.cfg s.command = .reply bs → ¬ s.outRoom (s.cfg.header.length + bs.length) →
      ∃ t, exec .dspDispatch s = .next t ∧ s.outOverflowed (s.cfg.header ++ bs) t) ∧
    (fixedReply s.cfg s.command = .unimplemented → exec .dspDispatch s = .next { s with
      diaglog := s.diaglog ++ [.error .unimplementedOpcode (.opcode s.command.cmd)], fault := .unimplementedOpcode,
      fsm := .halted }) ∧
    (s.cfg.fixedReply = [] → fixedReply s.cfg s.command = .unimplemented)

/-- R105, R101: an unknown opcode is logged, nothing is queued, and the engine goes on to `RESPOND`. With
`cmd_valid = 0` the opcode is the value held (log entry 5). -/
def Obligations.DispatchLogsAnUnknownOpcode : Prop :=
  ∀ (s : State), s.fsm ≠ .halted → s.command.cmd ≠ s.cfg.opDskio →
    s.command.cmd ∉ s.cfg.knownOpcodes →
    exec .dspDispatch s = .next { s with
      diaglog := s.diaglog ++ [.unknownOpcode s.command.cmd], fsm := .respond }

/-- R106, R95: the action of `RESPOND` is chosen by `ro_phase`, `ro_pending` and `ro_idx`; without an operation in flight
the engine goes on to `FLUSH`, and so it does after `RO.EXIT`, unless that overflows the queue and halts it. -/
def Obligations.RespondRunsTheReadOperation : Prop :=
  ∀ (s : State), s.fsm ≠ .halted →
    (s.roPhase = .none → exec .dspRespond s = .next { s with fsm := .flush }) ∧
    (s.roPhase = .send → s.roPending ≠ [] → exec .dspRespond s = exec .roRound s) ∧
    (s.roPhase = .echo → s.roIdx < s.roPending.length → exec .dspRespond s = exec .roEcho s) ∧
    (s.roPhase = .echo → s.roPending.length ≤ s.roIdx → exec .dspRespond s = exec .roEndround s) ∧
    (∀ t, s.roPhase = .send → s.roPending = [] → exec .roExit s = .next t → t.fsm ≠ .halted →
      exec .dspRespond s = .next { t with fsm := .flush }) ∧
    (∀ t, s.roPhase = .send → s.roPending = [] → exec .roExit s = .next t → t.fsm = .halted → exec .dspRespond s = .next t)

/-- R107, R77, R97: one transport write of all that is queued, none when nothing is, and `WAIT_SYNC` is entered with the
deadline reset and the wait for `SYNC` started; `inq` is kept. -/
def Obligations.FlushWritesAndEntersWaitSync : Prop :=
  ∀ (s : State), s.fsm ≠ .halted →
    (s.outq ≠ [] → exec .dspFlush s = .next { s with
      outq := [], txlog := s.txlog ++ [s.outq], fsm := .waitSync, dlElapsed := 0, syncI := 0, syncDiscard := 0,
      seq := some s.cfg.sync }) ∧
    (s.outq = [] → exec .dspFlush s = .next { s with
      fsm := .waitSync, dlElapsed := 0, syncI := 0, syncDiscard := 0, seq := some s.cfg.sync })

/-- R110, R90: whichever of the three waits times out, the same recovery is taken in that step: the event, both queues
emptied, the ReadOperation abandoned with `ro_retx` kept, `WAIT_SYNC` entered; the command registers and `fault` stay. -/
def Obligations.TimeoutIsRecovered : Prop :=
  ∀ (s : State) (t : ErrInfo → State), s.cfg.timeoutMs ≤ s.dlElapsed * s.cfg.tickMs →
    (∀ info, t info = { s with
      diaglog := s.diaglog ++ [.error .protocolTimeout info], inq := [], outq := [], roPhase := .none, roPending := [],
      roRetained := [], roIdx := 0, fsm := .waitSync, dlElapsed := 0, syncI := 0, syncDiscard := 0,
      seq := some s.cfg.sync }) →
    (s.fsm = .waitSync → s.seq = some s.cfg.sync → s.inq = [] →
      exec .dspWaitSync s = .next (t (.waitseq s.syncDiscard))) ∧
    (s.fsm = .readFixed9 → s.inq.length < s.cfg.fixedLen →
      exec .dspReadFixed9 s = .next (t (.waitavail s.inq.length s.cfg.fixedLen))) ∧
    (s.fsm = .respond → s.roPhase = .echo → s.roIdx < s.roPending.length → s.inq = [] →
      exec .dspRespond s = .next (t .nextbyte))

/-- R20, R57, R102: the disk-read path does not depend on `A`, on `C` or on any bit of `F` but bit 0. With `cmd_valid = 0` the
fields are the values held (log entry 5). -/
def Obligations.DiskReadIgnoresOtherFields : Prop :=
  ∀ (s t : State) (c c' : Command), s.cfg.dskioMap = { count := .b, start := .de, dest := .hl } →
    c.cmd = s.cfg.opDskio → c'.cmd = s.cfg.opDskio → high c.bc = high c'.bc → c.de = c'.de → c.hl = c'.hl →
    c.f.getLsbD 0 = c'.f.getLsbD 0 →
    exec .dspDispatch { s with command := c } = .next t →
    exec .dspDispatch { s with command := c' } = .next { t with command := c' }

/-! ### Whole frames -/

/-- R102 to R104, R44, by frames (log entry 11): an inbound disk frame that ENG is ready for is taken whole: the register
file holds its fields, one `CMD_RECEIVED` event is emitted, and the disk action of its row is performed: a write request is
ignored, a read starts the ReadOperation. -/
def Obligations.InboundDiskFrameIsPerformed : Prop :=
  ∀ (s : State) (bc de hl : Word) (f a : Byte), readyForFrame s = true → s.inRoom (s.cfg.sync.length + 9) →
    s.cfg.wf = true → s.cfg.dskioMap = { count := .b, start := .de, dest := .hl } →
    (f.getLsbD 0 = true → exec (.inDskioWrite bc de hl f a) s = .next { s with
      syncI := s.cfg.sync.length, seq := none, dlElapsed := 0, command := ⟨bc, de, hl, f, a, s.cfg.opDskio⟩,
      cmdValid := true, diaglog := s.diaglog ++ [.cmdReceived ⟨bc, de, hl, f, a, s.cfg.opDskio⟩ .dskio],
      fsm := .respond }) ∧
    (f.getLsbD 0 = false → s.cfg.chunkSize ≤ bc.toNat / 256 * s.cfg.sectorSize →
      de.toNat * s.cfg.sectorSize + bc.toNat / 256 * s.cfg.sectorSize ≤ s.cfg.storeSize →
      ∃ data blks, imageSlice s.image (de.toNat * s.cfg.sectorSize) (bc.toNat / 256 * s.cfg.sectorSize) data ∧
        transferBlocks s.cfg data blks ∧
        exec (.inDskioRead bc de hl f a) s = .next { s with
          syncI := s.cfg.sync.length, seq := none, dlElapsed := 0, command := ⟨bc, de, hl, f, a, s.cfg.opDskio⟩,
          cmdValid := true, diaglog := s.diaglog ++ [.cmdReceived ⟨bc, de, hl, f, a, s.cfg.opDskio⟩ .dskio],
          roBase := hl, roPending := blks, roRetained := [], roIdx := 0, roRetx := 0, roPhase := .send,
          fsm := .respond })

/-- R44, R98 to R101, R112, by frames (log entries 11 and 17): an inbound frame that ENG is ready for is `DISPATCH` on the
state in which its fields have been decoded and reported, whichever row it is of and whatever the action does; a frame a
bounded `IN_DEPTH` cannot hold is the fatal `QueueOverflow`, in every `fsm` state. -/
def Obligations.InboundFrameIsDispatched : Prop :=
  ∀ (s : State) (i : Instr) (c : Command), i.format = .inbound → encode s.cfg i = frameBytes s.cfg c →
    (readyForFrame s = true → s.inRoom (s.cfg.sync.length + 9) →
      exec i s = exec .dspDispatch { s with
        syncI := s.cfg.sync.length, seq := none, dlElapsed := 0, command := c, cmdValid := true,
        diaglog := s.diaglog ++ [.cmdReceived c (classify s.cfg c.cmd)], fsm := .dispatch }) ∧
    (¬ s.inRoom (s.cfg.sync.length + 9) → exec i s = .next { s with
      diaglog := s.diaglog ++ [.error .queueOverflow (.queue .inbound s.inq.length (s.cfg.sync.length + 9))],
      fault := .queueOverflow, fsm := .halted })

/-- R104, R105, R44, by frames (log entry 11): a frame with a known opcode other than the disk read takes its fixed reply,
one with an unknown opcode is logged. -/
def Obligations.InboundReplyFrameIsPerformed : Prop :=
  ∀ (s : State) (i : Instr) (bc de hl : Word) (f a cmd : Byte), readyForFrame s = true →
    s.inRoom (s.cfg.sync.length + 9) → s.cfg.wf = true → i.wf s.cfg = true →
    ((i = .inCmdrequest bc de hl f a ∧ cmd = s.cfg.opCmdrequest) ∨ i = .inKnownOther bc de hl f a cmd →
      (fixedReply s.cfg ⟨bc, de, hl, f, a, cmd⟩ = .noResponse → exec i s = .next { s with
        syncI := s.cfg.sync.length, seq := none, dlElapsed := 0, command := ⟨bc, de, hl, f, a, cmd⟩, cmdValid := true,
        diaglog := s.diaglog ++ [.cmdReceived ⟨bc, de, hl, f, a, cmd⟩ .known], fsm := .respond }) ∧
      (∀ bs, fixedReply s.cfg ⟨bc, de, hl, f, a, cmd⟩ = .reply bs → s.outRoom (s.cfg.header.length + bs.length) →
        exec i s = .next { s with
          syncI := s.cfg.sync.length, seq := none, dlElapsed := 0, command := ⟨bc, de, hl, f, a, cmd⟩, cmdValid := true,
          diaglog := s.diaglog ++ [.cmdReceived ⟨bc, de, hl, f, a, cmd⟩ .known], outq := s.outq ++ s.cfg.header ++ bs,
          fsm := .respond })) ∧
    (i = .inUnknown bc de hl f a cmd → exec i s = .next { s with
      syncI := s.cfg.sync.length, seq := none, dlElapsed := 0, command := ⟨bc, de, hl, f, a, cmd⟩, cmdValid := true,
      diaglog := s.diaglog ++ [.cmdReceived ⟨bc, de, hl, f, a, cmd⟩ .unknown, .unknownOpcode cmd], fsm := .respond })

/-- R61, R45, R112, by frames (log entry 11): a frame that ENG is not ready for only has its bytes appended, in `HALTED`
too. -/
def Obligations.InboundFrameWaitsInTheQueue : Prop :=
  ∀ (s : State) (i : Instr), i.format = .inbound → readyForFrame s = false → s.inRoom (s.cfg.sync.length + 9) →
    exec i s = .next { s with inq := s.inq ++ encode s.cfg i }

/-- R4, R61, R98 to R105: feeding a frame to an engine that is ready for it and letting ENG move once for every byte of
`SYNC`, once for the fields, once for `DECODE` and once for `DISPATCH` is exactly that frame's instruction (log entry
11). -/
def Obligations.FrameStepsRefineTheFrame : Prop :=
  ∀ (s : State) (c : Command) (ag : List Offer), readyForFrame s = true →
    s.agenda = feedTurn (frameBytes s.cfg c) :: (List.replicate (s.cfg.sync.length + 3) engTurn ++ ag) →
    runSteps (s.cfg.sync.length + 4) s = exec (frameInstr s.cfg c) { s with agenda := ag }

/-- R48 to R51, R59: each outbound row queues exactly its frame (log entry 12), or, where a bounded `OUT_DEPTH` cannot hold
it, halts with `QueueOverflow` (R70, R112; the parts of it that fitted stay queued, log entry 16); more than 255 blocks are the
fatal `FieldOverflow` (that the row itself raises it, as R92 has the round do, is the model's choice, log entry 27). -/
def Obligations.OutboundRowsQueueTheirFrames : Prop :=
  ∀ (s : State), s.fsm ≠ .halted →
    (∀ (i : Instr) (frame : List Byte),
      ((i = .outExit ∧ frame = s.cfg.header ++ [s.cfg.codeExit]) ∨
        (∃ bs, i = .outFixedReply bs ∧ frame = s.cfg.header ++ bs) ∨
        (∃ (dest : Word) (b : DataBlock), b.legal s.cfg ∧ i = .outSlowtransfer dest b.payload ∧
          frame = s.cfg.header ++ [s.cfg.codeSlow] ++ bytes16 dest ++ bytes16 (BitVec.ofNat 16 b.payload.length)
            ++ bracketed [b]) ∨
        (∃ (e : Word) (b : DataBlock) (bs : List DataBlock), (∀ x ∈ b :: bs, x.legal s.cfg) ∧ bs.length < 255 ∧
          i = .outFasttransfer e b.payload (bs.map DataBlock.payload) ∧
          frame = s.cfg.header ++ [s.cfg.codeFast] ++ bytes16 e ++ [BitVec.ofNat 8 (bs.length + 1)]
            ++ bracketed (b :: bs))) →
      (s.outRoom frame.length → exec i s = .next { s with outq := s.outq ++ frame }) ∧
      (¬ s.outRoom frame.length → ∃ t, exec i s = .next t ∧ s.outOverflowed frame t)) ∧
    (∀ (e : Word) (p : List Byte) (ps : List (List Byte)), 255 ≤ ps.length →
      exec (.outFasttransfer e p ps) s = .next (fatal .fieldOverflow (.blockCount (ps.length + 1)) s))

/-! ### The whole machine -/

/-- From every state that meets the engine's invariant, a step gives one that meets it (R13, R21 to R23, R67, R80, R94,
R97, R99, 92_eei_decisions.md D7). -/
def Obligations.EngineInvariantKept : Prop :=
  ∀ s t : State, EngineInv s → step s = .next t → EngineInv t

/-- The engine's invariant holds right after reset (R13, R124). -/
def Obligations.EngineInvariantAtReset : Prop := EngineInv State.reset ∧ State.reset.quiescent

/-- R122, R60: from a state that meets the engine's invariant, a step always gives a next state: no model fault and no
refusal is ever reached through the ports. -/
def Obligations.EngineNeverStops : Prop := ∀ s : State, EngineInv s → ∃ t, step s = .next t

/-- R112: "In `HALTED` ENG has no step": every operation of ENG leaves a halted block as it is (log entry 15). -/
def Obligations.EngineOperationsIdleInHalted : Prop :=
  ∀ (i : Instr) (s : State), s.fsm = .halted → i.format ≠ .inbound → i ≠ .clkTick → (∀ bs, i ≠ .iqAppend bs) →
    exec i s = .next s

/-- R112, R113, R124: `HALTED` is left only by reset; until then nothing more is sent and no register of the command file
or of the ReadOperation changes. -/
def Obligations.HaltedIsLeftOnlyByReset : Prop :=
  ∀ s t : State, s.fsm = .halted → (currentOffer s).reset = false → step s = .next t →
    t.fsm = .halted ∧ t.outq = s.outq ∧ t.txlog = s.txlog ∧ t.command = s.command ∧ t.cmdValid = s.cmdValid ∧
      t.roPhase = s.roPhase ∧ t.roBase = s.roBase ∧ t.roPending = s.roPending ∧ t.roRetained = s.roRetained ∧
      t.roIdx = s.roIdx ∧ t.roRetx = s.roRetx ∧ s.inq <+: t.inq

/-- R38 items 3 and 4, R24, R77: at every step but a reset, the transport log grows by at most one entry, which is all that
was queued and then pushed, in order, and leaves the queue empty; otherwise the queue only grows at its tail or is emptied.
The diagnostic log only grows. -/
def Obligations.TransportWritesKeepTheOrder : Prop :=
  ∀ s t : State, (currentOffer s).reset = false → step s = .next t →
    ((t.txlog = s.txlog ∧ (s.outq <+: t.outq ∨ t.outq = [])) ∨
      ∃ pushed, s.outq ++ pushed ≠ [] ∧ t.txlog = s.txlog ++ [s.outq ++ pushed] ∧ t.outq = []) ∧
    s.diaglog <+: t.diaglog

/-- R38 items 1, 2 and 5, R3, R36: ENG's moves only take bytes from the head of `inq` (or clear it), FEED's only append at
its tail, and CLK's leave it. -/
def Obligations.InboundQueueIsFifo : Prop :=
  ∀ s t : State, (currentOffer s).reset = false → (currentOffer s).linkLost = false → step s = .next t →
    ((currentOffer s).move = .eng → t.inq <:+ s.inq) ∧
    ((currentOffer s).move = .clk → t.inq = s.inq) ∧
    (∀ bs, (currentOffer s).move = .feed bs → t.inq = s.inq ++ bs ∨ (t.inq = s.inq ∧ t.fault = .queueOverflow))

/-- R18: the command register file is written as a whole by the decode and by nothing else. -/
def Obligations.CommandFileWrittenOnlyByDecode : Prop :=
  ∀ (i : Instr) (s t : State), exec i s = .next t → i.format ≠ .inbound → i ≠ .dspReadFixed9 →
    (∀ bc de hl f a cmd, i ≠ .cmdDecode bc de hl f a cmd) → t.command = s.command ∧ t.cmdValid = s.cmdValid

/-- R13, R29, R125: no instruction and no step writes a parameter or a byte of the disk image. -/
def Obligations.ConfigAndImageAreNeverWritten : Prop :=
  (∀ (i : Instr) (s t : State), exec i s = .next t →
    t.cfg = s.cfg ∧ (∀ k, imageByte t.image k = imageByte s.image k) ∧ t.image = s.image ∧ t.agenda = s.agenda) ∧
  (∀ s t : State, step s = .next t → t.cfg = s.cfg ∧ t.image = s.image ∧ t.agenda = s.agenda.drop 1)

/-- R96: a step of ENG resets the deadline at its three points (entering `WAIT_SYNC` from `FLUSH` or by a recovery, completing
the wait for `SYNC`, flushing a round), and at every other step of ENG the counter keeps its value, at a byte that ENG takes
in `WAIT_SYNC` without completing `SYNC` among them. -/
def Obligations.DeadlineResetPoints : Prop :=
  ∀ s t : State, s.engineMoves → step s = .next t →
    (deadlinePoint s t → t.dlElapsed = 0) ∧ (¬ deadlinePoint s t → t.dlElapsed = s.dlElapsed)

/-- R21, R22, R25, R108: the numbers a status port shows for `fsm` and `fault`, and those of `ro_phase`. -/
def Obligations.StatusPortShowsTheNumbers : Prop :=
  ∀ s : State,
    ((s.fsm = .waitSync → (statusPort s).1 = 0) ∧ (s.fsm = .readFixed9 → (statusPort s).1 = 1) ∧
      (s.fsm = .decode → (statusPort s).1 = 2) ∧ (s.fsm = .dispatch → (statusPort s).1 = 3) ∧
      (s.fsm = .respond → (statusPort s).1 = 4) ∧ (s.fsm = .flush → (statusPort s).1 = 5) ∧
      (s.fsm = .halted → (statusPort s).1 = 7)) ∧
    ((s.fault = .none → (statusPort s).2 = 0) ∧ (s.fault = .protocolTimeout → (statusPort s).2 = 1) ∧
      (s.fault = .protocolDesync → (statusPort s).2 = 2) ∧ (s.fault = .markerExhausted → (statusPort s).2 = 3) ∧
      (s.fault = .unimplementedOpcode → (statusPort s).2 = 4) ∧ (s.fault = .transportLost → (statusPort s).2 = 5) ∧
      (s.fault = .diskStoreFault → (statusPort s).2 = 6) ∧ (s.fault = .blockLength → (statusPort s).2 = 7) ∧
      (s.fault = .fieldOverflow → (statusPort s).2 = 8) ∧ (s.fault = .queueOverflow → (statusPort s).2 = 9) ∧
      (s.fault = .readUnderflow → (statusPort s).2 = 10)) ∧
    ((s.roPhase = .none → roPhaseCode s.roPhase = 0) ∧ (s.roPhase = .send → roPhaseCode s.roPhase = 1) ∧
      (s.roPhase = .echo → roPhaseCode s.roPhase = 2))

/-- R21, R95: the transitions ENG's steps can take, the recovery to `WAIT_SYNC` and the fatal faults of `DISPATCH` and
`RESPOND` among them. -/
def Obligations.DispatcherTransitions : Prop :=
  ∀ s t : State, s.engineMoves → s.cfg.wf = true → step s = .next t →
    (s.fsm = .waitSync → t.fsm = .waitSync ∨ t.fsm = .readFixed9) ∧
    (s.fsm = .readFixed9 → t.fsm = .readFixed9 ∨ t.fsm = .decode ∨ t.fsm = .waitSync) ∧
    (s.fsm = .decode → t.fsm = .dispatch) ∧
    (s.fsm = .dispatch → t.fsm = .respond ∨ t.fsm = .halted) ∧
    (s.fsm = .respond → t.fsm = .respond ∨ t.fsm = .flush ∨ t.fsm = .waitSync ∨ t.fsm = .halted) ∧
    (s.fsm = .flush → t.fsm = .waitSync) ∧
    (s.fsm = .halted → t.fsm = .halted)
end

