-- ==== Sys2Proof/Laws/Operands.lean ====
section
/-! SUPPORT. Halves and little-endian words as arithmetic, and what a marker search finds. -/

namespace Sys2Proof

theorem le16_toNat (lo hi : Byte) : (le16 lo hi).toNat = lo.toNat + 256 * hi.toNat := by
  have h := Nat.shiftLeft_add_eq_or_of_lt lo.isLt hi.toNat
  rw [le16, BitVec.toNat_append, ← h, Nat.shiftLeft_eq]
  omega

theorem low_toNat (x : Word) : (low x).toNat = x.toNat % 256 := by simp [low]

theorem high_toNat (x : Word) : (high x).toNat = x.toNat / 256 := by
  have := x.isLt
  simp [high, Nat.shiftRight_eq_div_pow]
  omega

@[simp] theorem le16_low_high (x : Word) : le16 (low x) (high x) = x := by
  apply BitVec.eq_of_toNat_eq
  rw [le16_toNat, low_toNat, high_toNat]
  omega

theorem bytes16_eq (v : Word) : bytes16 v = [BitVec.ofNat 8 (v.toNat % 256), BitVec.ofNat 8 (v.toNat / 256)] := by
  have h1 : low v = BitVec.ofNat 8 (v.toNat % 256) := by
    apply BitVec.eq_of_toNat_eq
    rw [low_toNat, BitVec.toNat_ofNat]
    omega
  have h2 : high v = BitVec.ofNat 8 (v.toNat / 256) := by
    have := v.isLt
    apply BitVec.eq_of_toNat_eq
    rw [high_toNat, BitVec.toNat_ofNat]
    omega
  rw [bytes16, h1, h2]

@[simp] theorem bytes16_length (v : Word) : (bytes16 v).length = 2 := rfl

@[simp] theorem fieldBytes_length (c : Command) : (fieldBytes c).length = 9 := rfl

@[simp] theorem frameBytes_length (cfg : Config) (c : Command) : (frameBytes cfg c).length = cfg.sync.length + 9 := by
  simp [frameBytes]

/-- A marker search that passes over present values stops at the first absent one. -/
theorem markerFrom_of_first {p : List Byte} {m : Byte} (hm : m ∉ p) : ∀ (fuel v : Nat), v ≤ m.toNat → m.toNat < v + fuel →
    (∀ k : Byte, v ≤ k.toNat → k.toNat < m.toNat → k ∈ p) → markerFrom fuel v p = some m := by
  intro fuel
  induction fuel with
  | zero => intro v h1 h2 _; omega
  | succ fuel ih =>
    intro v h1 h2 hk
    have hv : (BitVec.ofNat 8 v).toNat = v := by
      have := m.isLt
      rw [BitVec.toNat_ofNat]
      omega
    rcases Nat.lt_or_ge v m.toNat with h | h
    · have hp : BitVec.ofNat 8 v ∈ p := hk _ (by omega) (by omega)
      simp only [markerFrom, hp, if_true]
      exact ih (v + 1) (by omega) (by omega) fun k h3 h4 => hk k (by omega) h4
    · have he : BitVec.ofNat 8 v = m := BitVec.eq_of_toNat_eq (by omega)
      simp [markerFrom, he, hm]

/-- What a marker search finds is absent, and every smaller value it passed over is present. -/
theorem markerFrom_spec {p : List Byte} {m : Byte} : ∀ (fuel v : Nat), v + fuel ≤ 256 → markerFrom fuel v p = some m →
    m ∉ p ∧ v ≤ m.toNat ∧ ∀ k : Byte, v ≤ k.toNat → k.toNat < m.toNat → k ∈ p := by
  intro fuel
  induction fuel with
  | zero => intro v _ h; simp [markerFrom] at h
  | succ fuel ih =>
    intro v hv h
    have hval : (BitVec.ofNat 8 v).toNat = v := by rw [BitVec.toNat_ofNat]; omega
    by_cases hp : BitVec.ofNat 8 v ∈ p
    · simp only [markerFrom, hp, if_true] at h
      obtain ⟨h1, h2, h3⟩ := ih (v + 1) (by omega) h
      refine ⟨h1, by omega, fun k h4 h5 => ?_⟩
      rcases Nat.eq_or_lt_of_le h4 with h6 | h6
      · rwa [← BitVec.eq_of_toNat_eq (show (BitVec.ofNat 8 v).toNat = k.toNat by omega)]
      · exact h3 k (by omega) h5
    · simp only [markerFrom, hp, if_false, Option.some.injEq] at h
      subst h
      exact ⟨hp, by omega, fun k h1 h2 => by omega⟩

theorem marker_of_first {p : List Byte} {m : Byte} (hm : m ∉ p) (h : ∀ v : Byte, v.toNat < m.toNat → v ∈ p) :
    marker p = some m :=
  markerFrom_of_first hm 256 0 (by omega) (by have := m.isLt; omega) fun k _ hk => h k hk

theorem marker_spec {p : List Byte} {m : Byte} (h : marker p = some m) :
    m ∉ p ∧ ∀ v : Byte, v.toNat < m.toNat → v ∈ p := by
  obtain ⟨h1, _, h3⟩ := markerFrom_spec 256 0 (by omega) h
  exact ⟨h1, fun v hv => h3 v (by omega) hv⟩

/-- A list in which the `k` smallest bytes occur has at least `k` members. -/
theorem length_of_initial (p : List Byte) (k : Nat)
    (h : ∀ v : Nat, v < k → BitVec.ofNat 8 v ∈ p) (hk : k ≤ 256) : k ≤ p.length := by
  have h1 : ((List.range k).map (BitVec.ofNat 8)).Nodup := by
    refine List.Nodup.map_on ?_ List.nodup_range
    intro a ha b hb hab
    have := congrArg BitVec.toNat hab
    simp at ha hb this
    omega
  have h2 : ((List.range k).map (BitVec.ofNat 8)) ⊆ p := by
    intro x hx
    simp at hx
    obtain ⟨a, ha, rfl⟩ := hx
    exact h a ha
  simpa using (h1.subperm h2).length_le

/-- A marker search that finds nothing has seen every value it passed over. -/
theorem markerFrom_none {p : List Byte} : ∀ (fuel v : Nat), markerFrom fuel v p = none →
    ∀ k, v ≤ k → k < v + fuel → BitVec.ofNat 8 k ∈ p := by
  intro fuel
  induction fuel with
  | zero => intro v _ k h1 h2; omega
  | succ f ih =>
    intro v h k h1 h2
    by_cases hp : BitVec.ofNat 8 v ∈ p
    · simp only [markerFrom, hp, if_true] at h
      rcases Nat.eq_or_lt_of_le h1 with e | e
      · exact e ▸ hp
      · exact ih (v+1) h k (by omega) (by omega)
    · simp [markerFrom, hp] at h

/-- 42_datablock_command.md R80. -/
theorem marker_exists (p : List Byte) (h : p.length ≤ 254) :
    ∃ m : Byte, marker p = some m ∧ m ∉ p ∧ m.toNat ≤ p.length := by
  cases hm : marker p with
  | none =>
    have := length_of_initial p 256 (fun v hv => markerFrom_none 256 0 hm v (by omega) (by omega)) (by omega)
    omega
  | some m =>
    obtain ⟨h1, h2⟩ := marker_spec hm
    refine ⟨m, rfl, h1, length_of_initial p m.toNat (fun v hv => h2 _ ?_) (by have := m.isLt; omega)⟩
    have := m.isLt
    rw [BitVec.toNat_ofNat]; omega

end Sys2Proof
end

