-- ==== Sys2Proof/Laws/Decode.lean ====
section
/-! SUPPORT. What the parameters' relations give, and what each reader of the decoder makes of what the encoder wrote. -/

namespace Sys2Proof

theorem Config.wf_parts {cfg : Config} (h : cfg.wf = true) :
    cfg.fixedLen = 9 ∧ 1 ≤ cfg.chunkSize ∧ cfg.chunkSize ≤ cfg.maxPayload ∧ cfg.maxPayload ≤ 254 ∧
      cfg.opDskio ∈ cfg.knownOpcodes ∧ cfg.opCmdrequest ∈ cfg.knownOpcodes ∧ cfg.opDskio ≠ cfg.opCmdrequest ∧
      cfg.codeFast ≠ cfg.codeSlow ∧ cfg.codeFast ≠ cfg.codeExit ∧ cfg.codeSlow ≠ cfg.codeExit := by
  simpa [Config.wf, and_assoc] using h

theorem legalPayload_iff (cfg : Config) (p : List Byte) :
    legalPayload cfg p = true ↔ 1 ≤ p.length ∧ p.length ≤ cfg.maxPayload := by simp [legalPayload]

@[simp] theorem Read.andThen_ok {α β : Type} (a : α) (bs : List Byte) (k : α → List Byte → Read β) :
    Read.andThen (.ok (a, bs)) k = k a bs := rfl

@[simp] theorem Read.as_ok {α β : Type} (a : α) (bs : List Byte) (k : α → β) :
    Read.as (.ok (a, bs)) k = .ok (k a, bs) := rfl

@[simp] theorem takeWord_bytes16 (w : Word) (r : List Byte) : takeWord (bytes16 w ++ r) = .ok (w, r) := by
  simp [takeWord, bytes16]

theorem takeList_listBytes (bs : List Byte) : ∀ r, takeList (listBytes bs ++ r) = .ok (bs, r) := by
  induction bs with
  | nil => intro r; cases r <;> simp [listBytes, takeList]
  | cons b bs ih => intro r; simp [listBytes, takeList, ih]

theorem ofDigits_digits : ∀ (fuel n : Nat), n ≤ fuel → ofDigits (digits fuel n) = n := by
  intro fuel
  induction fuel with
  | zero =>
    intro n h
    obtain rfl : n = 0 := by omega
    rfl
  | succ f ih =>
    intro n h
    by_cases hn : n = 0
    · simp [digits, hn, ofDigits]
    · simp only [digits, hn, if_false, ofDigits]
      rw [ih _ (by omega), BitVec.toNat_ofNat]
      omega

theorem stripPrefix_self (p r : List Byte) : stripPrefix p (p ++ r) = some r := by
  induction p with
  | nil => cases r <;> rfl
  | cons b bs ih => simp [stripPrefix, ih]

theorem splitAtMarker_self (m : Byte) (p r : List Byte) (h : m ∉ p) :
    splitAtMarker m (p ++ m :: r) = some (p, r) := by
  induction p with
  | nil => simp [splitAtMarker]
  | cons b bs ih =>
    simp at h
    simp [splitAtMarker, Ne.symm h.1, ih h.2]

theorem takeBlock_self {cfg : Config} (hw : cfg.wf = true) {p : List Byte} (h : legalPayload cfg p = true)
    (r : List Byte) : takeBlock cfg (blockBytes p ++ r) = .ok (p, r) := by
  obtain ⟨-, -, -, w, -⟩ := Config.wf_parts hw
  obtain ⟨h1, h2⟩ := (legalPayload_iff cfg p).1 h
  obtain ⟨m, hm, hp, -⟩ := marker_exists p (by omega)
  simp [blockBytes, hm, takeBlock, splitAtMarker_self m p r hp, h]

theorem takeBlocks_self {cfg : Config} (hw : cfg.wf = true) (ps : List (List Byte)) (r : List Byte)
    (h : ∀ p ∈ ps, legalPayload cfg p = true) : takeBlocks cfg ps.length (blocksBytes ps ++ r) = .ok (ps, r) := by
  induction ps with
  | nil => rfl
  | cons p ps ih =>
    simp only [List.length_cons, takeBlocks, blocksBytes, List.append_assoc]
    rw [takeBlock_self hw (h p (by simp)), Read.andThen_ok, ih fun q hq => h q (by simp [hq])]
    rfl

/-- A frame with any field bytes is read back as the instruction its Command stands for (30_encoding.md R44, R45). -/
theorem decodeInbound_frame (cfg : Config) (c : Command) (r : List Byte) :
    decodeInbound cfg (frameBytes cfg c ++ r) = .ok (frameInstr cfg c, r) := by
  rw [decodeInbound, frameBytes, List.append_assoc, stripPrefix_self]
  simp [fieldBytes, bytes16]

end Sys2Proof
end

