-- ==== Sys2Proof/Laws/State.lean ====
section
/-! SUPPORT. What each named state update does to each field, so that no proof unfolds a record update. -/

namespace Sys2Proof.Machine

/-! ### pushed -/

@[simp] theorem pushed_inq (bs : List Byte) (s : State) : (pushed bs s).inq = s.inq := rfl
@[simp] theorem pushed_outq (bs : List Byte) (s : State) : (pushed bs s).outq = s.outq ++ bs := rfl
@[simp] theorem pushed_dlElapsed (bs : List Byte) (s : State) : (pushed bs s).dlElapsed = s.dlElapsed := rfl
@[simp] theorem pushed_syncI (bs : List Byte) (s : State) : (pushed bs s).syncI = s.syncI := rfl
@[simp] theorem pushed_syncDiscard (bs : List Byte) (s : State) : (pushed bs s).syncDiscard = s.syncDiscard := rfl
@[simp] theorem pushed_seq (bs : List Byte) (s : State) : (pushed bs s).seq = s.seq := rfl
@[simp] theorem pushed_command (bs : List Byte) (s : State) : (pushed bs s).command = s.command := rfl
@[simp] theorem pushed_cmdValid (bs : List Byte) (s : State) : (pushed bs s).cmdValid = s.cmdValid := rfl
@[simp] theorem pushed_fsm (bs : List Byte) (s : State) : (pushed bs s).fsm = s.fsm := rfl
@[simp] theorem pushed_roPhase (bs : List Byte) (s : State) : (pushed bs s).roPhase = s.roPhase := rfl
@[simp] theorem pushed_roBase (bs : List Byte) (s : State) : (pushed bs s).roBase = s.roBase := rfl
@[simp] theorem pushed_roPending (bs : List Byte) (s : State) : (pushed bs s).roPending = s.roPending := rfl
@[simp] theorem pushed_roRetained (bs : List Byte) (s : State) : (pushed bs s).roRetained = s.roRetained := rfl
@[simp] theorem pushed_roIdx (bs : List Byte) (s : State) : (pushed bs s).roIdx = s.roIdx := rfl
@[simp] theorem pushed_roRetx (bs : List Byte) (s : State) : (pushed bs s).roRetx = s.roRetx := rfl
@[simp] theorem pushed_fault (bs : List Byte) (s : State) : (pushed bs s).fault = s.fault := rfl
@[simp] theorem pushed_txlog (bs : List Byte) (s : State) : (pushed bs s).txlog = s.txlog := rfl
@[simp] theorem pushed_diaglog (bs : List Byte) (s : State) : (pushed bs s).diaglog = s.diaglog := rfl
@[simp] theorem pushed_cfg (bs : List Byte) (s : State) : (pushed bs s).cfg = s.cfg := rfl
@[simp] theorem pushed_image (bs : List Byte) (s : State) : (pushed bs s).image = s.image := rfl
@[simp] theorem pushed_agenda (bs : List Byte) (s : State) : (pushed bs s).agenda = s.agenda := rfl
@[simp] theorem pushed_draws (bs : List Byte) (s : State) : (pushed bs s).draws = s.draws := rfl
@[simp] theorem pushed_ret (bs : List Byte) (s : State) : (pushed bs s).ret = s.ret := rfl

@[simp] theorem pushed_pushed (as bs : List Byte) (s : State) : pushed bs (pushed as s) = pushed (as ++ bs) s := by
  simp [pushed]
@[simp] theorem pushed_nil (s : State) : pushed [] s = s := by simp [pushed]

/-! ### emit -/

@[simp] theorem emit_inq (e : DiagEvent) (s : State) : (emit e s).inq = s.inq := rfl
@[simp] theorem emit_outq (e : DiagEvent) (s : State) : (emit e s).outq = s.outq := rfl
@[simp] theorem emit_dlElapsed (e : DiagEvent) (s : State) : (emit e s).dlElapsed = s.dlElapsed := rfl
@[simp] theorem emit_syncI (e : DiagEvent) (s : State) : (emit e s).syncI = s.syncI := rfl
@[simp] theorem emit_syncDiscard (e : DiagEvent) (s : State) : (emit e s).syncDiscard = s.syncDiscard := rfl
@[simp] theorem emit_seq (e : DiagEvent) (s : State) : (emit e s).seq = s.seq := rfl
@[simp] theorem emit_command (e : DiagEvent) (s : State) : (emit e s).command = s.command := rfl
@[simp] theorem emit_cmdValid (e : DiagEvent) (s : State) : (emit e s).cmdValid = s.cmdValid := rfl
@[simp] theorem emit_fsm (e : DiagEvent) (s : State) : (emit e s).fsm = s.fsm := rfl
@[simp] theorem emit_roPhase (e : DiagEvent) (s : State) : (emit e s).roPhase = s.roPhase := rfl
@[simp] theorem emit_roBase (e : DiagEvent) (s : State) : (emit e s).roBase = s.roBase := rfl
@[simp] theorem emit_roPending (e : DiagEvent) (s : State) : (emit e s).roPending = s.roPending := rfl
@[simp] theorem emit_roRetained (e : DiagEvent) (s : State) : (emit e s).roRetained = s.roRetained := rfl
@[simp] theorem emit_roIdx (e : DiagEvent) (s : State) : (emit e s).roIdx = s.roIdx := rfl
@[simp] theorem emit_roRetx (e : DiagEvent) (s : State) : (emit e s).roRetx = s.roRetx := rfl
@[simp] theorem emit_fault (e : DiagEvent) (s : State) : (emit e s).fault = s.fault := rfl
@[simp] theorem emit_txlog (e : DiagEvent) (s : State) : (emit e s).txlog = s.txlog := rfl
@[simp] theorem emit_diaglog (e : DiagEvent) (s : State) : (emit e s).diaglog = s.diaglog ++ [e] := rfl
@[simp] theorem emit_cfg (e : DiagEvent) (s : State) : (emit e s).cfg = s.cfg := rfl
@[simp] theorem emit_image (e : DiagEvent) (s : State) : (emit e s).image = s.image := rfl
@[simp] theorem emit_agenda (e : DiagEvent) (s : State) : (emit e s).agenda = s.agenda := rfl
@[simp] theorem emit_draws (e : DiagEvent) (s : State) : (emit e s).draws = s.draws := rfl
@[simp] theorem emit_ret (e : DiagEvent) (s : State) : (emit e s).ret = s.ret := rfl

/-! ### fatal -/

@[simp] theorem fatal_inq (c : ErrCode) (i : ErrInfo) (s : State) : (fatal c i s).inq = s.inq := rfl
@[simp] theorem fatal_outq (c : ErrCode) (i : ErrInfo) (s : State) : (fatal c i s).outq = s.outq := rfl
@[simp] theorem fatal_dlElapsed (c : ErrCode) (i : ErrInfo) (s : State) : (fatal c i s).dlElapsed = s.dlElapsed := rfl
@[simp] theorem fatal_syncI (c : ErrCode) (i : ErrInfo) (s : State) : (fatal c i s).syncI = s.syncI := rfl
@[simp] theorem fatal_syncDiscard (c : ErrCode) (i : ErrInfo) (s : State) : (fatal c i s).syncDiscard = s.syncDiscard := rfl
@[simp] theorem fatal_seq (c : ErrCode) (i : ErrInfo) (s : State) : (fatal c i s).seq = s.seq := rfl
@[simp] theorem fatal_command (c : ErrCode) (i : ErrInfo) (s : State) : (fatal c i s).command = s.command := rfl
@[simp] theorem fatal_cmdValid (c : ErrCode) (i : ErrInfo) (s : State) : (fatal c i s).cmdValid = s.cmdValid := rfl
@[simp] theorem fatal_fsm (c : ErrCode) (i : ErrInfo) (s : State) : (fatal c i s).fsm = .halted := rfl
@[simp] theorem fatal_roPhase (c : ErrCode) (i : ErrInfo) (s : State) : (fatal c i s).roPhase = s.roPhase := rfl
@[simp] theorem fatal_roBase (c : ErrCode) (i : ErrInfo) (s : State) : (fatal c i s).roBase = s.roBase := rfl
@[simp] theorem fatal_roPending (c : ErrCode) (i : ErrInfo) (s : State) : (fatal c i s).roPending = s.roPending := rfl
@[simp] theorem fatal_roRetained (c : ErrCode) (i : ErrInfo) (s : State) : (fatal c i s).roRetained = s.roRetained := rfl
@[simp] theorem fatal_roIdx (c : ErrCode) (i : ErrInfo) (s : State) : (fatal c i s).roIdx = s.roIdx := rfl
@[simp] theorem fatal_roRetx (c : ErrCode) (i : ErrInfo) (s : State) : (fatal c i s).roRetx = s.roRetx := rfl
@[simp] theorem fatal_fault (c : ErrCode) (i : ErrInfo) (s : State) : (fatal c i s).fault = c := rfl
@[simp] theorem fatal_txlog (c : ErrCode) (i : ErrInfo) (s : State) : (fatal c i s).txlog = s.txlog := rfl
@[simp] theorem fatal_diaglog (c : ErrCode) (i : ErrInfo) (s : State) : (fatal c i s).diaglog = s.diaglog ++ [.error c i] := rfl
@[simp] theorem fatal_cfg (c : ErrCode) (i : ErrInfo) (s : State) : (fatal c i s).cfg = s.cfg := rfl
@[simp] theorem fatal_image (c : ErrCode) (i : ErrInfo) (s : State) : (fatal c i s).image = s.image := rfl
@[simp] theorem fatal_agenda (c : ErrCode) (i : ErrInfo) (s : State) : (fatal c i s).agenda = s.agenda := rfl
@[simp] theorem fatal_draws (c : ErrCode) (i : ErrInfo) (s : State) : (fatal c i s).draws = s.draws := rfl
@[simp] theorem fatal_ret (c : ErrCode) (i : ErrInfo) (s : State) : (fatal c i s).ret = s.ret := rfl

/-! ### deadlineReset -/

@[simp] theorem deadlineReset_inq (s : State) : (deadlineReset s).inq = s.inq := rfl
@[simp] theorem deadlineReset_outq (s : State) : (deadlineReset s).outq = s.outq := rfl
@[simp] theorem deadlineReset_dlElapsed (s : State) : (deadlineReset s).dlElapsed = 0 := rfl
@[simp] theorem deadlineReset_syncI (s : State) : (deadlineReset s).syncI = s.syncI := rfl
@[simp] theorem deadlineReset_syncDiscard (s : State) : (deadlineReset s).syncDiscard = s.syncDiscard := rfl
@[simp] theorem deadlineReset_seq (s : State) : (deadlineReset s).seq = s.seq := rfl
@[simp] theorem deadlineReset_command (s : State) : (deadlineReset s).command = s.command := rfl
@[simp] theorem deadlineReset_cmdValid (s : State) : (deadlineReset s).cmdValid = s.cmdValid := rfl
@[simp] theorem deadlineReset_fsm (s : State) : (deadlineReset s).fsm = s.fsm := rfl
@[simp] theorem deadlineReset_roPhase (s : State) : (deadlineReset s).roPhase = s.roPhase := rfl
@[simp] theorem deadlineReset_roBase (s : State) : (deadlineReset s).roBase = s.roBase := rfl
@[simp] theorem deadlineReset_roPending (s : State) : (deadlineReset s).roPending = s.roPending := rfl
@[simp] theorem deadlineReset_roRetained (s : State) : (deadlineReset s).roRetained = s.roRetained := rfl
@[simp] theorem deadlineReset_roIdx (s : State) : (deadlineReset s).roIdx = s.roIdx := rfl
@[simp] theorem deadlineReset_roRetx (s : State) : (deadlineReset s).roRetx = s.roRetx := rfl
@[simp] theorem deadlineReset_fault (s : State) : (deadlineReset s).fault = s.fault := rfl
@[simp] theorem deadlineReset_txlog (s : State) : (deadlineReset s).txlog = s.txlog := rfl
@[simp] theorem deadlineReset_diaglog (s : State) : (deadlineReset s).diaglog = s.diaglog := rfl
@[simp] theorem deadlineReset_cfg (s : State) : (deadlineReset s).cfg = s.cfg := rfl
@[simp] theorem deadlineReset_image (s : State) : (deadlineReset s).image = s.image := rfl
@[simp] theorem deadlineReset_agenda (s : State) : (deadlineReset s).agenda = s.agenda := rfl
@[simp] theorem deadlineReset_draws (s : State) : (deadlineReset s).draws = s.draws := rfl
@[simp] theorem deadlineReset_ret (s : State) : (deadlineReset s).ret = s.ret := rfl

/-! ### enterWaitSync -/

@[simp] theorem enterWaitSync_inq (s : State) : (enterWaitSync s).inq = s.inq := rfl
@[simp] theorem enterWaitSync_outq (s : State) : (enterWaitSync s).outq = s.outq := rfl
@[simp] theorem enterWaitSync_dlElapsed (s : State) : (enterWaitSync s).dlElapsed = 0 := rfl
@[simp] theorem enterWaitSync_syncI (s : State) : (enterWaitSync s).syncI = 0 := rfl
@[simp] theorem enterWaitSync_syncDiscard (s : State) : (enterWaitSync s).syncDiscard = 0 := rfl
@[simp] theorem enterWaitSync_seq (s : State) : (enterWaitSync s).seq = some s.cfg.sync := rfl
@[simp] theorem enterWaitSync_command (s : State) : (enterWaitSync s).command = s.command := rfl
@[simp] theorem enterWaitSync_cmdValid (s : State) : (enterWaitSync s).cmdValid = s.cmdValid := rfl
@[simp] theorem enterWaitSync_fsm (s : State) : (enterWaitSync s).fsm = .waitSync := rfl
@[simp] theorem enterWaitSync_roPhase (s : State) : (enterWaitSync s).roPhase = s.roPhase := rfl
@[simp] theorem enterWaitSync_roBase (s : State) : (enterWaitSync s).roBase = s.roBase := rfl
@[simp] theorem enterWaitSync_roPending (s : State) : (enterWaitSync s).roPending = s.roPending := rfl
@[simp] theorem enterWaitSync_roRetained (s : State) : (enterWaitSync s).roRetained = s.roRetained := rfl
@[simp] theorem enterWaitSync_roIdx (s : State) : (enterWaitSync s).roIdx = s.roIdx := rfl
@[simp] theorem enterWaitSync_roRetx (s : State) : (enterWaitSync s).roRetx = s.roRetx := rfl
@[simp] theorem enterWaitSync_fault (s : State) : (enterWaitSync s).fault = s.fault := rfl
@[simp] theorem enterWaitSync_txlog (s : State) : (enterWaitSync s).txlog = s.txlog := rfl
@[simp] theorem enterWaitSync_diaglog (s : State) : (enterWaitSync s).diaglog = s.diaglog := rfl
@[simp] theorem enterWaitSync_cfg (s : State) : (enterWaitSync s).cfg = s.cfg := rfl
@[simp] theorem enterWaitSync_image (s : State) : (enterWaitSync s).image = s.image := rfl
@[simp] theorem enterWaitSync_agenda (s : State) : (enterWaitSync s).agenda = s.agenda := rfl
@[simp] theorem enterWaitSync_draws (s : State) : (enterWaitSync s).draws = s.draws := rfl
@[simp] theorem enterWaitSync_ret (s : State) : (enterWaitSync s).ret = s.ret := rfl

/-! ### recovery -/

@[simp] theorem recovery_inq (i : ErrInfo) (s : State) : (recovery i s).inq = [] := rfl
@[simp] theorem recovery_outq (i : ErrInfo) (s : State) : (recovery i s).outq = [] := rfl
@[simp] theorem recovery_dlElapsed (i : ErrInfo) (s : State) : (recovery i s).dlElapsed = 0 := rfl
@[simp] theorem recovery_syncI (i : ErrInfo) (s : State) : (recovery i s).syncI = 0 := rfl
@[simp] theorem recovery_syncDiscard (i : ErrInfo) (s : State) : (recovery i s).syncDiscard = 0 := rfl
@[simp] theorem recovery_seq (i : ErrInfo) (s : State) : (recovery i s).seq = some s.cfg.sync := rfl
@[simp] theorem recovery_command (i : ErrInfo) (s : State) : (recovery i s).command = s.command := rfl
@[simp] theorem recovery_cmdValid (i : ErrInfo) (s : State) : (recovery i s).cmdValid = s.cmdValid := rfl
@[simp] theorem recovery_fsm (i : ErrInfo) (s : State) : (recovery i s).fsm = .waitSync := rfl
@[simp] theorem recovery_roPhase (i : ErrInfo) (s : State) : (recovery i s).roPhase = .none := rfl
@[simp] theorem recovery_roBase (i : ErrInfo) (s : State) : (recovery i s).roBase = s.roBase := rfl
@[simp] theorem recovery_roPending (i : ErrInfo) (s : State) : (recovery i s).roPending = [] := rfl
@[simp] theorem recovery_roRetained (i : ErrInfo) (s : State) : (recovery i s).roRetained = [] := rfl
@[simp] theorem recovery_roIdx (i : ErrInfo) (s : State) : (recovery i s).roIdx = 0 := rfl
@[simp] theorem recovery_roRetx (i : ErrInfo) (s : State) : (recovery i s).roRetx = s.roRetx := rfl
@[simp] theorem recovery_fault (i : ErrInfo) (s : State) : (recovery i s).fault = s.fault := rfl
@[simp] theorem recovery_txlog (i : ErrInfo) (s : State) : (recovery i s).txlog = s.txlog := rfl
@[simp] theorem recovery_diaglog (i : ErrInfo) (s : State) : (recovery i s).diaglog = s.diaglog ++ [.error .protocolTimeout i] := rfl
@[simp] theorem recovery_cfg (i : ErrInfo) (s : State) : (recovery i s).cfg = s.cfg := rfl
@[simp] theorem recovery_image (i : ErrInfo) (s : State) : (recovery i s).image = s.image := rfl
@[simp] theorem recovery_agenda (i : ErrInfo) (s : State) : (recovery i s).agenda = s.agenda := rfl
@[simp] theorem recovery_draws (i : ErrInfo) (s : State) : (recovery i s).draws = s.draws := rfl
@[simp] theorem recovery_ret (i : ErrInfo) (s : State) : (recovery i s).ret = s.ret := rfl

/-! ### withRet -/

@[simp] theorem withRet_inq (v : RetVal) (s : State) : (withRet v s).inq = s.inq := rfl
@[simp] theorem withRet_outq (v : RetVal) (s : State) : (withRet v s).outq = s.outq := rfl
@[simp] theorem withRet_dlElapsed (v : RetVal) (s : State) : (withRet v s).dlElapsed = s.dlElapsed := rfl
@[simp] theorem withRet_syncI (v : RetVal) (s : State) : (withRet v s).syncI = s.syncI := rfl
@[simp] theorem withRet_syncDiscard (v : RetVal) (s : State) : (withRet v s).syncDiscard = s.syncDiscard := rfl
@[simp] theorem withRet_seq (v : RetVal) (s : State) : (withRet v s).seq = s.seq := rfl
@[simp] theorem withRet_command (v : RetVal) (s : State) : (withRet v s).command = s.command := rfl
@[simp] theorem withRet_cmdValid (v : RetVal) (s : State) : (withRet v s).cmdValid = s.cmdValid := rfl
@[simp] theorem withRet_fsm (v : RetVal) (s : State) : (withRet v s).fsm = s.fsm := rfl
@[simp] theorem withRet_roPhase (v : RetVal) (s : State) : (withRet v s).roPhase = s.roPhase := rfl
@[simp] theorem withRet_roBase (v : RetVal) (s : State) : (withRet v s).roBase = s.roBase := rfl
@[simp] theorem withRet_roPending (v : RetVal) (s : State) : (withRet v s).roPending = s.roPending := rfl
@[simp] theorem withRet_roRetained (v : RetVal) (s : State) : (withRet v s).roRetained = s.roRetained := rfl
@[simp] theorem withRet_roIdx (v : RetVal) (s : State) : (withRet v s).roIdx = s.roIdx := rfl
@[simp] theorem withRet_roRetx (v : RetVal) (s : State) : (withRet v s).roRetx = s.roRetx := rfl
@[simp] theorem withRet_fault (v : RetVal) (s : State) : (withRet v s).fault = s.fault := rfl
@[simp] theorem withRet_txlog (v : RetVal) (s : State) : (withRet v s).txlog = s.txlog := rfl
@[simp] theorem withRet_diaglog (v : RetVal) (s : State) : (withRet v s).diaglog = s.diaglog := rfl
@[simp] theorem withRet_cfg (v : RetVal) (s : State) : (withRet v s).cfg = s.cfg := rfl
@[simp] theorem withRet_image (v : RetVal) (s : State) : (withRet v s).image = s.image := rfl
@[simp] theorem withRet_agenda (v : RetVal) (s : State) : (withRet v s).agenda = s.agenda := rfl
@[simp] theorem withRet_draws (v : RetVal) (s : State) : (withRet v s).draws = s.draws := rfl
@[simp] theorem withRet_ret (v : RetVal) (s : State) : (withRet v s).ret = v := rfl

/-! ### tick -/

@[simp] theorem tick_inq (s : State) : (tick s).inq = s.inq := rfl
@[simp] theorem tick_outq (s : State) : (tick s).outq = s.outq := rfl
@[simp] theorem tick_dlElapsed (s : State) : (tick s).dlElapsed = s.dlElapsed + 1 := rfl
@[simp] theorem tick_syncI (s : State) : (tick s).syncI = s.syncI := rfl
@[simp] theorem tick_syncDiscard (s : State) : (tick s).syncDiscard = s.syncDiscard := rfl
@[simp] theorem tick_seq (s : State) : (tick s).seq = s.seq := rfl
@[simp] theorem tick_command (s : State) : (tick s).command = s.command := rfl
@[simp] theorem tick_cmdValid (s : State) : (tick s).cmdValid = s.cmdValid := rfl
@[simp] theorem tick_fsm (s : State) : (tick s).fsm = s.fsm := rfl
@[simp] theorem tick_roPhase (s : State) : (tick s).roPhase = s.roPhase := rfl
@[simp] theorem tick_roBase (s : State) : (tick s).roBase = s.roBase := rfl
@[simp] theorem tick_roPending (s : State) : (tick s).roPending = s.roPending := rfl
@[simp] theorem tick_roRetained (s : State) : (tick s).roRetained = s.roRetained := rfl
@[simp] theorem tick_roIdx (s : State) : (tick s).roIdx = s.roIdx := rfl
@[simp] theorem tick_roRetx (s : State) : (tick s).roRetx = s.roRetx := rfl
@[simp] theorem tick_fault (s : State) : (tick s).fault = s.fault := rfl
@[simp] theorem tick_txlog (s : State) : (tick s).txlog = s.txlog := rfl
@[simp] theorem tick_diaglog (s : State) : (tick s).diaglog = s.diaglog := rfl
@[simp] theorem tick_cfg (s : State) : (tick s).cfg = s.cfg := rfl
@[simp] theorem tick_image (s : State) : (tick s).image = s.image := rfl
@[simp] theorem tick_agenda (s : State) : (tick s).agenda = s.agenda := rfl
@[simp] theorem tick_draws (s : State) : (tick s).draws = s.draws := rfl
@[simp] theorem tick_ret (s : State) : (tick s).ret = s.ret := rfl

/-! ### clear -/

@[simp] theorem clear_inq (s : State) : (clear s).inq = [] := rfl
@[simp] theorem clear_outq (s : State) : (clear s).outq = s.outq := rfl
@[simp] theorem clear_dlElapsed (s : State) : (clear s).dlElapsed = s.dlElapsed := rfl
@[simp] theorem clear_syncI (s : State) : (clear s).syncI = s.syncI := rfl
@[simp] theorem clear_syncDiscard (s : State) : (clear s).syncDiscard = s.syncDiscard := rfl
@[simp] theorem clear_seq (s : State) : (clear s).seq = s.seq := rfl
@[simp] theorem clear_command (s : State) : (clear s).command = s.command := rfl
@[simp] theorem clear_cmdValid (s : State) : (clear s).cmdValid = s.cmdValid := rfl
@[simp] theorem clear_fsm (s : State) : (clear s).fsm = s.fsm := rfl
@[simp] theorem clear_roPhase (s : State) : (clear s).roPhase = s.roPhase := rfl
@[simp] theorem clear_roBase (s : State) : (clear s).roBase = s.roBase := rfl
@[simp] theorem clear_roPending (s : State) : (clear s).roPending = s.roPending := rfl
@[simp] theorem clear_roRetained (s : State) : (clear s).roRetained = s.roRetained := rfl
@[simp] theorem clear_roIdx (s : State) : (clear s).roIdx = s.roIdx := rfl
@[simp] theorem clear_roRetx (s : State) : (clear s).roRetx = s.roRetx := rfl
@[simp] theorem clear_fault (s : State) : (clear s).fault = s.fault := rfl
@[simp] theorem clear_txlog (s : State) : (clear s).txlog = s.txlog := rfl
@[simp] theorem clear_diaglog (s : State) : (clear s).diaglog = s.diaglog := rfl
@[simp] theorem clear_cfg (s : State) : (clear s).cfg = s.cfg := rfl
@[simp] theorem clear_image (s : State) : (clear s).image = s.image := rfl
@[simp] theorem clear_agenda (s : State) : (clear s).agenda = s.agenda := rfl
@[simp] theorem clear_draws (s : State) : (clear s).draws = s.draws := rfl
@[simp] theorem clear_ret (s : State) : (clear s).ret = s.ret := rfl

/-! ### goto -/

@[simp] theorem goto_inq (f : Fsm) (s : State) : (goto f s).inq = s.inq := rfl
@[simp] theorem goto_outq (f : Fsm) (s : State) : (goto f s).outq = s.outq := rfl
@[simp] theorem goto_dlElapsed (f : Fsm) (s : State) : (goto f s).dlElapsed = s.dlElapsed := rfl
@[simp] theorem goto_syncI (f : Fsm) (s : State) : (goto f s).syncI = s.syncI := rfl
@[simp] theorem goto_syncDiscard (f : Fsm) (s : State) : (goto f s).syncDiscard = s.syncDiscard := rfl
@[simp] theorem goto_seq (f : Fsm) (s : State) : (goto f s).seq = s.seq := rfl
@[simp] theorem goto_command (f : Fsm) (s : State) : (goto f s).command = s.command := rfl
@[simp] theorem goto_cmdValid (f : Fsm) (s : State) : (goto f s).cmdValid = s.cmdValid := rfl
@[simp] theorem goto_fsm (f : Fsm) (s : State) : (goto f s).fsm = f := rfl
@[simp] theorem goto_roPhase (f : Fsm) (s : State) : (goto f s).roPhase = s.roPhase := rfl
@[simp] theorem goto_roBase (f : Fsm) (s : State) : (goto f s).roBase = s.roBase := rfl
@[simp] theorem goto_roPending (f : Fsm) (s : State) : (goto f s).roPending = s.roPending := rfl
@[simp] theorem goto_roRetained (f : Fsm) (s : State) : (goto f s).roRetained = s.roRetained := rfl
@[simp] theorem goto_roIdx (f : Fsm) (s : State) : (goto f s).roIdx = s.roIdx := rfl
@[simp] theorem goto_roRetx (f : Fsm) (s : State) : (goto f s).roRetx = s.roRetx := rfl
@[simp] theorem goto_fault (f : Fsm) (s : State) : (goto f s).fault = s.fault := rfl
@[simp] theorem goto_txlog (f : Fsm) (s : State) : (goto f s).txlog = s.txlog := rfl
@[simp] theorem goto_diaglog (f : Fsm) (s : State) : (goto f s).diaglog = s.diaglog := rfl
@[simp] theorem goto_cfg (f : Fsm) (s : State) : (goto f s).cfg = s.cfg := rfl
@[simp] theorem goto_image (f : Fsm) (s : State) : (goto f s).image = s.image := rfl
@[simp] theorem goto_agenda (f : Fsm) (s : State) : (goto f s).agenda = s.agenda := rfl
@[simp] theorem goto_draws (f : Fsm) (s : State) : (goto f s).draws = s.draws := rfl
@[simp] theorem goto_ret (f : Fsm) (s : State) : (goto f s).ret = s.ret := rfl

/-! ### writeCommand -/

@[simp] theorem writeCommand_inq (c : Command) (s : State) : (writeCommand c s).inq = s.inq := rfl
@[simp] theorem writeCommand_outq (c : Command) (s : State) : (writeCommand c s).outq = s.outq := rfl
@[simp] theorem writeCommand_dlElapsed (c : Command) (s : State) : (writeCommand c s).dlElapsed = s.dlElapsed := rfl
@[simp] theorem writeCommand_syncI (c : Command) (s : State) : (writeCommand c s).syncI = s.syncI := rfl
@[simp] theorem writeCommand_syncDiscard (c : Command) (s : State) : (writeCommand c s).syncDiscard = s.syncDiscard := rfl
@[simp] theorem writeCommand_seq (c : Command) (s : State) : (writeCommand c s).seq = s.seq := rfl
@[simp] theorem writeCommand_command (c : Command) (s : State) : (writeCommand c s).command = c := rfl
@[simp] theorem writeCommand_cmdValid (c : Command) (s : State) : (writeCommand c s).cmdValid = true := rfl
@[simp] theorem writeCommand_fsm (c : Command) (s : State) : (writeCommand c s).fsm = s.fsm := rfl
@[simp] theorem writeCommand_roPhase (c : Command) (s : State) : (writeCommand c s).roPhase = s.roPhase := rfl
@[simp] theorem writeCommand_roBase (c : Command) (s : State) : (writeCommand c s).roBase = s.roBase := rfl
@[simp] theorem writeCommand_roPending (c : Command) (s : State) : (writeCommand c s).roPending = s.roPending := rfl
@[simp] theorem writeCommand_roRetained (c : Command) (s : State) : (writeCommand c s).roRetained = s.roRetained := rfl
@[simp] theorem writeCommand_roIdx (c : Command) (s : State) : (writeCommand c s).roIdx = s.roIdx := rfl
@[simp] theorem writeCommand_roRetx (c : Command) (s : State) : (writeCommand c s).roRetx = s.roRetx := rfl
@[simp] theorem writeCommand_fault (c : Command) (s : State) : (writeCommand c s).fault = s.fault := rfl
@[simp] theorem writeCommand_txlog (c : Command) (s : State) : (writeCommand c s).txlog = s.txlog := rfl
@[simp] theorem writeCommand_diaglog (c : Command) (s : State) : (writeCommand c s).diaglog = s.diaglog := rfl
@[simp] theorem writeCommand_cfg (c : Command) (s : State) : (writeCommand c s).cfg = s.cfg := rfl
@[simp] theorem writeCommand_image (c : Command) (s : State) : (writeCommand c s).image = s.image := rfl
@[simp] theorem writeCommand_agenda (c : Command) (s : State) : (writeCommand c s).agenda = s.agenda := rfl
@[simp] theorem writeCommand_draws (c : Command) (s : State) : (writeCommand c s).draws = s.draws := rfl
@[simp] theorem writeCommand_ret (c : Command) (s : State) : (writeCommand c s).ret = s.ret := rfl

/-! ### roEndround -/

@[simp] theorem roEndround_inq (s : State) : (roEndround s).inq = s.inq := rfl
@[simp] theorem roEndround_outq (s : State) : (roEndround s).outq = s.outq := rfl
@[simp] theorem roEndround_dlElapsed (s : State) : (roEndround s).dlElapsed = s.dlElapsed := rfl
@[simp] theorem roEndround_syncI (s : State) : (roEndround s).syncI = s.syncI := rfl
@[simp] theorem roEndround_syncDiscard (s : State) : (roEndround s).syncDiscard = s.syncDiscard := rfl
@[simp] theorem roEndround_seq (s : State) : (roEndround s).seq = s.seq := rfl
@[simp] theorem roEndround_command (s : State) : (roEndround s).command = s.command := rfl
@[simp] theorem roEndround_cmdValid (s : State) : (roEndround s).cmdValid = s.cmdValid := rfl
@[simp] theorem roEndround_fsm (s : State) : (roEndround s).fsm = s.fsm := rfl
@[simp] theorem roEndround_roPhase (s : State) : (roEndround s).roPhase = .send := rfl
@[simp] theorem roEndround_roBase (s : State) : (roEndround s).roBase = s.roBase := rfl
@[simp] theorem roEndround_roPending (s : State) : (roEndround s).roPending = s.roRetained := rfl
@[simp] theorem roEndround_roRetained (s : State) : (roEndround s).roRetained = [] := rfl
@[simp] theorem roEndround_roIdx (s : State) : (roEndround s).roIdx = 0 := rfl
@[simp] theorem roEndround_roRetx (s : State) : (roEndround s).roRetx = s.roRetx := rfl
@[simp] theorem roEndround_fault (s : State) : (roEndround s).fault = s.fault := rfl
@[simp] theorem roEndround_txlog (s : State) : (roEndround s).txlog = s.txlog := rfl
@[simp] theorem roEndround_diaglog (s : State) : (roEndround s).diaglog = s.diaglog := rfl
@[simp] theorem roEndround_cfg (s : State) : (roEndround s).cfg = s.cfg := rfl
@[simp] theorem roEndround_image (s : State) : (roEndround s).image = s.image := rfl
@[simp] theorem roEndround_agenda (s : State) : (roEndround s).agenda = s.agenda := rfl
@[simp] theorem roEndround_draws (s : State) : (roEndround s).draws = s.draws := rfl
@[simp] theorem roEndround_ret (s : State) : (roEndround s).ret = s.ret := rfl

/-! ### dropOffer -/

@[simp] theorem dropOffer_inq (s : State) : (dropOffer s).inq = s.inq := rfl
@[simp] theorem dropOffer_outq (s : State) : (dropOffer s).outq = s.outq := rfl
@[simp] theorem dropOffer_dlElapsed (s : State) : (dropOffer s).dlElapsed = s.dlElapsed := rfl
@[simp] theorem dropOffer_syncI (s : State) : (dropOffer s).syncI = s.syncI := rfl
@[simp] theorem dropOffer_syncDiscard (s : State) : (dropOffer s).syncDiscard = s.syncDiscard := rfl
@[simp] theorem dropOffer_seq (s : State) : (dropOffer s).seq = s.seq := rfl
@[simp] theorem dropOffer_command (s : State) : (dropOffer s).command = s.command := rfl
@[simp] theorem dropOffer_cmdValid (s : State) : (dropOffer s).cmdValid = s.cmdValid := rfl
@[simp] theorem dropOffer_fsm (s : State) : (dropOffer s).fsm = s.fsm := rfl
@[simp] theorem dropOffer_roPhase (s : State) : (dropOffer s).roPhase = s.roPhase := rfl
@[simp] theorem dropOffer_roBase (s : State) : (dropOffer s).roBase = s.roBase := rfl
@[simp] theorem dropOffer_roPending (s : State) : (dropOffer s).roPending = s.roPending := rfl
@[simp] theorem dropOffer_roRetained (s : State) : (dropOffer s).roRetained = s.roRetained := rfl
@[simp] theorem dropOffer_roIdx (s : State) : (dropOffer s).roIdx = s.roIdx := rfl
@[simp] theorem dropOffer_roRetx (s : State) : (dropOffer s).roRetx = s.roRetx := rfl
@[simp] theorem dropOffer_fault (s : State) : (dropOffer s).fault = s.fault := rfl
@[simp] theorem dropOffer_txlog (s : State) : (dropOffer s).txlog = s.txlog := rfl
@[simp] theorem dropOffer_diaglog (s : State) : (dropOffer s).diaglog = s.diaglog := rfl
@[simp] theorem dropOffer_cfg (s : State) : (dropOffer s).cfg = s.cfg := rfl
@[simp] theorem dropOffer_image (s : State) : (dropOffer s).image = s.image := rfl
@[simp] theorem dropOffer_agenda (s : State) : (dropOffer s).agenda = s.agenda.drop 1 := rfl
@[simp] theorem dropOffer_draws (s : State) : (dropOffer s).draws = s.draws := rfl
@[simp] theorem dropOffer_ret (s : State) : (dropOffer s).ret = s.ret := rfl

/-! ### resetEvent -/

@[simp] theorem resetEvent_inq (s : State) : (resetEvent s).inq = [] := rfl
@[simp] theorem resetEvent_outq (s : State) : (resetEvent s).outq = [] := rfl
@[simp] theorem resetEvent_dlElapsed (s : State) : (resetEvent s).dlElapsed = 0 := rfl
@[simp] theorem resetEvent_syncI (s : State) : (resetEvent s).syncI = 0 := rfl
@[simp] theorem resetEvent_syncDiscard (s : State) : (resetEvent s).syncDiscard = 0 := rfl
@[simp] theorem resetEvent_seq (s : State) : (resetEvent s).seq = some s.cfg.sync := rfl
@[simp] theorem resetEvent_command (s : State) : (resetEvent s).command = ⟨0#16, 0#16, 0#16, 0#8, 0#8, 0#8⟩ := rfl
@[simp] theorem resetEvent_cmdValid (s : State) : (resetEvent s).cmdValid = false := rfl
@[simp] theorem resetEvent_fsm (s : State) : (resetEvent s).fsm = .waitSync := rfl
@[simp] theorem resetEvent_roPhase (s : State) : (resetEvent s).roPhase = .none := rfl
@[simp] theorem resetEvent_roBase (s : State) : (resetEvent s).roBase = 0#16 := rfl
@[simp] theorem resetEvent_roPending (s : State) : (resetEvent s).roPending = [] := rfl
@[simp] theorem resetEvent_roRetained (s : State) : (resetEvent s).roRetained = [] := rfl
@[simp] theorem resetEvent_roIdx (s : State) : (resetEvent s).roIdx = 0 := rfl
@[simp] theorem resetEvent_roRetx (s : State) : (resetEvent s).roRetx = 0 := rfl
@[simp] theorem resetEvent_fault (s : State) : (resetEvent s).fault = .none := rfl
@[simp] theorem resetEvent_txlog (s : State) : (resetEvent s).txlog = [] := rfl
@[simp] theorem resetEvent_diaglog (s : State) : (resetEvent s).diaglog = [] := rfl
@[simp] theorem resetEvent_cfg (s : State) : (resetEvent s).cfg = s.cfg := rfl
@[simp] theorem resetEvent_image (s : State) : (resetEvent s).image = s.image := rfl
@[simp] theorem resetEvent_agenda (s : State) : (resetEvent s).agenda = s.agenda := rfl
@[simp] theorem resetEvent_draws (s : State) : (resetEvent s).draws = s.draws := rfl
@[simp] theorem resetEvent_ret (s : State) : (resetEvent s).ret = .none := rfl

/-! ### flush -/

@[simp] theorem flush_inq (s : State) : (flush s).inq = s.inq := by unfold flush takeAll; dsimp only; split <;> rfl
@[simp] theorem flush_dlElapsed (s : State) : (flush s).dlElapsed = s.dlElapsed := by unfold flush takeAll; dsimp only; split <;> rfl
@[simp] theorem flush_syncI (s : State) : (flush s).syncI = s.syncI := by unfold flush takeAll; dsimp only; split <;> rfl
@[simp] theorem flush_syncDiscard (s : State) : (flush s).syncDiscard = s.syncDiscard := by unfold flush takeAll; dsimp only; split <;> rfl
@[simp] theorem flush_seq (s : State) : (flush s).seq = s.seq := by unfold flush takeAll; dsimp only; split <;> rfl
@[simp] theorem flush_command (s : State) : (flush s).command = s.command := by unfold flush takeAll; dsimp only; split <;> rfl
@[simp] theorem flush_cmdValid (s : State) : (flush s).cmdValid = s.cmdValid := by unfold flush takeAll; dsimp only; split <;> rfl
@[simp] theorem flush_fsm (s : State) : (flush s).fsm = s.fsm := by unfold flush takeAll; dsimp only; split <;> rfl
@[simp] theorem flush_roPhase (s : State) : (flush s).roPhase = s.roPhase := by unfold flush takeAll; dsimp only; split <;> rfl
@[simp] theorem flush_roBase (s : State) : (flush s).roBase = s.roBase := by unfold flush takeAll; dsimp only; split <;> rfl
@[simp] theorem flush_roPending (s : State) : (flush s).roPending = s.roPending := by unfold flush takeAll; dsimp only; split <;> rfl
@[simp] theorem flush_roRetained (s : State) : (flush s).roRetained = s.roRetained := by unfold flush takeAll; dsimp only; split <;> rfl
@[simp] theorem flush_roIdx (s : State) : (flush s).roIdx = s.roIdx := by unfold flush takeAll; dsimp only; split <;> rfl
@[simp] theorem flush_roRetx (s : State) : (flush s).roRetx = s.roRetx := by unfold flush takeAll; dsimp only; split <;> rfl
@[simp] theorem flush_fault (s : State) : (flush s).fault = s.fault := by unfold flush takeAll; dsimp only; split <;> rfl
@[simp] theorem flush_diaglog (s : State) : (flush s).diaglog = s.diaglog := by unfold flush takeAll; dsimp only; split <;> rfl
@[simp] theorem flush_cfg (s : State) : (flush s).cfg = s.cfg := by unfold flush takeAll; dsimp only; split <;> rfl
@[simp] theorem flush_image (s : State) : (flush s).image = s.image := by unfold flush takeAll; dsimp only; split <;> rfl
@[simp] theorem flush_agenda (s : State) : (flush s).agenda = s.agenda := by unfold flush takeAll; dsimp only; split <;> rfl
@[simp] theorem flush_draws (s : State) : (flush s).draws = s.draws := by unfold flush takeAll; dsimp only; split <;> rfl
@[simp] theorem flush_ret (s : State) : (flush s).ret = s.ret := by unfold flush takeAll; dsimp only; split <;> rfl

/-! ### takeEcho -/

@[simp] theorem takeEcho_inq (blk : DataBlock) (e : Byte) (s : State) : (takeEcho blk e s).inq = s.inq := by unfold takeEcho; split <;> rfl
@[simp] theorem takeEcho_outq (blk : DataBlock) (e : Byte) (s : State) : (takeEcho blk e s).outq = s.outq := by unfold takeEcho; split <;> rfl
@[simp] theorem takeEcho_dlElapsed (blk : DataBlock) (e : Byte) (s : State) : (takeEcho blk e s).dlElapsed = s.dlElapsed := by unfold takeEcho; split <;> rfl
@[simp] theorem takeEcho_syncI (blk : DataBlock) (e : Byte) (s : State) : (takeEcho blk e s).syncI = s.syncI := by unfold takeEcho; split <;> rfl
@[simp] theorem takeEcho_syncDiscard (blk : DataBlock) (e : Byte) (s : State) : (takeEcho blk e s).syncDiscard = s.syncDiscard := by unfold takeEcho; split <;> rfl
@[simp] theorem takeEcho_seq (blk : DataBlock) (e : Byte) (s : State) : (takeEcho blk e s).seq = s.seq := by unfold takeEcho; split <;> rfl
@[simp] theorem takeEcho_command (blk : DataBlock) (e : Byte) (s : State) : (takeEcho blk e s).command = s.command := by unfold takeEcho; split <;> rfl
@[simp] theorem takeEcho_cmdValid (blk : DataBlock) (e : Byte) (s : State) : (takeEcho blk e s).cmdValid = s.cmdValid := by unfold takeEcho; split <;> rfl
@[simp] theorem takeEcho_fsm (blk : DataBlock) (e : Byte) (s : State) : (takeEcho blk e s).fsm = s.fsm := by unfold takeEcho; split <;> rfl
@[simp] theorem takeEcho_roPhase (blk : DataBlock) (e : Byte) (s : State) : (takeEcho blk e s).roPhase = s.roPhase := by unfold takeEcho; split <;> rfl
@[simp] theorem takeEcho_roBase (blk : DataBlock) (e : Byte) (s : State) : (takeEcho blk e s).roBase = s.roBase := by unfold takeEcho; split <;> rfl
@[simp] theorem takeEcho_roPending (blk : DataBlock) (e : Byte) (s : State) : (takeEcho blk e s).roPending = s.roPending := by unfold takeEcho; split <;> rfl
@[simp] theorem takeEcho_fault (blk : DataBlock) (e : Byte) (s : State) : (takeEcho blk e s).fault = s.fault := by unfold takeEcho; split <;> rfl
@[simp] theorem takeEcho_txlog (blk : DataBlock) (e : Byte) (s : State) : (takeEcho blk e s).txlog = s.txlog := by unfold takeEcho; split <;> rfl
@[simp] theorem takeEcho_diaglog (blk : DataBlock) (e : Byte) (s : State) : (takeEcho blk e s).diaglog = s.diaglog := by unfold takeEcho; split <;> rfl
@[simp] theorem takeEcho_cfg (blk : DataBlock) (e : Byte) (s : State) : (takeEcho blk e s).cfg = s.cfg := by unfold takeEcho; split <;> rfl
@[simp] theorem takeEcho_image (blk : DataBlock) (e : Byte) (s : State) : (takeEcho blk e s).image = s.image := by unfold takeEcho; split <;> rfl
@[simp] theorem takeEcho_agenda (blk : DataBlock) (e : Byte) (s : State) : (takeEcho blk e s).agenda = s.agenda := by unfold takeEcho; split <;> rfl
@[simp] theorem takeEcho_draws (blk : DataBlock) (e : Byte) (s : State) : (takeEcho blk e s).draws = s.draws := by unfold takeEcho; split <;> rfl
@[simp] theorem takeEcho_ret (blk : DataBlock) (e : Byte) (s : State) : (takeEcho blk e s).ret = s.ret := by unfold takeEcho; split <;> rfl

@[simp] theorem flush_outq (s : State) : (flush s).outq = [] := by unfold flush takeAll; dsimp only; split <;> rfl
theorem flush_txlog (s : State) : (flush s).txlog = if s.outq = [] then s.txlog else s.txlog ++ [s.outq] := by
  unfold flush takeAll; dsimp only; split <;> rfl
@[simp] theorem takeEcho_roIdx (blk : DataBlock) (e : Byte) (s : State) : (takeEcho blk e s).roIdx = s.roIdx + 1 := by
  unfold takeEcho; split <;> rfl
theorem takeEcho_roRetained (blk : DataBlock) (e : Byte) (s : State) :
    (takeEcho blk e s).roRetained = if e = blk.marker then s.roRetained else s.roRetained ++ [blk] := by
  unfold takeEcho; split <;> rfl
theorem takeEcho_roRetx (blk : DataBlock) (e : Byte) (s : State) :
    (takeEcho blk e s).roRetx = if e = blk.marker then s.roRetx else s.roRetx + 1 := by
  unfold takeEcho; split <;> rfl

end Sys2Proof.Machine
end

