-- ==== Sys2Proof/Laws/Ops.lean ====
section
/-! SUPPORT. What each shared operation can do, said once. -/

namespace Sys2Proof.Machine

/-! ### Results -/

@[simp] theorem Res.andThen_ok {α β : Type} (v : α) (s : State) (k : α → State → Res β) :
    (Res.ok v s).andThen k = k v s := rfl

@[simp] theorem Res.andThen_raised {α β : Type} (c : ErrCode) (i : ErrInfo) (s : State) (k : α → State → Res β) :
    (Res.raised c i s : Res α).andThen k = .raised c i s := rfl

theorem Res.andThen_assoc {α β γ : Type} (r : Res α) (k : α → State → Res β) (l : β → State → Res γ) :
    (r.andThen k).andThen l = r.andThen fun v s => (k v s).andThen l := by cases r <;> rfl

@[simp] theorem Res.finish_ok {α : Type} (v : α) (s : State) (k : α → State → State) :
    (Res.ok v s).finish k = .next (k v s) := rfl

@[simp] theorem Res.finish_raised {α : Type} (c : ErrCode) (i : ErrInfo) (s : State) (k : α → State → State) :
    (Res.raised c i s : Res α).finish k = .next (takeError c i s) := rfl

@[simp] theorem Wait.finish_complete {α : Type} (v : α) (s : State) (k) :
    (Wait.complete v s).finish k = k v s := rfl

@[simp] theorem Wait.finish_suspended {α : Type} (s : State) (k) : (Wait.suspended s : Wait α).finish k = .next s := rfl

@[simp] theorem Wait.finish_timeout {α : Type} (i : ErrInfo) (s : State) (k) :
    (Wait.timeout i s : Wait α).finish k = .next (recovery i s) := rfl

theorem takeError_fatal {c : ErrCode} (h : c ≠ .protocolTimeout) (i : ErrInfo) (s : State) :
    takeError c i s = fatal c i s := by simp [takeError, h]

/-- A result, whether a value or a raise, in a state that meets `P`. -/
def Res.Ends {α : Type} (P : State → Prop) : Res α → Prop
  | .ok _ s => P s
  | .raised _ _ s => P s

theorem Res.Ends.andThen {α β : Type} {P Q : State → Prop} {r : Res α} {k : α → State → Res β} (h : r.Ends P)
    (hPQ : ∀ s, P s → Q s) (hk : ∀ v s, P s → (k v s).Ends Q) : (r.andThen k).Ends Q := by
  cases r with
  | ok v s => exact hk v s h
  | raised c i s => exact hPQ s h

theorem Res.Ends.imp {α : Type} {P Q : State → Prop} {r : Res α} (h : r.Ends P) (hPQ : ∀ s, P s → Q s) : r.Ends Q := by
  cases r <;> exact hPQ _ h

/-- The codes a result may raise. -/
def Res.Raises {α : Type} (C : ErrCode → Prop) : Res α → Prop
  | .ok _ _ => True
  | .raised c _ _ => C c

theorem Res.Raises.andThen {α β : Type} {C : ErrCode → Prop} {r : Res α} {k : α → State → Res β} (h : r.Raises C)
    (hk : ∀ v s, (k v s).Raises C) : (r.andThen k).Raises C := by
  cases r with
  | ok v s => exact hk v s
  | raised c i s => exact h

/-- An action that raises only fatal errors ends in `k` of its result, or in a fatal fault in a state it reached. -/
theorem Res.finish_cases {α : Type} {P : State → Prop} {C : ErrCode → Prop} {r : Res α} {k : α → State → State}
    {t : State} (h : r.finish k = .next t) (hP : r.Ends P) (hC : r.Raises C) (hT : ¬ C .protocolTimeout) :
    (∃ v s, P s ∧ r = .ok v s ∧ t = k v s) ∨ ∃ c i s, P s ∧ C c ∧ r = .raised c i s ∧ t = fatal c i s := by
  cases r with
  | ok v s => exact .inl ⟨v, s, hP, rfl, by simpa using h.symm⟩
  | raised c i s =>
    refine .inr ⟨c, i, s, hP, hC, rfl, ?_⟩
    have hc : c ≠ .protocolTimeout := fun e => hT (e ▸ hC)
    simpa [takeError_fatal hc] using h.symm

/-! ### ENG's guard -/

@[simp] theorem engineOnly_running {s : State} (h : s.fsm ≠ .halted) (act) : engineOnly s act = act s := by
  simp [engineOnly, h]

@[simp] theorem engineOnly_halted {s : State} (h : s.fsm = .halted) (act) : engineOnly s act = .next s := by
  simp [engineOnly, h]

/-! ### Deadline and waits -/

theorem expired_iff (s : State) : expired s = true ↔ s.cfg.timeoutMs ≤ s.dlElapsed * s.cfg.tickMs := by simp [expired]

theorem not_expired_iff (s : State) : expired s = false ↔ s.dlElapsed * s.cfg.tickMs < s.cfg.timeoutMs := by
  simp [expired]

theorem suspend_progress {α : Type} {info : ErrInfo} {p : State → Wait α} {s : State}
    (h : s.dlElapsed * s.cfg.tickMs < s.cfg.timeoutMs) : suspend true info p s = p s := by
  simp [suspend, (not_expired_iff s).2 h]

theorem suspend_hold {α : Type} {info : ErrInfo} {p : State → Wait α} {s : State}
    (h : s.dlElapsed * s.cfg.tickMs < s.cfg.timeoutMs) : suspend false info p s = .suspended s := by
  simp [suspend, (not_expired_iff s).2 h]

theorem suspend_timeout {α : Type} {info : ErrInfo} {p : State → Wait α} {s : State}
    (h : s.cfg.timeoutMs ≤ s.dlElapsed * s.cfg.tickMs) : suspend false info p s = .timeout info s := by
  simp [suspend, (expired_iff s).2 h]

/-- R60 where both hold: whatever the draw is, one of the two. -/
theorem suspend_draw {α : Type} {info : ErrInfo} {p : State → Wait α} {s : State}
    (h : s.cfg.timeoutMs ≤ s.dlElapsed * s.cfg.tickMs) :
    suspend true info p s = p { s with draws := s.draws + 1 } ∨
      suspend true info p s = .timeout info { s with draws := s.draws + 1 } := by
  cases hd : Config.drawTimeout s.draws <;> simp [suspend, (expired_iff s).2 h, hd]

/-- Everything an evaluation of a wait can be (R60). -/
theorem suspend_cases {α : Type} (ready : Bool) (info : ErrInfo) (p : State → Wait α) (s : State) :
    (ready = true ∧ suspend ready info p s = p s ∧ s.dlElapsed * s.cfg.tickMs < s.cfg.timeoutMs) ∨
    (ready = true ∧ suspend ready info p s = p { s with draws := s.draws + 1 }) ∨
    (ready = true ∧ suspend ready info p s = .timeout info { s with draws := s.draws + 1 }) ∨
    (ready = false ∧ suspend ready info p s = .timeout info s) ∨
    (ready = false ∧ suspend ready info p s = .suspended s) := by
  rcases Nat.lt_or_ge (s.dlElapsed * s.cfg.tickMs) s.cfg.timeoutMs with h | h <;> cases ready
  · exact .inr (.inr (.inr (.inr ⟨rfl, suspend_hold h⟩)))
  · exact .inl ⟨rfl, suspend_progress h, h⟩
  · exact .inr (.inr (.inr (.inl ⟨rfl, suspend_timeout h⟩)))
  · rcases suspend_draw (info := info) (p := p) h with e | e
    · exact .inr (.inl ⟨rfl, e⟩)
    · exact .inr (.inr (.inl ⟨rfl, e⟩))

/-! ### Queues -/

theorem fits_iff (depth : Option Nat) (n k : Nat) : fits depth n k = true ↔ ∀ d, depth = some d → n + k ≤ d := by
  cases depth <;> simp [fits]

/-- An unbounded queue has room for anything. -/
theorem State.inRoom_none {s : State} (h : s.cfg.inDepth = none) (n : Nat) : s.inRoom n := by simp [State.inRoom, h]

theorem State.outRoom_none {s : State} (h : s.cfg.outDepth = none) (n : Nat) : s.outRoom n := by simp [State.outRoom, h]

theorem State.inRoom_some {s : State} {d : Nat} (h : s.cfg.inDepth = some d) (n : Nat) :
    s.inRoom n ↔ s.inq.length + n ≤ d := by simp [State.inRoom, h]

theorem State.outRoom_some {s : State} {d : Nat} (h : s.cfg.outDepth = some d) (n : Nat) :
    s.outRoom n ↔ s.outq.length + n ≤ d := by simp [State.outRoom, h]

theorem append_room {bs : List Byte} {s : State} (h : s.inRoom bs.length) :
    append bs s = .ok () { s with inq := s.inq ++ bs } := by simp [append, (fits_iff _ _ _).2 h]

theorem append_full {bs : List Byte} {s : State} (h : ¬ s.inRoom bs.length) :
    append bs s = .raised .queueOverflow (.queue .inbound s.inq.length bs.length) s := by
  simp [append, show ¬ fits s.cfg.inDepth s.inq.length bs.length = true from fun e => h ((fits_iff _ _ _).1 e)]

theorem outPush_room {bs : List Byte} {s : State} (h : s.outRoom bs.length) :
    outPush bs s = .ok () (pushed bs s) := by simp [outPush, (fits_iff _ _ _).2 h]

theorem outPush_full {bs : List Byte} {s : State} (h : ¬ s.outRoom bs.length) :
    outPush bs s = .raised .queueOverflow (.queue .outbound s.outq.length bs.length) s := by
  simp [outPush, show ¬ fits s.cfg.outDepth s.outq.length bs.length = true from fun e => h ((fits_iff _ _ _).1 e)]

theorem State.outRoom.mono {s : State} {n k : Nat} (h : s.outRoom n) (hk : k ≤ n) : s.outRoom k := fun d hd =>
  Nat.le_trans (Nat.add_le_add_left hk _) (h d hd)

/-- Room for `m` more bytes after a push of `bs` is room for both before it. -/
@[simp] theorem outRoom_push {s : State} {bs : List Byte} {m : Nat} :
    (pushed bs s).outRoom m ↔ s.outRoom (bs.length + m) := by
  simp [State.outRoom, Nat.add_assoc]

/-- Everything an `OutPush` can do. -/
theorem outPush_cases (bs : List Byte) (s : State) :
    outPush bs s = .ok () (pushed bs s) ∨
      outPush bs s = .raised .queueOverflow (.queue .outbound s.outq.length bs.length) s := by
  unfold outPush; split
  · exact .inl rfl
  · exact .inr rfl

/-! ### What builders and frames can do: bytes pushed at the tail of `outq`, and nothing else -/

/-- Some bytes were pushed and nothing else changed. -/
def Pushed (s t : State) : Prop := ∃ bs, t = pushed bs s

theorem Pushed.refl (s : State) : Pushed s s := ⟨[], by simp⟩

theorem Pushed.trans {s t u : State} (h : Pushed s t) (k : Pushed t u) : Pushed s u := by
  obtain ⟨bs, rfl⟩ := h
  obtain ⟨cs, rfl⟩ := k
  exact ⟨bs ++ cs, by simp⟩

/-- The errors a builder or a frame can raise. -/
def PushError (c : ErrCode) : Prop :=
  c = .queueOverflow ∨ c = .blockLength ∨ c = .markerExhausted ∨ c = .fieldOverflow

theorem outPush_ends (bs : List Byte) (s : State) : (outPush bs s).Ends (Pushed s) := by
  rcases outPush_cases bs s with h | h <;> rw [h]
  · exact ⟨bs, rfl⟩
  · exact Pushed.refl s

theorem outPush_raises (bs : List Byte) (s : State) : (outPush bs s).Raises PushError := by
  rcases outPush_cases bs s with h | h <;> rw [h]
  · trivial
  · exact .inl rfl

theorem findMarker_ends (p : List Byte) (s : State) : (findMarker p s).Ends (· = s) := by
  unfold findMarker; cases marker p <;> rfl

theorem findMarker_raises (p : List Byte) (s : State) : (findMarker p s).Raises PushError := by
  unfold findMarker; cases marker p
  · exact .inr (.inr (.inl rfl))
  · trivial

theorem construct_ends (p : List Byte) (s : State) : (construct p s).Ends (· = s) := by
  unfold construct; split
  · exact (findMarker_ends p s).andThen (fun _ h => h) fun _ _ h => h
  · rfl

theorem construct_raises (p : List Byte) (s : State) : (construct p s).Raises PushError := by
  unfold construct; split
  · exact (findMarker_raises p s).andThen fun _ _ => trivial
  · exact .inr (.inl rfl)

/-- A chain of builders pushes, if every link does. -/
theorem Res.Ends.pushThen {α β : Type} {s : State} {r : Res α} {k : α → State → Res β} (h : r.Ends (Pushed s))
    (hk : ∀ v s, (k v s).Ends (Pushed s)) : (r.andThen k).Ends (Pushed s) :=
  h.andThen (fun _ h => h) fun v s' h' => (hk v s').imp fun _ h'' => h'.trans h''

theorem addBlock_ends (p : List Byte) (s : State) : (addBlock p s).Ends (Pushed s) := by
  unfold addBlock; split
  · exact (findMarker_ends p s).andThen (fun _ h => h ▸ Pushed.refl s) fun _ _ h => h ▸ outPush_ends _ _
  · exact Pushed.refl s

theorem addBlock_raises (p : List Byte) (s : State) : (addBlock p s).Raises PushError := by
  unfold addBlock; split
  · exact (findMarker_raises p s).andThen fun _ _ => outPush_raises _ _
  · exact .inr (.inl rfl)

theorem addBlocks_ends (ps : List (List Byte)) : ∀ s : State, (addBlocks ps s).Ends (Pushed s) := by
  induction ps with
  | nil => exact fun s => Pushed.refl s
  | cons p ps ih => exact fun s => (addBlock_ends p s).pushThen fun _ s => ih s

theorem addBlocks_raises (ps : List (List Byte)) : ∀ s : State, (addBlocks ps s).Raises PushError := by
  induction ps with
  | nil => exact fun _ => trivial
  | cons p ps ih => exact fun s => (addBlock_raises p s).andThen fun _ s => ih s

theorem frameExit_ends (s : State) : (frameExit s).Ends (Pushed s) := (outPush_ends _ s).pushThen fun _ s => outPush_ends _ s

theorem frameExit_raises (s : State) : (frameExit s).Raises PushError := (outPush_raises _ s).andThen fun _ s => outPush_raises _ s

theorem frameReply_ends (bs : List Byte) (s : State) : (frameReply bs s).Ends (Pushed s) :=
  (outPush_ends _ s).pushThen fun _ s => outPush_ends _ s

theorem frameReply_raises (bs : List Byte) (s : State) : (frameReply bs s).Raises PushError :=
  (outPush_raises _ s).andThen fun _ s => outPush_raises _ s

theorem frameSlow_ends (d : Word) (p : List Byte) (s : State) : (frameSlow d p s).Ends (Pushed s) :=
  (outPush_ends _ s).pushThen fun _ s => (outPush_ends _ s).pushThen fun _ s => (outPush_ends _ s).pushThen fun _ s =>
    (outPush_ends _ s).pushThen fun _ s => addBlock_ends p s

theorem frameSlow_raises (d : Word) (p : List Byte) (s : State) : (frameSlow d p s).Raises PushError :=
  (outPush_raises _ s).andThen fun _ s => (outPush_raises _ s).andThen fun _ s => (outPush_raises _ s).andThen fun _ s =>
    (outPush_raises _ s).andThen fun _ s => addBlock_raises p s

theorem frameFast_ends (e : Word) (ps : List (List Byte)) (s : State) : (frameFast e ps s).Ends (Pushed s) := by
  unfold frameFast; split
  · exact Pushed.refl s
  · exact (outPush_ends _ s).pushThen fun _ s => (outPush_ends _ s).pushThen fun _ s =>
      (outPush_ends _ s).pushThen fun _ s => (outPush_ends _ s).pushThen fun _ s => addBlocks_ends ps s

theorem frameFast_raises (e : Word) (ps : List (List Byte)) (s : State) : (frameFast e ps s).Raises PushError := by
  unfold frameFast; split
  · exact .inr (.inr (.inr rfl))
  · exact (outPush_raises _ s).andThen fun _ s => (outPush_raises _ s).andThen fun _ s =>
      (outPush_raises _ s).andThen fun _ s => (outPush_raises _ s).andThen fun _ s => addBlocks_raises ps s

/-! ### What builders and frames push -/

theorem addBlock_legal {p : List Byte} {m : Byte} {s : State} (hl : 1 ≤ p.length) (hu : p.length ≤ s.cfg.maxPayload)
    (hm : marker p = some m) : addBlock p s = outPush ([m] ++ p ++ [m]) s := by
  simp [addBlock, (legalPayload_iff s.cfg p).2 ⟨hl, hu⟩, findMarker, hm]

theorem addBlock_illegal {p : List Byte} {s : State} (h : p.length < 1 ∨ s.cfg.maxPayload < p.length) :
    addBlock p s = .raised .blockLength (.payloadLength p.length) s := by
  have : ¬ legalPayload s.cfg p = true := by rw [legalPayload_iff]; omega
  simp [addBlock, this]

/-- All of `bs` is pushed, or there is no room for it and `QueueOverflow` is raised at the first part of it that does not
fit, the parts before it pushed. -/
def Res.PushesAll (bs : List Byte) (s : State) (r : Res Unit) : Prop :=
  (s.outRoom bs.length ∧ r = .ok () (pushed bs s)) ∨
    (¬ s.outRoom bs.length ∧ ∃ sent req, sent <+: bs ∧ sent.length + req ≤ bs.length ∧ ¬ s.outRoom (sent.length + req) ∧
      r = .raised .queueOverflow (.queue .outbound (s.outq.length + sent.length) req) (pushed sent s))

theorem Res.PushesAll.room {bs : List Byte} {s : State} {r : Res Unit} (h : r.PushesAll bs s) (hr : s.outRoom bs.length) :
    r = .ok () (pushed bs s) := by
  rcases h with ⟨_, h⟩ | ⟨h, _⟩
  · exact h
  · exact absurd hr h

/-- Where there is no room the action is taken as the fatal overflow of `outOverflowed`. -/
theorem Res.PushesAll.full {bs : List Byte} {s : State} {r : Res Unit} (h : r.PushesAll bs s) (hr : ¬ s.outRoom bs.length)
    (k : Unit → State → State) : ∃ t, r.finish k = .next t ∧ s.outOverflowed bs t := by
  rcases h with ⟨h, _⟩ | ⟨_, sent, req, h1, h2, h3, rfl⟩
  · exact absurd h hr
  · exact ⟨_, rfl, sent, req, h1, h2, h3, rfl⟩

theorem outPush_all (bs : List Byte) (s : State) : (outPush bs s).PushesAll bs s := by
  by_cases h : s.outRoom bs.length
  · exact .inl ⟨h, outPush_room h⟩
  · exact .inr ⟨h, [], bs.length, List.nil_prefix, by simp, by simpa using h, by simpa using outPush_full h⟩

theorem Res.PushesAll.andThen {r : Res Unit} {k : Unit → State → Res Unit} {as bs : List Byte} {s : State}
    (h : r.PushesAll as s) (hk : s.outRoom as.length → (k () (pushed as s)).PushesAll bs (pushed as s)) :
    (r.andThen k).PushesAll (as ++ bs) s := by
  rcases h with ⟨h1, rfl⟩ | ⟨h1, sent, req, h2, h3, h4, rfl⟩
  · rcases hk h1 with ⟨h3, h4⟩ | ⟨h3, sent, req, h4, h5, h6, h7⟩
    · exact .inl ⟨by simpa using h3, by simpa using h4⟩
    · refine .inr ⟨by simpa using h3, as ++ sent, req, (List.prefix_append_right_inj as).2 h4, ?_, ?_, ?_⟩
      · simp; omega
      · simpa [Nat.add_assoc] using h6
      · simpa [Nat.add_assoc] using h7
  · exact .inr ⟨fun h => h1 (h.mono (by simp)), sent, req, h2.trans (List.prefix_append _ _), by simp; omega, h4, rfl⟩

/-- A list of legal DataBlocks is pushed bracketed, in order (30_encoding.md R48). -/
theorem addBlocks_all (blks : List DataBlock) : ∀ s : State, s.outRoom 0 → (∀ b ∈ blks, b.legal s.cfg) →
    (addBlocks (blks.map DataBlock.payload) s).PushesAll (bracketed blks) s := by
  induction blks with
  | nil => intro s h _; exact .inl ⟨h, by simp [addBlocks, bracketed]⟩
  | cons b bs ih =>
    intro s _ hb
    have hcons : bracketed (b :: bs) = [b.marker] ++ b.payload ++ [b.marker] ++ bracketed bs := by simp [bracketed]
    obtain ⟨h1, h2, h3⟩ := hb b (by simp)
    rw [hcons, List.map_cons, addBlocks, addBlock_legal h1 h2 h3]
    exact (outPush_all _ s).andThen fun h => ih _ (outRoom_push.2 h) fun x hx => hb x (by simp [hx])

theorem frameFast_all {e : Word} {blks : List DataBlock} {s : State} (hb : ∀ b ∈ blks, b.legal s.cfg)
    (hn : blks.length ≤ 255) : (frameFast e (blks.map DataBlock.payload) s).PushesAll (s.cfg.header ++ [s.cfg.codeFast]
      ++ bytes16 e ++ [BitVec.ofNat 8 blks.length] ++ bracketed blks) s := by
  simp only [frameFast, List.length_map, Nat.not_lt.2 hn, if_false, List.append_assoc]
  exact (outPush_all _ _).andThen fun _ => (outPush_all _ _).andThen fun _ => (outPush_all _ _).andThen fun _ =>
    (outPush_all _ _).andThen fun h => addBlocks_all blks _ (outRoom_push.2 h) hb

theorem frameSlow_all {d : Word} {b : DataBlock} {s : State} (hb : b.legal s.cfg) :
    (frameSlow d b.payload s).PushesAll (s.cfg.header ++ [s.cfg.codeSlow]
      ++ bytes16 d ++ bytes16 (BitVec.ofNat 16 b.payload.length) ++ ([b.marker] ++ b.payload ++ [b.marker])) s := by
  obtain ⟨h1, h2, h3⟩ := hb
  simp only [frameSlow, List.append_assoc]
  refine (outPush_all _ _).andThen fun _ => (outPush_all _ _).andThen fun _ => (outPush_all _ _).andThen fun _ =>
    (outPush_all _ _).andThen fun _ => ?_
  rw [← List.append_assoc, addBlock_legal h1 (by simpa using h2) h3]
  exact outPush_all _ _

theorem frameExit_all (s : State) : (frameExit s).PushesAll (s.cfg.header ++ [s.cfg.codeExit]) s :=
  (outPush_all _ _).andThen fun _ => outPush_all _ _

theorem frameReply_all (bs : List Byte) (s : State) : (frameReply bs s).PushesAll (s.cfg.header ++ bs) s :=
  (outPush_all _ _).andThen fun _ => outPush_all _ _

end Sys2Proof.Machine
end

