-- ==== Sys2Proof/Laws/ReadOperation.lean ====
section
/-! SUPPORT. What splitting data into chunks, constructing a ReadOperation and reading the disk image give. -/

namespace Sys2Proof.Machine

/-- 43_read_operation.md R83: the chunks are the data, each has 1 to `n` bytes, all but the last `n`, and there are
`ceil(N / n)` of them. -/
theorem chunksFrom_spec (n : Nat) (hn : 1 ≤ n) : ∀ (fuel : Nat) (data : List Byte), data.length ≤ fuel →
    (chunksFrom fuel n data).flatten = data ∧ (∀ c ∈ chunksFrom fuel n data, 1 ≤ c.length ∧ c.length ≤ n) ∧
    (chunksFrom fuel n data).length = (data.length + n - 1) / n ∧
    (∀ c ∈ (chunksFrom fuel n data).dropLast, c.length = n) := by
  intro fuel
  induction fuel with
  | zero =>
    intro data h
    have : data = [] := by simpa using h
    subst this; simp [chunksFrom]; exact (Nat.div_eq_of_lt (by omega)).symm
  | succ f ih =>
    intro data h
    by_cases hd : data = []
    · subst hd; simp [chunksFrom]; exact (Nat.div_eq_of_lt (by omega)).symm
    · have hl : 0 < data.length := List.length_pos_iff.2 hd
      obtain ⟨h1, h2, h3, h4⟩ := ih (data.drop n) (by simp; omega)
      simp only [chunksFrom, hd, if_false]
      refine ⟨by simp [h1], ?_, ?_, ?_⟩
      · intro c hc
        rcases List.mem_cons.1 hc with rfl | hc
        · simp; omega
        · exact h2 c hc
      · simp only [List.length_cons, h3, List.length_drop]
        rcases Nat.lt_or_ge n data.length with hh | hh
        · rw [show data.length + n - 1 = (data.length - n + n - 1) + n by omega, Nat.add_div_right _ (by omega)]
        · rw [show data.length - n = 0 by omega, show data.length + n - 1 = (data.length - 1) + n by omega,
            Nat.add_div_right _ (by omega), Nat.div_eq_of_lt (by omega), Nat.div_eq_of_lt (by omega)]
      · intro c hc
        by_cases he : chunksFrom f n (data.drop n) = []
        · rw [he] at hc; simp at hc
        · rw [List.dropLast_cons_of_ne_nil he] at hc
          rcases List.mem_cons.1 hc with rfl | hc
          · have : data.drop n ≠ [] := fun e => he (by rw [e]; cases f <;> simp [chunksFrom])
            have : n < data.length := by
              have := List.length_pos_iff.2 this
              simp at this; omega
            simp; omega
          · exact h4 c hc

/-- Legal payloads are all wrapped, and the state is left alone. -/
theorem constructAll_ok (ps : List (List Byte)) (s : State) (h : ∀ p ∈ ps, 1 ≤ p.length ∧ p.length ≤ s.cfg.maxPayload)
    (h254 : s.cfg.maxPayload ≤ 254) :
    ∃ blks, constructAll ps s = .ok blks s ∧ blks.map DataBlock.payload = ps ∧ ∀ b ∈ blks, b.legal s.cfg := by
  induction ps with
  | nil => exact ⟨[], rfl, rfl, by simp⟩
  | cons p ps ih =>
    obtain ⟨bs, h1, h2, h3⟩ := ih fun q hq => h q (by simp [hq])
    obtain ⟨ha, hb⟩ := h p (by simp)
    obtain ⟨m, hm, -, -⟩ := marker_exists p (by omega)
    refine ⟨⟨p, m⟩ :: bs, ?_, by simp [h2], ?_⟩
    · simp [constructAll, construct, (legalPayload_iff s.cfg p).2 ⟨ha, hb⟩, findMarker, hm, h1]
    · intro b hb'
      rcases List.mem_cons.1 hb' with rfl | hb'
      · exact ⟨ha, hb, hm⟩
      · exact h3 b hb'

/-- R83: what `RO.CONSTRUCT` does; with parameters that fit together it raises nothing. -/
theorem roConstruct_spec (base : Word) (data : List Byte) (s : State) (hw : s.cfg.wf = true) :
    ∃ blks, transferBlocks s.cfg data blks ∧ roConstruct base data s = .ok () { s with
        roBase := base, roPending := blks, roRetained := [], roIdx := 0, roRetx := 0, roPhase := .send } := by
  obtain ⟨-, w1, w2, w3, -⟩ := Config.wf_parts hw
  obtain ⟨h1, h2, h3, h4⟩ := chunksFrom_spec s.cfg.chunkSize w1 data.length data (Nat.le_refl _)
  obtain ⟨blks, hb1, hb2, hb3⟩ := constructAll_ok (chunks s.cfg data) { s with roBase := base }
    (fun p hp => ⟨(h2 p hp).1, Nat.le_trans (h2 p hp).2 w2⟩) w3
  refine ⟨blks.reverse, ⟨?_, ?_, ?_, ?_⟩, ?_⟩
  · rw [List.length_reverse, ← h3]
    exact (congrArg List.length hb2).symm ▸ by simp
  · intro b hb
    have hb := List.mem_reverse.1 hb
    refine ⟨hb3 b hb, (h2 b.payload ?_).2⟩
    rw [show chunksFrom data.length s.cfg.chunkSize data = blks.map DataBlock.payload from hb2.symm]
    exact List.mem_map_of_mem hb
  · intro b hb
    refine h4 b.payload ?_
    rw [show chunksFrom data.length s.cfg.chunkSize data = blks.map DataBlock.payload from hb2.symm]
    rw [List.drop_one, List.tail_reverse, List.mem_reverse] at hb
    rw [← List.map_dropLast]
    exact List.mem_map_of_mem hb
  · rw [List.reverse_reverse, hb2]; exact h1
  · simp [roConstruct, hb1]

theorem imageBytes_slice (image : List Host.Cell) : ∀ (n off : Nat), imageSlice image off n (imageBytes image off n) := by
  intro n
  induction n with
  | zero => intro off; exact ⟨rfl, fun k hk => by omega⟩
  | succ n ih =>
    intro off
    obtain ⟨h1, h2⟩ := ih (off+1)
    refine ⟨by simp [imageBytes, h1], fun k hk => ?_⟩
    cases k with
    | zero => rfl
    | succ k => rw [imageBytes, List.getElem?_cons_succ, h2 k (by omega)]; congr 2; omega

/-- A read request under the default `DSKIO_MAP` (44_dispatcher.md R102). -/
theorem diskRead_read {c : Command} {s : State} {size start : Nat}
    (hm : s.cfg.dskioMap = { count := .b, start := .de, dest := .hl })
    (hs : size = c.bc.toNat / 256 * s.cfg.sectorSize) (ht : start = c.de.toNat * s.cfg.sectorSize)
    (hf : c.f.getLsbD 0 = false) : diskRead c s = if size = 0 then .ok () (emit .zeroLength s) else
      (storeRead start size s).andThen fun data s =>
        if size < s.cfg.chunkSize then slowPath c.hl data s else roConstruct c.hl data s := by
  simp only [diskRead, writeFlag, hf, hm, ByteReg.read, WordReg.read, high_toNat, ← hs, ← ht, Bool.false_eq_true, if_false]

/-- The long path of a read request. -/
theorem diskRead_long {c : Command} {s : State} {size start : Nat} (hw : s.cfg.wf = true)
    (hm : s.cfg.dskioMap = { count := .b, start := .de, dest := .hl })
    (hs : size = c.bc.toNat / 256 * s.cfg.sectorSize) (ht : start = c.de.toNat * s.cfg.sectorSize)
    (hf : c.f.getLsbD 0 = false) (hz : size ≠ 0) (ho : start + size ≤ s.cfg.storeSize) (hl : s.cfg.chunkSize ≤ size) :
    ∃ data blks, imageSlice s.image start size data ∧ transferBlocks s.cfg data blks ∧ diskRead c s = .ok () { s with
        roBase := c.hl, roPending := blks, roRetained := [], roIdx := 0, roRetx := 0, roPhase := .send } := by
  obtain ⟨blks, h1, h2⟩ := roConstruct_spec c.hl (imageBytes s.image start size) s hw
  refine ⟨_, blks, imageBytes_slice _ _ _, h1, ?_⟩
  simp [diskRead_read hm hs ht hf, hz, storeRead, Nat.not_lt.2 ho, Nat.not_lt.2 hl, h2]

theorem payloads_size (blks : List DataBlock) : totalSize (payloads blks) = pendingSize blks := by
  induction blks with
  | nil => rfl
  | cons b bs ih => simp_all [payloads, totalSize, pendingSize]

/-- The frame a round builds is pushed whole, or overflows (R84). -/
theorem roundFrame_all {s : State} (hb : ∀ b ∈ s.roPending, b.legal s.cfg) (hn : s.roPending.length ≤ 255) :
    (frameFast (endAddress s) (payloads s.roPending) s).PushesAll (roundFrame s.cfg s.roBase s.roPending) s := by
  rw [roundFrame, ← payloads_size]
  exact frameFast_all hb hn

end Sys2Proof.Machine
end

