-- ==== Sys2Proof/Laws/Actions.lean ====
section
/-! SUPPORT. Everything each action of ENG can do, said once: later proofs cite these and unfold no action. -/

namespace Sys2Proof.Machine

/-! ### One evaluation of a wait -/

/-- The evaluation of a wait with the draw forgotten (40_inbound_queue.md R60). -/
theorem suspend_steps {α : Type} (ready : Bool) (info : ErrInfo) (p : State → Wait α) (s : State) : ∃ d,
    (ready = true ∧ suspend ready info p s = p { s with draws := d }) ∨
    suspend ready info p s = .timeout info { s with draws := d } ∨
    (ready = false ∧ suspend ready info p s = .suspended s) := by
  rcases suspend_cases ready info p s with ⟨h, e, -⟩ | ⟨h, e⟩ | ⟨-, e⟩ | ⟨-, e⟩ | ⟨h, e⟩
  · exact ⟨s.draws, .inl ⟨h, e⟩⟩
  · exact ⟨s.draws + 1, .inl ⟨h, e⟩⟩
  · exact ⟨s.draws + 1, .inr (.inl e)⟩
  · exact ⟨s.draws, .inr (.inl e)⟩
  · exact ⟨s.draws, .inr (.inr ⟨h, e⟩)⟩

/-- `nextByte` (R60, R64). -/
theorem nextByte_cases (s : State) : ∃ d,
    (∃ b rest, s.inq = b :: rest ∧ nextByte s = .complete b { s with inq := rest, draws := d }) ∨
    nextByte s = .timeout .nextbyte { s with draws := d } ∨ (s.inq = [] ∧ nextByte s = .suspended s) := by
  obtain ⟨d, ⟨h, e⟩ | e | ⟨h, e⟩⟩ := suspend_steps (!s.inq.isEmpty) .nextbyte popByte s
  · obtain ⟨b, rest, hi⟩ := List.exists_cons_of_ne_nil (show s.inq ≠ [] by simpa using h)
    exact ⟨d, .inl ⟨b, rest, hi, by rw [nextByte, e]; simp [popByte, hi]⟩⟩
  · exact ⟨d, .inr (.inl e)⟩
  · exact ⟨d, .inr (.inr ⟨by simpa using h, e⟩)⟩

/-- `waitForAvailable(n)` (R60, R66). -/
theorem waitAvailable_cases (n : Nat) (s : State) : ∃ d,
    (n ≤ s.inq.length ∧ waitAvailable n s = .complete () { s with draws := d }) ∨
    waitAvailable n s = .timeout (.waitavail s.inq.length n) { s with draws := d } ∨
    (s.inq.length < n ∧ waitAvailable n s = .suspended s) := by
  obtain ⟨d, ⟨h, e⟩ | e | ⟨h, e⟩⟩ :=
    suspend_steps (decide (n ≤ s.inq.length)) (.waitavail s.inq.length n) (fun s => Wait.complete () s) s
  · exact ⟨d, .inl ⟨by simpa using h, e⟩⟩
  · exact ⟨d, .inr (.inl e)⟩
  · exact ⟨d, .inr (.inr ⟨by simpa using h, e⟩)⟩

/-- `waitForSequence(pat)` (R60, R65): a byte matched, a timeout, or a hold, from the wait as started. -/
theorem waitSequence_cases (pat : List Byte) (s s0 : State) (hs : startSequence pat s = s0) : ∃ d,
    (∃ b rest i n, s.inq = b :: rest ∧ matchByte pat b s0.syncI s0.syncDiscard = (i, n) ∧
      ((i = pat.length ∧ waitSequence pat s
          = .complete n { s0 with inq := rest, syncI := i, syncDiscard := n, seq := none, draws := d }) ∨
        (i ≠ pat.length ∧ waitSequence pat s
          = .suspended { s0 with inq := rest, syncI := i, syncDiscard := n, draws := d }))) ∨
    waitSequence pat s = .timeout (.waitseq s0.syncDiscard) { s0 with draws := d } ∨
    (s.inq = [] ∧ waitSequence pat s = .suspended s0) := by
  have hq : s0.inq = s.inq := by rw [← hs]; unfold startSequence; split <;> rfl
  obtain ⟨d, ⟨h, e⟩ | e | ⟨h, e⟩⟩ := suspend_steps (!s0.inq.isEmpty) (.waitseq s0.syncDiscard) (matchStep pat) s0
  · obtain ⟨b, rest, hi⟩ := List.exists_cons_of_ne_nil (show s0.inq ≠ [] by simpa using h)
    rcases hm : matchByte pat b s0.syncI s0.syncDiscard with ⟨i, n⟩
    refine ⟨d, .inl ⟨b, rest, i, n, hq ▸ hi, hm, ?_⟩⟩
    have hw : waitSequence pat s = suspend (!s0.inq.isEmpty) (.waitseq s0.syncDiscard) (matchStep pat) s0 := by
      simp only [waitSequence, hs]
    rw [hw, e]
    simp only [matchStep, hi, hm]
    by_cases hl : i = pat.length
    · exact .inl ⟨hl, by simp [hl]⟩
    · exact .inr ⟨hl, by simp [hl]⟩
  · exact ⟨d, .inr (.inl (by simp only [waitSequence, hs, e]))⟩
  · exact ⟨d, .inr (.inr ⟨by rw [← hq]; simpa using h, by simp only [waitSequence, hs, e]⟩)⟩

theorem startSequence_started {pat : List Byte} {s : State} (h : s.seq = some pat) : startSequence pat s = s := by
  simp [startSequence, h]

/-- How the wait stands once it is started (R65), in the terms of `seqAt`. -/
theorem startSequence_at {pat : List Byte} {s : State} {i d : Nat} (h : s.seqAt pat i d) :
    startSequence pat s = { s with syncI := i, syncDiscard := d, seq := some pat } := by
  by_cases hq : s.seq = some pat
  · obtain ⟨rfl, rfl⟩ := h.1 hq
    simp [startSequence, ← hq]
  · obtain ⟨rfl, rfl⟩ := h.2 hq
    simp [startSequence, hq]

/-- The matcher does what R65's three cases say. -/
theorem matchByte_matchedTo {pat : List Byte} {b : Byte} {i d i' d' : Nat} (h : matchedTo pat b i d i' d') :
    matchByte pat b i d = (i', d') := by
  rcases h with ⟨h, rfl, rfl⟩ | ⟨h, h0, rfl, rfl⟩ | ⟨h, h0, rfl, rfl⟩
  · simp [matchByte, h]
  · simp [matchByte, h, ← List.head?_eq_getElem?, h0]
  · simp [matchByte, h, ← List.head?_eq_getElem?, h0]

/-- The match index stays within the pattern (10_state.md R17). -/
theorem matchByte_le {pat : List Byte} (hp : pat ≠ []) {b : Byte} {i n j m : Nat} (h : matchByte pat b i n = (j, m)) :
    j ≤ pat.length := by
  have hl := List.length_pos_iff.2 hp
  unfold matchByte at h
  split at h
  · next hb =>
    have := (List.getElem?_eq_some_iff.1 hb).1
    simp only [Prod.mk.injEq] at h
    omega
  · split at h <;> simp only [Prod.mk.injEq] at h <;> omega

/-! ### The fields of a frame -/

/-- `IQ.READCMD` (30_encoding.md R59): with nine bytes there it reads the fields of R44, with fewer it underflows. -/
theorem readFields_cases (s : State) :
    (∃ b0 b1 b2 b3 b4 b5 b6 b7 b8 rest, s.inq = [b0, b1, b2, b3, b4, b5, b6, b7, b8] ++ rest ∧
      readFields s = .ok ⟨le16 b0 b1, le16 b2 b3, le16 b4 b5, b6, b7, b8⟩ { s with inq := rest }) ∨
    (s.inq.length < 9 ∧ ∃ i rest, rest <:+ s.inq ∧ readFields s = .raised .readUnderflow i { s with inq := rest }) := by
  match hi : s.inq with
  | b0 :: b1 :: b2 :: b3 :: b4 :: b5 :: b6 :: b7 :: b8 :: rest =>
    exact .inl ⟨b0, b1, b2, b3, b4, b5, b6, b7, b8, rest, rfl, by simp [readFields, readWord, readByte, hi]⟩
  | [] => exact .inr ⟨by simp, _, [], by simp, by simp [readFields, readWord, hi]; exact ⟨rfl, by rw [← hi]⟩⟩
  | [b0] => exact .inr ⟨by simp, _, [b0], by simp, by simp [readFields, readWord, hi]; exact ⟨rfl, by rw [← hi]⟩⟩
  | [b0, b1] => exact .inr ⟨by simp, _, [], by simp, by simp [readFields, readWord, hi]; rfl⟩
  | [b0, b1, b2] => exact .inr ⟨by simp, _, [b2], ⟨[b0, b1], rfl⟩, by simp [readFields, readWord, hi]; rfl⟩
  | [b0, b1, b2, b3] => exact .inr ⟨by simp, _, [], by simp, by simp [readFields, readWord, hi]; rfl⟩
  | [b0, b1, b2, b3, b4] => exact .inr ⟨by simp, _, [b4], ⟨[b0, b1, b2, b3], rfl⟩, by simp [readFields, readWord, hi]; rfl⟩
  | [b0, b1, b2, b3, b4, b5] => exact .inr ⟨by simp, _, [], by simp, by simp [readFields, readWord, readByte, hi]; rfl⟩
  | [b0, b1, b2, b3, b4, b5, b6] => exact .inr ⟨by simp, _, [], by simp, by simp [readFields, readWord, readByte, hi]; rfl⟩
  | [b0, b1, b2, b3, b4, b5, b6, b7] =>
    exact .inr ⟨by simp, _, [], by simp, by simp [readFields, readWord, readByte, hi]; rfl⟩

/-! ### The action of DISPATCH -/

/-- What the opcode-keyed action can leave, where it raises nothing (44_dispatcher.md R101 to R105). -/
inductive Dispatched (s : State) : State → Prop where
  | queued (bs : List Byte) : Dispatched s (pushed bs s)
  | logged (e : DiagEvent) : Dispatched s (emit e s)
  | started (base : Word) (blks : List DataBlock) (hb : ∀ b ∈ blks, b.legal s.cfg) : Dispatched s
      { s with roBase := base, roPending := blks, roRetained := [], roIdx := 0, roRetx := 0, roPhase := .send }

/-- What it can leave where it raises an error. -/
def DispatchRaised (s : State) (c : ErrCode) (t : State) : Prop :=
  c ≠ .protocolTimeout ∧ (Pushed s t ∨ ∃ b, t = { s with roBase := b })

/-- A result whose value comes in a state that meets `P`, and whose raise meets `E`. -/
def Res.Meets {α : Type} (P : State → Prop) (E : ErrCode → State → Prop) : Res α → Prop
  | .ok _ s => P s
  | .raised c _ s => E c s

/-- An action whose result meets `P` and `E` ends in `k` of it, or in the error taken. -/
theorem Res.Meets.finish {α : Type} {P : State → Prop} {E : ErrCode → State → Prop} {r : Res α} {k : α → State → State}
    {t : State} (h : r.Meets P E) (hE : ∀ c s, E c s → c ≠ .protocolTimeout) (ht : r.finish k = .next t) :
    (∃ v s, P s ∧ t = k v s) ∨ ∃ c i s, E c s ∧ t = fatal c i s := by
  cases r with
  | ok v s => exact .inl ⟨v, s, h, by simpa using ht.symm⟩
  | raised c i s => exact .inr ⟨c, i, s, h, by simpa [takeError_fatal (hE c s h)] using ht.symm⟩

theorem pushError_ne {c : ErrCode} (h : PushError c) : c ≠ .protocolTimeout := by
  rintro rfl; simp [PushError] at h

/-- A builder or a frame, as a result. -/
theorem Res.Meets.of_push {r : Res Unit} {s : State} (h : r.Ends (Pushed s)) (hr : r.Raises PushError) :
    r.Meets (Dispatched s) (DispatchRaised s) := by
  cases r with
  | ok v t => obtain ⟨bs, rfl⟩ := h; exact .queued bs
  | raised c i t => exact ⟨pushError_ne hr, .inl h⟩

theorem constructAll_meets (ps : List (List Byte)) (s : State) :
    (∃ blks, constructAll ps s = .ok blks s ∧ ∀ b ∈ blks, b.legal s.cfg) ∨
      ∃ c i, constructAll ps s = .raised c i s ∧ PushError c := by
  induction ps with
  | nil => exact .inl ⟨[], rfl, by simp⟩
  | cons p ps ih =>
    by_cases hl : legalPayload s.cfg p = true
    · cases hm : marker p with
      | none => exact .inr ⟨_, _, by simp [constructAll, construct, hl, findMarker, hm]; rfl, .inr (.inr (.inl rfl))⟩
      | some m =>
        rcases ih with ⟨bs, h1, h2⟩ | ⟨c, i, h1, h2⟩
        · refine .inl ⟨⟨p, m⟩ :: bs, by simp [constructAll, construct, hl, findMarker, hm, h1], ?_⟩
          simp only [List.mem_cons, forall_eq_or_imp]
          exact ⟨⟨((legalPayload_iff _ _).1 hl).1, ((legalPayload_iff _ _).1 hl).2, hm⟩, h2⟩
        · exact .inr ⟨c, i, by simp [constructAll, construct, hl, findMarker, hm, h1], h2⟩
    · exact .inr ⟨_, _, by simp [constructAll, construct, hl]; rfl, .inr (.inl rfl)⟩

theorem roConstruct_meets (base : Word) (data : List Byte) (s : State) :
    (roConstruct base data s).Meets (Dispatched s) (DispatchRaised s) := by
  rcases constructAll_meets (chunks s.cfg data) { s with roBase := base } with ⟨blks, h1, h2⟩ | ⟨c, i, h1, h2⟩
  · simp only [roConstruct, h1, Res.andThen_ok]
    exact .started base blks.reverse fun b hb => h2 b (List.mem_reverse.1 hb)
  · simp only [roConstruct, h1, Res.andThen_raised]
    exact ⟨pushError_ne h2, .inr ⟨base, rfl⟩⟩

/-- Everything the opcode-keyed action can do (R101 to R105). -/
theorem dispatchAction_meets (c : Command) (s : State) :
    (dispatchAction c s).Meets (Dispatched s) (DispatchRaised s) := by
  have idle : Dispatched s s := by simpa using Dispatched.queued (s := s) []
  unfold dispatchAction
  split
  · unfold diskRead
    split
    · exact idle
    · dsimp only
      split
      · exact .logged .zeroLength
      · unfold storeRead
        split
        · exact ⟨by simp, .inl (Pushed.refl s)⟩
        · rw [Res.andThen_ok]
          split
          · exact .of_push (frameSlow_ends _ _ s) (frameSlow_raises _ _ s)
          · exact roConstruct_meets _ _ s
  · unfold fixedReplyAction
    split
    · exact idle
    · exact .of_push (frameReply_ends _ s) (frameReply_raises _ s)
    · exact ⟨by simp, .inl (Pushed.refl s)⟩
  · exact .logged _

/-- With parameters that fit together, only three errors can be raised here, and nothing but bytes pushed is left behind. -/
theorem dispatchAction_raised {c : Command} {s : State} {code : ErrCode} {i : ErrInfo} {t : State}
    (hw : s.cfg.wf = true) (h : dispatchAction c s = .raised code i t) :
    Pushed s t ∧ (code = .queueOverflow ∨ code = .diskStoreFault ∨ code = .unimplementedOpcode) := by
  have of_all : ∀ {r : Res Unit} {bs : List Byte}, r.PushesAll bs s → r = .raised code i t →
      Pushed s t ∧ (code = .queueOverflow ∨ code = .diskStoreFault ∨ code = .unimplementedOpcode) := by
    rintro r bs (⟨_, h1⟩ | ⟨_, sent, req, _, _, _, h1⟩) h <;> rw [h1] at h <;> cases h
    exact ⟨⟨sent, rfl⟩, .inl rfl⟩
  unfold dispatchAction at h
  split at h
  · unfold diskRead at h
    split at h
    · cases h
    · dsimp only at h
      split at h
      · cases h
      · next hz =>
        unfold storeRead at h
        split at h
        · cases h; exact ⟨Pushed.refl s, .inr (.inl rfl)⟩
        · rw [Res.andThen_ok] at h
          split at h
          · next hl =>
            obtain ⟨-, -, w2, w3, -⟩ := Config.wf_parts hw
            have hsl := (imageBytes_slice s.image ((s.cfg.dskioMap.count.read c).toNat * s.cfg.sectorSize)
              ((s.cfg.dskioMap.start.read c).toNat * s.cfg.sectorSize)).1
            obtain ⟨m, hm, -⟩ := marker_exists _ (by rw [hsl]; omega)
            exact of_all (frameSlow_all (b := ⟨_, m⟩) ⟨by dsimp only; rw [hsl]; omega, by dsimp only; rw [hsl]; omega, hm⟩) h
          · obtain ⟨blks, -, h2⟩ := roConstruct_spec (s.cfg.dskioMap.dest.read c) (imageBytes s.image
              ((s.cfg.dskioMap.start.read c).toNat * s.cfg.sectorSize)
              ((s.cfg.dskioMap.count.read c).toNat * s.cfg.sectorSize)) s hw
            rw [h2] at h; cases h
  · unfold fixedReplyAction at h
    split at h
    · cases h
    · exact of_all (frameReply_all _ s) h
    · cases h; exact ⟨Pushed.refl s, .inr (.inr rfl)⟩
  · cases h

/-! ### ENG's actions -/

/-- Everything `WAIT_SYNC`'s action can do (44_dispatcher.md R98), the wait for `SYNC` being in progress or started now. -/
theorem dspWaitSync_cases {s t : State} (hf : s.fsm ≠ .halted) (h : exec .dspWaitSync s = .next t) :
    ∃ s0, startSequence s.cfg.sync s = s0 ∧ ∃ d,
      (∃ b rest i n, s.inq = b :: rest ∧ matchByte s.cfg.sync b s0.syncI s0.syncDiscard = (i, n) ∧
        ((i = s.cfg.sync.length ∧ t = goto .readFixed9 (deadlineReset
            { s0 with inq := rest, syncI := i, syncDiscard := n, seq := none, draws := d })) ∨
          (i ≠ s.cfg.sync.length ∧ t = { s0 with inq := rest, syncI := i, syncDiscard := n, draws := d }))) ∨
      t = recovery (.waitseq s0.syncDiscard) { s0 with draws := d } ∨ (s.inq = [] ∧ t = s0) := by
  refine ⟨_, rfl, ?_⟩
  simp only [exec, execDspWaitSync, engineOnly_running hf] at h
  obtain ⟨d, ⟨b, rest, i, n, h1, h2, ⟨h3, e⟩ | ⟨h3, e⟩⟩ | e | ⟨h1, e⟩⟩ := waitSequence_cases s.cfg.sync s _ rfl <;>
    rw [e] at h <;> cases h
  · exact ⟨d, .inl ⟨b, rest, i, n, h1, h2, .inl ⟨h3, rfl⟩⟩⟩
  · exact ⟨d, .inl ⟨b, rest, i, n, h1, h2, .inr ⟨h3, rfl⟩⟩⟩
  · exact ⟨d, .inr (.inl rfl)⟩
  · exact ⟨d, .inr (.inr ⟨h1, rfl⟩)⟩

/-- Everything `READ_FIXED_9`'s action can do (R99). -/
theorem dspReadFixed9_cases {s t : State} (hf : s.fsm ≠ .halted) (h : exec .dspReadFixed9 s = .next t) : ∃ d,
    (∃ c bs rest, s.inq = bs ++ rest ∧ bs.length = 9 ∧
      t = goto .decode (writeCommand c { s with inq := rest, draws := d })) ∨
    (s.cfg.fixedLen ≤ s.inq.length ∧ s.inq.length < 9 ∧ ∃ i rest, rest <:+ s.inq ∧
      t = fatal .readUnderflow i { s with inq := rest, draws := d }) ∨
    t = recovery (.waitavail s.inq.length s.cfg.fixedLen) { s with draws := d } ∨
    (s.inq.length < s.cfg.fixedLen ∧ t = s) := by
  simp only [exec, execDspReadFixed9, engineOnly_running hf] at h
  obtain ⟨d, ⟨h1, e⟩ | e | ⟨h1, e⟩⟩ := waitAvailable_cases s.cfg.fixedLen s <;> rw [e] at h
  · rw [Wait.finish_complete] at h
    rcases readFields_cases { s with draws := d } with
      ⟨b0, b1, b2, b3, b4, b5, b6, b7, b8, rest, h2, e⟩ | ⟨h2, i, rest, h3, e⟩ <;> rw [e] at h <;> cases h
    · exact ⟨d, .inl ⟨_, _, rest, h2, rfl, rfl⟩⟩
    · exact ⟨d, .inr (.inl ⟨h1, h2, i, rest, h3, rfl⟩)⟩
  · cases h; exact ⟨d, .inr (.inr (.inl rfl))⟩
  · cases h; exact ⟨d, .inr (.inr (.inr ⟨h1, rfl⟩))⟩

/-- Everything `DECODE`'s action can do (R100). -/
theorem dspDecode_cases {s t : State} (hf : s.fsm ≠ .halted) (h : exec .dspDecode s = .next t) :
    t = decodeAction s.command s := by
  simpa [exec, execDspDecode, hf, readCommand] using h.symm

/-- Everything `DISPATCH`'s action can do (R101). -/
theorem dspDispatch_cases {s t : State} (hf : s.fsm ≠ .halted) (h : exec .dspDispatch s = .next t) :
    (∃ s1, dispatchAction s.command s = .ok () s1 ∧ Dispatched s s1 ∧ t = goto .respond s1) ∨
      ∃ c i s1, dispatchAction s.command s = .raised c i s1 ∧ DispatchRaised s c s1 ∧ t = fatal c i s1 := by
  simp only [exec, execDspDispatch, engineOnly_running hf, readCommand, dispatchCommand] at h
  have hm := dispatchAction_meets s.command s
  cases hr : dispatchAction s.command s with
  | ok v s1 =>
    rw [hr] at h hm
    exact .inl ⟨s1, rfl, hm, by simpa using h.symm⟩
  | raised c i s1 =>
    rw [hr] at h hm
    exact .inr ⟨c, i, s1, rfl, hm, by simpa [takeError_fatal hm.1] using h.symm⟩

/-- Everything `RO.ROUND` can do in its phase (43_read_operation.md R84, R85, R92). -/
theorem roRound_cases {s t : State} (hf : s.fsm ≠ .halted) (h : exec .roRound s = .next t) :
    s.roPhase = .send ∧ s.roPending ≠ [] ∧
      ((s.roPending.length ≤ 255 ∧ ∃ bs, t = { deadlineReset (flush (pushed bs s)) with
          roRetained := [], roIdx := 0, roPhase := .echo }) ∨
        ∃ c i s1, PushError c ∧ Pushed s s1 ∧ t = fatal c i s1) := by
  simp only [exec, execRoRound, engineOnly_running hf] at h
  split at h
  · next hp =>
    refine ⟨hp.1, hp.2, ?_⟩
    have h1 := frameFast_ends (endAddress s) (payloads s.roPending) s
    have h2 := frameFast_raises (endAddress s) (payloads s.roPending) s
    cases hr : frameFast (endAddress s) (payloads s.roPending) s with
    | ok v s1 =>
      rw [hr] at h1
      obtain ⟨bs, rfl⟩ := h1
      refine .inl ⟨?_, bs, by simpa [roRound, hr] using h.symm⟩
      by_contra hn
      simp [frameFast, payloads, Nat.lt_of_not_le hn] at hr
    | raised c i s1 =>
      rw [hr] at h1 h2
      exact .inr ⟨c, i, s1, h2, h1, by simpa [roRound, hr, takeError_fatal (pushError_ne h2)] using h.symm⟩
  · cases h

/-- Everything `RO.ECHO` can do in its phase (R86). -/
theorem roEcho_cases {s t : State} (hf : s.fsm ≠ .halted) (h : exec .roEcho s = .next t) :
    s.roPhase = .echo ∧ ∃ blk, s.roPending[s.roIdx]? = some blk ∧ ∃ d,
      (∃ e rest, s.inq = e :: rest ∧ t = takeEcho blk e { s with inq := rest, draws := d }) ∨
      t = recovery .nextbyte { s with draws := d } ∨ (s.inq = [] ∧ t = s) := by
  simp only [exec, execRoEcho, engineOnly_running hf] at h
  split at h
  · next blk hp hb =>
    refine ⟨hp, blk, hb, ?_⟩
    obtain ⟨d, ⟨e, rest, h1, e⟩ | e | ⟨h1, e⟩⟩ := nextByte_cases s <;> rw [e] at h <;> cases h
    · exact ⟨d, .inl ⟨_, rest, h1, rfl⟩⟩
    · exact ⟨d, .inr (.inl rfl)⟩
    · exact ⟨d, .inr (.inr ⟨h1, rfl⟩)⟩
  · cases h

/-- Everything `RESPOND`'s action can do (44_dispatcher.md R106). -/
theorem dspRespond_cases {s t : State} (hf : s.fsm ≠ .halted) (h : exec .dspRespond s = .next t) :
    (s.roPhase = .none ∧ t = goto .flush s) ∨
    (s.roPhase = .send ∧ s.roPending ≠ [] ∧ exec .roRound s = .next t) ∨
    (s.roPhase = .echo ∧ s.roIdx < s.roPending.length ∧ exec .roEcho s = .next t) ∨
    (s.roPhase = .echo ∧ s.roPending.length ≤ s.roIdx ∧ t = roEndround s) ∨
    (s.roPhase = .send ∧ s.roPending = [] ∧ ((∃ bs, t = goto .flush { pushed bs s with roPhase := .none }) ∨
      ∃ i s1, Pushed s s1 ∧ t = fatal .queueOverflow i s1)) := by
  simp only [exec, execDspRespond, engineOnly_running hf] at h
  cases hp : s.roPhase
  · simp [hp] at h; exact .inl ⟨rfl, h.symm⟩
  · by_cases he : s.roPending = []
    · refine .inr (.inr (.inr (.inr ⟨rfl, he, ?_⟩)))
      simp [hp, he] at h
      rcases frameExit_all s with ⟨_, e⟩ | ⟨_, sent, req, _, _, _, e⟩ <;> simp [roExit, e] at h
      · exact .inl ⟨_, h.symm⟩
      · exact .inr ⟨_, _, ⟨sent, rfl⟩, by simpa [takeError_fatal] using h.symm⟩
    · simp [hp, he] at h; exact .inr (.inl ⟨rfl, he, h⟩)
  · rcases Nat.lt_or_ge s.roIdx s.roPending.length with hi | hi
    · simp [hp, hi] at h; exact .inr (.inr (.inl ⟨rfl, hi, h⟩))
    · simp [hp, Nat.not_lt.2 hi, execRoEndround, hf, hi] at h
      exact .inr (.inr (.inr (.inl ⟨rfl, hi, h.symm⟩)))

/-- `FLUSH`'s action (R107). -/
theorem dspFlush_cases {s t : State} (hf : s.fsm ≠ .halted) (h : exec .dspFlush s = .next t) :
    t = enterWaitSync (flush s) := by
  simpa [exec, execDspFlush, hf] using h.symm

end Sys2Proof.Machine
end

