-- ==== Sys2Proof/Laws/Image.lean ====
section
/-! SUPPORT. The disk image: a read after a write, and that every operation keeps its canonical form. -/

namespace Sys2Proof.Machine

/-- Offsets below the first entry read as unlisted. -/
theorem imageByte_below {image : List Host.Cell} : ∀ {lo k : Nat}, imageWfFrom lo image = true → k < lo →
    imageByte image k = 0#8 := by
  induction image with
  | nil => exact fun _ _ => rfl
  | cons c rest ih =>
    obtain ⟨a, b⟩ := c
    intro lo k h hk
    simp only [imageWfFrom, Bool.and_eq_true, decide_eq_true_eq] at h
    have hne : ¬ a = k := by omega
    simp only [imageByte, hne, if_false]
    exact ih h.2 (by omega)

/-- A form with a higher bound has the lower bound. -/
theorem imageWfFrom_mono {image : List Host.Cell} {lo lo' : Nat} (h : imageWfFrom lo image = true) (hl : lo' ≤ lo) :
    imageWfFrom lo' image = true := by
  cases image with
  | nil => rfl
  | cons c rest =>
    simp only [imageWfFrom, Bool.and_eq_true, decide_eq_true_eq] at h ⊢
    exact ⟨⟨by omega, h.1.2⟩, h.2⟩

/-- A write keeps the canonical form. -/
theorem imageSet_wfFrom {image : List Host.Cell} : ∀ {lo k : Nat} {v : Byte}, imageWfFrom lo image = true → lo ≤ k →
    imageWfFrom lo (imageSet image k v) = true := by
  induction image with
  | nil =>
    intro lo k v _ hk
    by_cases hv : v = 0#8 <;> simp [imageSet, imageWfFrom, hv, hk]
  | cons c rest ih =>
    obtain ⟨a, b⟩ := c
    intro lo k v h hk
    have h' := h
    simp only [imageWfFrom, Bool.and_eq_true, decide_eq_true_eq] at h'
    simp only [imageSet]
    split
    · next hlt =>
      split
      · exact h
      · next hv =>
        simp only [imageWfFrom, Bool.and_eq_true, decide_eq_true_eq]
        exact ⟨⟨hk, hv⟩, ⟨by omega, h'.1.2⟩, h'.2⟩
    · split
      · next _ he =>
        subst he
        split
        · exact imageWfFrom_mono h'.2 (by omega)
        · next hv =>
          simp only [imageWfFrom, Bool.and_eq_true, decide_eq_true_eq]
          exact ⟨⟨hk, hv⟩, h'.2⟩
      · simp only [imageWfFrom, Bool.and_eq_true, decide_eq_true_eq]
        exact ⟨h'.1, ih h'.2 (by omega)⟩

theorem imageSet_wf {image : List Host.Cell} (k : Nat) (v : Byte) (h : Memory.wf image = true) :
    Memory.wf (imageSet image k v) = true := imageSet_wfFrom h (Nat.zero_le k)

/-- A read after a write: the value at the offset written, every other byte as before. -/
theorem imageByte_set {image : List Host.Cell} : ∀ {lo : Nat} (k : Nat) (v : Byte) (j : Nat),
    imageWfFrom lo image = true → imageByte (imageSet image k v) j = if j = k then v else imageByte image j := by
  induction image with
  | nil =>
    intro lo k v j _
    by_cases hv : v = 0#8 <;> by_cases hj : k = j <;> simp [imageSet, imageByte, hv, hj, eq_comm (a := j)]
  | cons c rest ih =>
    obtain ⟨a, b⟩ := c
    intro lo k v j h
    have h' := h
    simp only [imageWfFrom, Bool.and_eq_true, decide_eq_true_eq] at h'
    simp only [imageSet]
    split
    · next hlt =>
      have h0 : imageByte ((a, b) :: rest) k = 0#8 := by
        have hne : ¬ a = k := by omega
        simp only [imageByte, hne, if_false]
        exact imageByte_below h'.2 (by omega)
      split
      · next hv =>
        split
        · next hj => rw [hj, h0, hv]
        · rfl
      · by_cases hj : j = k
        · simp [imageByte, hj]
        · rw [if_neg hj, imageByte, if_neg (Ne.symm hj)]
    · split
      · next _ he =>
        subst he
        split
        · next hv =>
          by_cases hj : j = k
          · rw [if_pos hj, hj, hv]
            exact imageByte_below h'.2 (by omega)
          · rw [if_neg hj, imageByte, if_neg (Ne.symm hj)]
        · by_cases hj : j = k
          · simp [imageByte, hj]
          · rw [if_neg hj, imageByte, if_neg (Ne.symm hj), imageByte, if_neg (Ne.symm hj)]
      · next _ he =>
        by_cases hja : a = j
        · subst hja
          simp [imageByte, Ne.symm he]
        · rw [imageByte, if_neg hja, ih k v j h'.2, imageByte, if_neg hja]

theorem reset_image_wf : Memory.wf State.reset.image = true := rfl

end Sys2Proof.Machine
end

