-- ==== Sys2Proof/Laws/PerInstr.lean ====
section
/-! SUPPORT. For every instruction: the byte its row of spec/opcode_table.json is keyed by, in its encoding. -/

namespace Sys2Proof.Laws.KeyByte

/-- Where the key byte stands: a code at the front (30_encoding.md R58), CMD at byte 10 of a frame (R44), the byte after
the header of an outbound frame (R47). -/
def position : Format → Nat
  | .uop => 0
  | .inbound => 10
  | .outbound => 3

/-- The row's "mask" and "match" of spec/opcode_table.json. -/
def row : Instr → Byte × Byte
  | .iqAppend .. => (0xFF#8, 0x01#8)
  | .iqNextbyte => (0xFF#8, 0x02#8)
  | .iqWaitseq .. => (0xFF#8, 0x03#8)
  | .iqWaitavail .. => (0xFF#8, 0x04#8)
  | .iqReadbyte => (0xFF#8, 0x05#8)
  | .iqReadword => (0xFF#8, 0x06#8)
  | .iqClear => (0xFF#8, 0x07#8)
  | .iqDlreset => (0xFF#8, 0x08#8)
  | .clkTick => (0xFF#8, 0x09#8)
  | .oqHeader => (0xFF#8, 0x10#8)
  | .oqByte .. => (0xFF#8, 0x11#8)
  | .oqWord .. => (0xFF#8, 0x12#8)
  | .oqRaw .. => (0xFF#8, 0x13#8)
  | .oqBlock .. => (0xFF#8, 0x14#8)
  | .oqTakeall => (0xFF#8, 0x15#8)
  | .dbMarker .. => (0xFF#8, 0x20#8)
  | .dbConstruct .. => (0xFF#8, 0x21#8)
  | .cmdDecode .. => (0xFF#8, 0x22#8)
  | .cmdHigh .. => (0xFF#8, 0x23#8)
  | .cmdLow .. => (0xFF#8, 0x24#8)
  | .cmdClassify .. => (0xFF#8, 0x25#8)
  | .roConstruct .. => (0xFF#8, 0x30#8)
  | .roRound => (0xFF#8, 0x31#8)
  | .roEcho => (0xFF#8, 0x32#8)
  | .roEndround => (0xFF#8, 0x33#8)
  | .roExit => (0xFF#8, 0x34#8)
  | .dspWaitSync => (0xFF#8, 0x40#8)
  | .dspReadFixed9 => (0xFF#8, 0x41#8)
  | .dspDecode => (0xFF#8, 0x42#8)
  | .dspDispatch => (0xFF#8, 0x43#8)
  | .dspRespond => (0xFF#8, 0x44#8)
  | .dspFlush => (0xFF#8, 0x45#8)
  | .inDskioRead .. => (0xFF#8, 0x80#8)
  | .inDskioWrite .. => (0xFF#8, 0x80#8)
  | .inCmdrequest .. => (0xFF#8, 0x93#8)
  | .inKnownOther .. => (0xE0#8, 0x80#8)
  | .inUnknown .. => (0x00#8, 0x00#8)
  | .outFasttransfer .. => (0xFF#8, 0x01#8)
  | .outSlowtransfer .. => (0xFF#8, 0x02#8)
  | .outExit => (0xFF#8, 0x03#8)
  | .outFixedReply .. => (0x00#8, 0x00#8)

/-- With the default parameters, the key byte of a well-formed instruction's encoding matches its row. -/
def Statement (i : Instr) : Prop :=
  i.wf Config.default = true → ∀ b, (encode Config.default i)[position i.format]? = some b → b &&& (row i).1 = (row i).2

/-- A byte that is the row's own value matches it. -/
theorem of_byte {i : Instr} {v : Byte} (h : (encode Config.default i)[position i.format]? = some v)
    (hv : v &&& (row i).1 = (row i).2) : Statement i := by
  intro _ b hb
  rw [h] at hb
  cases hb
  exact hv

theorem iqAppend (bs : List Byte) : Statement (.iqAppend bs) := of_byte rfl (by simp [row])

theorem iqNextbyte : Statement .iqNextbyte := of_byte rfl (by simp [row])

theorem iqWaitseq (p0 : Byte) (ps : List Byte) : Statement (.iqWaitseq p0 ps) := of_byte rfl (by simp [row])

theorem iqWaitavail (n : Nat) : Statement (.iqWaitavail n) := of_byte rfl (by simp [row])

theorem iqReadbyte : Statement .iqReadbyte := of_byte rfl (by simp [row])

theorem iqReadword : Statement .iqReadword := of_byte rfl (by simp [row])

theorem iqClear : Statement .iqClear := of_byte rfl (by simp [row])

theorem iqDlreset : Statement .iqDlreset := of_byte rfl (by simp [row])

theorem clkTick : Statement .clkTick := of_byte rfl (by simp [row])

theorem oqHeader : Statement .oqHeader := of_byte rfl (by simp [row])

theorem oqByte (v : Byte) : Statement (.oqByte v) := of_byte rfl (by simp [row])

theorem oqWord (v : Word) : Statement (.oqWord v) := of_byte rfl (by simp [row])

theorem oqRaw (bs : List Byte) : Statement (.oqRaw bs) := of_byte rfl (by simp [row])

theorem oqBlock (p : List Byte) : Statement (.oqBlock p) := of_byte rfl (by simp [row])

theorem oqTakeall : Statement .oqTakeall := of_byte rfl (by simp [row])

theorem dbMarker (p : List Byte) : Statement (.dbMarker p) := of_byte rfl (by simp [row])

theorem dbConstruct (p : List Byte) : Statement (.dbConstruct p) := of_byte rfl (by simp [row])

theorem cmdDecode (bc de hl : Word) (f a cmd : Byte) : Statement (.cmdDecode bc de hl f a cmd) :=
  of_byte rfl (by simp [row])

theorem cmdHigh (x : Word) : Statement (.cmdHigh x) := of_byte rfl (by simp [row])

theorem cmdLow (x : Word) : Statement (.cmdLow x) := of_byte rfl (by simp [row])

theorem cmdClassify (cmd : Byte) : Statement (.cmdClassify cmd) := of_byte rfl (by simp [row])

theorem roConstruct (base : Word) (data : List Byte) : Statement (.roConstruct base data) := of_byte rfl (by simp [row])

theorem roRound : Statement .roRound := of_byte rfl (by simp [row])

theorem roEcho : Statement .roEcho := of_byte rfl (by simp [row])

theorem roEndround : Statement .roEndround := of_byte rfl (by simp [row])

theorem roExit : Statement .roExit := of_byte rfl (by simp [row])

theorem dspWaitSync : Statement .dspWaitSync := of_byte rfl (by simp [row])

theorem dspReadFixed9 : Statement .dspReadFixed9 := of_byte rfl (by simp [row])

theorem dspDecode : Statement .dspDecode := of_byte rfl (by simp [row])

theorem dspDispatch : Statement .dspDispatch := of_byte rfl (by simp [row])

theorem dspRespond : Statement .dspRespond := of_byte rfl (by simp [row])

theorem dspFlush : Statement .dspFlush := of_byte rfl (by simp [row])

theorem inDskioRead (bc de hl : Word) (f a : Byte) : Statement (.inDskioRead bc de hl f a) :=
  of_byte rfl (by simp [row, Config.default])

theorem inDskioWrite (bc de hl : Word) (f a : Byte) : Statement (.inDskioWrite bc de hl f a) :=
  of_byte rfl (by simp [row, Config.default])

theorem inCmdrequest (bc de hl : Word) (f a : Byte) : Statement (.inCmdrequest bc de hl f a) :=
  of_byte rfl (by simp [row, Config.default])

theorem inKnownOther (bc de hl : Word) (f a cmd : Byte) : Statement (.inKnownOther bc de hl f a cmd) := by
  intro hw b hb
  have hall : ∀ x : Byte, classify Config.default x = .known → x &&& 0xE0#8 = 0x80#8 := by decide
  cases hb
  simp only [Instr.wf, Bool.and_eq_true, decide_eq_true_eq] at hw
  exact hall cmd hw.1

theorem inUnknown (bc de hl : Word) (f a cmd : Byte) : Statement (.inUnknown bc de hl f a cmd) := by
  intro _ b _
  simp [row]

theorem outFasttransfer (e : Word) (p0 : List Byte) (ps : List (List Byte)) : Statement (.outFasttransfer e p0 ps) :=
  of_byte rfl (by simp [row, Config.default])

theorem outSlowtransfer (dest : Word) (p : List Byte) : Statement (.outSlowtransfer dest p) :=
  of_byte rfl (by simp [row, Config.default])

theorem outExit : Statement .outExit := of_byte rfl (by simp [row, Config.default])

theorem outFixedReply (bs : List Byte) : Statement (.outFixedReply bs) := by
  intro _ b _
  simp [row]

end Sys2Proof.Laws.KeyByte
end

