-- ==== Sys2Proof/Laws/Step.lean ====
section
/-! SUPPORT. Everything a step can be, which action ENG's move is, and what an arriving frame does. -/

namespace Sys2Proof.Machine

/-- Everything a step that answers a next state can be (60_exceptions.md R114). -/
theorem step_cases {s t : State} (h : step s = .next t) :
    ((currentOffer s).reset = true ∧ t = resetEvent (dropOffer s)) ∨
    ((currentOffer s).reset = false ∧ (currentOffer s).linkLost = true ∧ t = linkLost (dropOffer s)) ∨
    ((currentOffer s).reset = false ∧ (currentOffer s).linkLost = false ∧
      ((∃ i, moveInstr (dropOffer s) (currentOffer s).move = .ok (some i) ∧ exec i (dropOffer s) = .next t) ∨
       (moveInstr (dropOffer s) (currentOffer s).move = .ok none ∧ t = dropOffer s))) := by
  unfold step at h
  split at h
  · next hr => cases h; exact .inl ⟨hr, rfl⟩
  · next hr =>
    split at h
    · next hl => cases h; exact .inr (.inl ⟨by simpa using hr, hl, rfl⟩)
    · next hl =>
      refine .inr (.inr ⟨by simpa using hr, by simpa using hl, ?_⟩)
      split at h
      · next i e => exact .inl ⟨i, e, h⟩
      · next e => cases h; exact .inr ⟨e, rfl⟩
      · cases h

/-- Which action a move of ENG is (44_dispatcher.md R95). -/
theorem engine_cases {s t : State} (hm : s.engineMoves) (h : step s = .next t) :
    ∃ s0, s0 = dropOffer s ∧ ((s.fsm = .waitSync ∧ exec .dspWaitSync s0 = .next t) ∨
    (s.fsm = .readFixed9 ∧ exec .dspReadFixed9 s0 = .next t) ∨
    (s.fsm = .decode ∧ exec .dspDecode s0 = .next t) ∨
    (s.fsm = .dispatch ∧ exec .dspDispatch s0 = .next t) ∨
    (s.fsm = .respond ∧ exec .dspRespond s0 = .next t) ∨
    (s.fsm = .flush ∧ exec .dspFlush s0 = .next t) ∨
    (s.fsm = .halted ∧ t = s0)) := by
  refine ⟨_, rfl, ?_⟩
  unfold State.engineMoves at hm
  have hf : (dropOffer s).fsm = s.fsm := rfl
  unfold step at h
  cases hs : s.fsm <;> simp_all [moveInstr, engineInstr]

theorem runSteps_succ {s u : State} (n : Nat) (h : step s = .next u) : runSteps (n + 1) s = runSteps n u := by
  simp [runSteps, h]

@[simp] theorem runSteps_one (s : State) : runSteps 1 s = step s := by
  simp only [runSteps]; cases step s <;> rfl

/-- The first `k` steps, then the rest. -/
theorem runSteps_add (k n : Nat) : ∀ {s u : State}, runSteps k s = .next u → runSteps (k + n) s = runSteps n u := by
  induction k with
  | zero => intro s u h; cases h; rw [Nat.zero_add]
  | succ k ih =>
    intro s u h
    rw [Nat.add_right_comm]
    simp only [runSteps] at h ⊢
    cases hs : step s with
    | next v => rw [hs] at h; exact ih h
    | fault r => rw [hs] at h; cases h
    | refused r => rw [hs] at h; cases h

/-- The host's run of the machine is this one. -/
theorem core_run (n : Nat) : ∀ s : State, core.run n s = runSteps n s := by
  induction n with
  | zero => exact fun _ => rfl
  | succ n ih =>
    intro s
    refine (Host.Core.run.eq_2 core s n).trans ?_
    have hs : core.step s = step s := rfl
    rw [hs, runSteps]
    cases step s with
    | next t => exact ih t
    | fault r => rfl
    | refused r => rfl

/-- A move of ENG runs its action on the rest of the agenda. -/
theorem step_eng {s : State} {ag : List Offer} {i : Instr} (h : s.agenda = engTurn :: ag) (hi : engineInstr s = some i) :
    step s = exec i { s with agenda := ag } := by
  have : engineInstr (dropOffer s) = some i := hi
  simp [step, currentOffer, h, moveInstr, this]
  simp [dropOffer, h]

/-- A move of ENG in `HALTED` only takes the offer. -/
theorem step_eng_halted {s : State} {ag : List Offer} (h : s.agenda = engTurn :: ag) (hi : s.fsm = .halted) :
    step s = .next { s with agenda := ag } := by
  have : engineInstr (dropOffer s) = none := by simp [engineInstr, hi]
  simp [step, currentOffer, h, moveInstr, this]
  simp [dropOffer, h]

/-- FEED's append (40_inbound_queue.md R61). -/
theorem append_cases (bs : List Byte) (s : State) : append bs s = .ok () { s with inq := s.inq ++ bs } ∨
    append bs s = .raised .queueOverflow (.queue .inbound s.inq.length bs.length) s := by
  unfold append; split
  · exact .inl rfl
  · exact .inr rfl

/-- A frame that ENG is not ready for is appended, or overflows the queue. -/
theorem frameArrives_waits {c : Command} {s : State} (h : readyForFrame s = false) :
    frameArrives c s = .next { s with inq := s.inq ++ frameBytes s.cfg c } ∨
      ∃ i, frameArrives c s = .next (fatal .queueOverflow i s) := by
  unfold frameArrives
  rcases append_cases (frameBytes s.cfg c) s with e | e <;> rw [e]
  · exact .inl (by simp [h])
  · exact .inr ⟨_, by simp [takeError_fatal]; rfl⟩

/-- A frame that ENG is ready for and that fits is taken and dispatched. -/
theorem frameArrives_taken {c : Command} {s : State} (hr : readyForFrame s = true)
    (hi : s.inRoom (s.cfg.sync.length + 9)) :
    frameArrives c s = dispatchCommand c (decodeAction c (frameTaken c s)) := by
  simp only [frameArrives]
  rw [append_room (by simpa using hi)]
  simp [hr, frameTaken, deadlineReset, writeCommand]

theorem readyForFrame_iff (s : State) : readyForFrame s = true ↔ s.fsm = .waitSync ∧ s.inq = [] ∧
    s.seq = some s.cfg.sync ∧ s.syncI = 0 ∧ expired s = false ∧ s.cfg.fixedLen ≤ 9 := by
  simp [readyForFrame, and_assoc]

/-- The instruction of every inbound row is a frame arriving. -/
theorem exec_inbound {i : Instr} (h : i.format = .inbound) (s : State) :
    ∃ c, encode s.cfg i = frameBytes s.cfg c ∧ exec i s = frameArrives c s := by
  cases i <;> simp [Instr.format] at h <;> exact ⟨_, rfl, rfl⟩

end Sys2Proof.Machine
end

