-- ==== Sys2Proof/Tests/Slice0.lean ====
section
/-! SUPPORT. The model's own tests: ill-formed terms refused, words written out from the spec, the spec's vectors
(95_test_vectors.md, named beside each), and for every statement with hypotheses a state and operands that meet them. -/

namespace Sys2Proof.Tests

open Sys2Proof.Machine

/-- A next state that meets a check. -/
def gives (o : Host.Outcome State Fault Refusal) (p : State → Bool) : Bool :=
  match o with
  | .next t => p t
  | .fault _ => false
  | .refused _ => false

/-- The state after reset with these bytes to read. -/
def withIn (bs : List Byte) : State := { State.reset with inq := bs }

/-- The state after reset with these bytes to send. -/
def withOut (bs : List Byte) : State := { State.reset with outq := bs }

/-- The state after reset with the deadline just expired (`700 * 1 >= 700`). -/
def late : State := { State.reset with dlElapsed := 700 }

/-- The state after reset one tick before that. -/
def soon : State := { State.reset with dlElapsed := 699 }

/-- A Dispatcher state with a Command to act on. -/
def commanded (f : Fsm) (c : Command) : State := { State.reset with fsm := f, command := c, cmdValid := true }

/-- `b0 (M 00)` and `b1 (M 80)` of V-RO-6, with short payloads of the same markers. -/
def b0 : DataBlock := ⟨[0x41#8, 0x42#8], 0x00#8⟩

/-- A block whose marker is 01. -/
def b1 : DataBlock := ⟨[0x00#8], 0x01#8⟩

/-- A round of two blocks whose echoes are awaited. -/
def echoing (idx : Nat) (bs : List Byte) : State :=
  { State.reset with fsm := .respond, roPhase := .echo, roPending := [b0, b1], roIdx := idx, inq := bs, seq := none }

/-! ### Well-formedness: one ill-formed term for each check -/

theorem test_wf_config : Config.default.wf = true := by decide
theorem test_wf_fixedLen : { Config.default with fixedLen := 8 }.wf = false := by decide
theorem test_wf_chunkZero : { Config.default with chunkSize := 0 }.wf = false := by decide
theorem test_wf_chunkOverPayload : { Config.default with chunkSize := 255 }.wf = false := by decide
theorem test_wf_payloadOverMarker : { Config.default with maxPayload := 255 }.wf = false := by decide
theorem test_wf_dskioKnown : { Config.default with opDskio := 0x99#8 }.wf = false := by decide
theorem test_wf_cmdrequestKnown : { Config.default with opCmdrequest := 0x99#8 }.wf = false := by decide
theorem test_wf_opcodesDiffer : { Config.default with opCmdrequest := 0x80#8 }.wf = false := by decide
theorem test_wf_codesDiffer : { Config.default with codeSlow := 0x01#8 }.wf = false ∧
    { Config.default with codeExit := 0x01#8 }.wf = false ∧ { Config.default with codeExit := 0x02#8 }.wf = false := by
  decide

theorem test_wf_readFlag : (Instr.inDskioRead 0 0 0 0x01#8 0).wf Config.default = false ∧
    (Instr.inDskioRead 0 0 0 0xFE#8 0).wf Config.default = true := by decide
theorem test_wf_writeFlag : (Instr.inDskioWrite 0 0 0 0xFE#8 0).wf Config.default = false := by decide
theorem test_wf_knownOther : (Instr.inKnownOther 0 0 0 0 0 0x93#8).wf Config.default = false ∧
    (Instr.inKnownOther 0 0 0 0 0 0x80#8).wf Config.default = false ∧
    (Instr.inKnownOther 0 0 0 0 0 0x99#8).wf Config.default = false ∧
    (Instr.inKnownOther 0 0 0 0 0 0x98#8).wf Config.default = true := by decide
theorem test_wf_unknown : (Instr.inUnknown 0 0 0 0 0 0x98#8).wf Config.default = false ∧
    (Instr.inUnknown 0 0 0 0 0 0x7F#8).wf Config.default = true := by decide
theorem test_wf_fastCount : (Instr.outFasttransfer 0 [0] (List.replicate 255 [0])).wf Config.default = false ∧
    (Instr.outFasttransfer 0 [0] (List.replicate 254 [0])).wf Config.default = true := by
  simp only [Instr.wf, legalPayload, List.length_replicate, List.all_cons, List.all_replicate]
  decide
theorem test_wf_fastPayload : (Instr.outFasttransfer 0 [] []).wf Config.default = false ∧
    (Instr.outFasttransfer 0 (List.replicate 255 0) []).wf Config.default = false := by
  simp only [Instr.wf, legalPayload, List.length_replicate, List.all_cons, List.all_nil]
  decide
theorem test_wf_slowLength : (Instr.outSlowtransfer 0 []).wf Config.default = false ∧
    (Instr.outSlowtransfer 0 (List.replicate 128 0)).wf Config.default = false ∧
    (Instr.outSlowtransfer 0 (List.replicate 127 0)).wf Config.default = true := by
  simp only [Instr.wf, legalPayload, List.length_replicate]
  decide
theorem test_wf_slowField : (Instr.outSlowtransfer 0 (List.replicate 65536 0)).wf
    { Config.default with chunkSize := 100000, maxPayload := 100000 } = false := by
  simp only [Instr.wf, legalPayload, List.length_replicate]
  decide
theorem test_wf_replyCode : (Instr.outFixedReply [0x03#8]).wf Config.default = false ∧
    (Instr.outFixedReply [0x04#8]).wf Config.default = true := by decide

/-! ### Decoding: every constructor, from bytes written out from R58, R44 and R46 to R51 -/

theorem test_decode_iq :
    decodeUop [0b00000001#8, 1, 0xAF#8, 1, 0x05#8, 0] = .ok (.iqAppend [0xAF#8, 0x05#8], []) ∧
    decodeUop [0b00000010#8] = .ok (.iqNextbyte, []) ∧
    decodeUop [0b00000011#8, 0xAF#8, 1, 0x05#8, 0] = .ok (.iqWaitseq 0xAF#8 [0x05#8], []) ∧
    decodeUop [0b00000100#8, 1, 9, 0] = .ok (.iqWaitavail 9, []) ∧
    decodeUop [0b00000101#8] = .ok (.iqReadbyte, []) ∧ decodeUop [0b00000110#8] = .ok (.iqReadword, []) ∧
    decodeUop [0b00000111#8] = .ok (.iqClear, []) ∧ decodeUop [0b00001000#8] = .ok (.iqDlreset, []) ∧
    decodeUop [0b00001001#8] = .ok (.clkTick, []) := by decide

theorem test_decode_oq :
    decodeUop [0b00010000#8] = .ok (.oqHeader, []) ∧ decodeUop [0b00010001#8, 3] = .ok (.oqByte 3, []) ∧
    decodeUop [0b00010010#8, 0x00#8, 0xC2#8] = .ok (.oqWord 0xC200#16, []) ∧
    decodeUop [0b00010011#8, 1, 1, 1, 2, 0] = .ok (.oqRaw [1, 2], []) ∧
    decodeUop [0b00010100#8, 1, 0, 0] = .ok (.oqBlock [0], []) ∧ decodeUop [0b00010101#8] = .ok (.oqTakeall, []) := by
  decide

theorem test_decode_db_cmd :
    decodeUop [0b00100000#8, 1, 0, 0] = .ok (.dbMarker [0], []) ∧
    decodeUop [0b00100001#8, 1, 0, 0] = .ok (.dbConstruct [0], []) ∧
    decodeUop [0b00100010#8, 0xC2#8, 0x10#8, 0x34#8, 0x12#8, 0x78#8, 0x56#8, 1, 2, 0x93#8]
      = .ok (.cmdDecode 0x10C2#16 0x1234#16 0x5678#16 1 2 0x93#8, []) ∧
    decodeUop [0b00100011#8, 0xC2#8, 0x10#8] = .ok (.cmdHigh 0x10C2#16, []) ∧
    decodeUop [0b00100100#8, 0xC2#8, 0x10#8] = .ok (.cmdLow 0x10C2#16, []) ∧
    decodeUop [0b00100101#8, 0x7F#8] = .ok (.cmdClassify 0x7F#8, []) := by decide

theorem test_decode_ro :
    decodeUop [0b00110000#8, 0x00#8, 0xC0#8, 1, 7, 0] = .ok (.roConstruct 0xC000#16 [7], []) ∧
    decodeUop [0b00110001#8] = .ok (.roRound, []) ∧ decodeUop [0b00110010#8] = .ok (.roEcho, []) ∧
    decodeUop [0b00110011#8] = .ok (.roEndround, []) ∧ decodeUop [0b00110100#8] = .ok (.roExit, []) := by decide

theorem test_decode_dsp :
    decodeUop [0b01000000#8] = .ok (.dspWaitSync, []) ∧ decodeUop [0b01000001#8] = .ok (.dspReadFixed9, []) ∧
    decodeUop [0b01000010#8] = .ok (.dspDecode, []) ∧ decodeUop [0b01000011#8] = .ok (.dspDispatch, []) ∧
    decodeUop [0b01000100#8] = .ok (.dspRespond, []) ∧ decodeUop [0b01000101#8] = .ok (.dspFlush, []) := by decide

theorem test_decode_inbound :
    decodeInbound Config.default [0xAF#8, 0x05#8, 0xF9#8, 0x01#8, 3, 0, 0x00#8, 0xC0#8, 0, 0, 0b10000000#8]
      = .ok (.inDskioRead 0x01F9#16 3 0xC000#16 0 0, []) ∧
    decodeInbound Config.default [0xAF#8, 0x05#8, 0xF9#8, 0x01#8, 3, 0, 0x00#8, 0xC0#8, 1, 0, 0b10000000#8]
      = .ok (.inDskioWrite 0x01F9#16 3 0xC000#16 1 0, []) ∧
    decodeInbound Config.default [0xAF#8, 0x05#8, 0xC2#8, 0x10#8, 0x34#8, 0x12#8, 0x78#8, 0x56#8, 0, 0, 0b10010011#8]
      = .ok (.inCmdrequest 0x10C2#16 0x1234#16 0x5678#16 0 0, []) ∧
    decodeInbound Config.default [0xAF#8, 0x05#8, 1, 2, 3, 4, 5, 6, 7, 8, 0b10011000#8]
      = .ok (.inKnownOther 0x0201#16 0x0403#16 0x0605#16 7 8 0x98#8, []) ∧
    decodeInbound Config.default [0xAF#8, 0x05#8, 0xAF#8, 0x05#8, 0xAF#8, 0x05#8, 0xAF#8, 0x05#8, 0xAF#8, 0x05#8, 0xAF#8, 9]
      = .ok (.inUnknown 0x05AF#16 0x05AF#16 0x05AF#16 0xAF#8 0x05#8 0xAF#8, [9]) ∧
    decodeInbound Config.default [0x05#8, 0xAF#8] = .error .noSync ∧
    decodeInbound Config.default [0xAF#8, 0x05#8, 1, 2, 3, 4, 5, 6, 7, 8] = .error .shortFrame := by decide

theorem test_decode_outbound :
    decodeOutbound Config.default [0xFF#8, 0xAF#8, 0x05#8, 1, 0x80#8, 0xC1#8, 2, 0, 0x80#8, 0, 1, 0, 1]
      = .ok (.outFasttransfer 0xC180#16 [0x80#8] [[0]], []) ∧
    decodeOutbound Config.default [0xFF#8, 0xAF#8, 0x05#8, 2, 0x00#8, 0x80#8, 1, 0, 0, 0x41#8, 0]
      = .ok (.outSlowtransfer 0x8000#16 [0x41#8], []) ∧
    decodeOutbound Config.default [0xFF#8, 0xAF#8, 0x05#8, 3] = .ok (.outExit, []) ∧
    decodeOutbound Config.default [0xFF#8, 0xAF#8, 0x05#8, 9, 8] = .ok (.outFixedReply [9, 8], []) ∧
    decodeOutbound Config.default [0xAF#8, 0x05#8, 3] = .error .noHeader ∧
    decodeOutbound Config.default [0xFF#8, 0xAF#8, 0x05#8, 1, 0, 0, 0] = .error .noBlocks ∧
    decodeOutbound Config.default [0xFF#8, 0xAF#8, 0x05#8, 1, 0, 0, 1, 5, 7, 5] = .error .badBlock ∧
    decodeOutbound Config.default [0xFF#8, 0xAF#8, 0x05#8, 2, 0, 0, 2, 0, 0, 7, 0] = .error .badLength := by decide

theorem test_decode_errors : decodeUop [] = .error .noBytes ∧ decodeUop [0x11#8] = .error .noOperand ∧
    decodeUop [0x13#8, 2] = .error .badListTag ∧ decodeUop [0x0A#8] = .error .unknownCode := by decide

theorem test_tableWord : decodeTableWord 8 0x01 = some (.iqAppend []) ∧ decodeTableWord 8 0x22 = some (.cmdDecode 0 0 0 0 0 0) ∧
    decodeTableWord 8 0x45 = some .dspFlush ∧ decodeTableWord 8 0x80 = some (.inDskioRead 0 0 0 0 0) ∧
    decodeTableWord 8 0x93 = some (.inCmdrequest 0 0 0 0 0) ∧ decodeTableWord 8 0x84 = some (.inKnownOther 0 0 0 0 0 0x84#8) ∧
    decodeTableWord 8 0x7F = some (.inUnknown 0 0 0 0 0 0x7F#8) := by decide

theorem test_fetchWord : gives (step (State.reset.withFetchWord 8 0x10)) (fun t => t.outq == [0xFF#8, 0xAF#8, 0x05#8]) = true ∧
    gives (step (State.reset.withFetchWord 8 0x7F)) (fun t => t.command.cmd == 0x7F#8 && t.fsm == .respond) = true := by
  decide

/-! ### InboundQueue -/

theorem test_append : gives (exec (.iqAppend [0xAF#8, 0x05#8]) (withIn [1])) (fun t => t.inq == [1, 0xAF#8, 0x05#8]) = true := by
  decide -- V-IQ-1
theorem test_append_full : gives (exec (.iqAppend [4, 5]) { withIn [1, 2, 3] with cfg := { Config.default with inDepth := some 4 } })
    (fun t => t.fault == .queueOverflow && t.fsm == .halted && t.inq == [1, 2, 3]) = true := by decide -- V-IQ-3
theorem test_tick : gives (exec .clkTick soon) (fun t => t.dlElapsed == 700 && expired t) = true := by decide -- V-IQ-4
theorem test_dlreset : gives (exec .iqDlreset late) (fun t => t.dlElapsed == 0) = true := by decide -- V-IQ-5
theorem test_nextbyte : gives (exec .iqNextbyte (withIn [0x80#8, 0])) (fun t => t.ret == .byte 0x80#8 && t.inq == [0]) = true := by
  decide -- V-IQ-6
theorem test_nextbyte_timeout : gives (exec .iqNextbyte late)
    (fun t => t.diaglog == [.error .protocolTimeout .nextbyte] && t.dlElapsed == 0 && t.fault == .none) = true := by
  decide -- V-IQ-8
theorem test_waitseq_restart : gives (exec (.iqWaitseq 0xAF#8 [0x05#8])
    { withIn [0xAF#8, 0x05#8, 0xC2#8] with syncI := 1, syncDiscard := 1 }) (fun t => t.syncI == 1 && t.syncDiscard == 2) = true := by
  decide -- V-SRC-3 (b), step 3
theorem test_waitseq_restart_at_zero : gives (exec (.iqWaitseq 0xAF#8 [0x05#8]) { withIn [0, 0xAF#8, 0x05#8] with syncI := 1 })
    (fun t => t.syncI == 0 && t.syncDiscard == 2) = true := by decide -- V-IQ-12, step 2
theorem test_waitavail : gives (exec (.iqWaitavail 9) (withIn [0, 1, 2, 3, 4, 5, 6, 7, 8, 9]))
    (fun t => t.ret == .completed && t.inq.length == 10) = true := by decide -- V-IQ-17
theorem test_waitavail_timeout : gives (exec (.iqWaitavail 9) { late with inq := [1, 2, 3] })
    (fun t => t.diaglog == [.error .protocolTimeout (.waitavail 3 9)] && t.inq == []) = true := by decide -- V-IQ-16
theorem test_readbyte : gives (exec .iqReadbyte (withIn [0x93#8])) (fun t => t.ret == .byte 0x93#8 && t.inq == []) = true := by
  decide -- V-IQ-19
theorem test_readbyte_empty : gives (exec .iqReadbyte State.reset) (fun t => t.fault == .readUnderflow) = true := by
  decide -- V-IQ-20
theorem test_readword : gives (exec .iqReadword (withIn [0xC2#8, 0x10#8, 0x77#8]))
    (fun t => t.ret == .word 0x10C2#16 && t.inq == [0x77#8]) = true := by decide -- V-IQ-21
theorem test_readword_short : gives (exec .iqReadword (withIn [0xC2#8])) (fun t => t.fault == .readUnderflow && t.inq == [0xC2#8])
    = true := by decide -- V-IQ-23
theorem test_clear : gives (exec .iqClear { soon with inq := [0xF9#8, 1, 3] }) (fun t => t.inq == [] && t.dlElapsed == 699) = true := by
  decide -- V-IQ-24

/-! ### OutboundQueue -/

theorem test_header : gives (exec .oqHeader (withOut [0xFF#8, 0xAF#8, 0x05#8, 3]))
    (fun t => t.outq == [0xFF#8, 0xAF#8, 0x05#8, 3, 0xFF#8, 0xAF#8, 0x05#8]) = true := by decide -- V-OQ-2
theorem test_byte_full : gives (exec (.oqByte 1) { withOut [1, 2, 3, 4, 5] with cfg := { Config.default with outDepth := some 5 } })
    (fun t => t.fault == .queueOverflow && t.outq.length == 5) = true := by decide -- V-OQ-16
theorem test_byte : gives (exec (.oqByte 3) (withOut [0xFF#8, 0xAF#8, 0x05#8])) (fun t => t.outq == [0xFF#8, 0xAF#8, 0x05#8, 3]) = true := by
  decide -- V-OQ-3
theorem test_word : gives (exec (.oqWord 0xC200#16) State.reset) (fun t => t.outq == [0, 0xC2#8]) = true := by decide -- V-OQ-4
theorem test_raw : gives (exec (.oqRaw [1, 2]) (withOut [0xFF#8])) (fun t => t.outq == [0xFF#8, 1, 2]) = true := by decide -- V-OQ-6
theorem test_block : gives (exec (.oqBlock [0]) State.reset) (fun t => t.outq == [1, 0, 1]) = true := by decide -- V-OQ-8
theorem test_block_empty : gives (exec (.oqBlock []) State.reset) (fun t => t.fault == .blockLength && t.outq == []) = true := by
  decide -- V-OQ-10
theorem test_takeall : gives (exec .oqTakeall (withOut [0xFF#8, 3])) (fun t => t.ret == .bytes [0xFF#8, 3] && t.outq == []) = true := by
  decide -- V-OQ-13

/-! ### DataBlock and Command -/

theorem test_marker : gives (exec (.dbMarker [3, 0, 1]) State.reset) (fun t => t.ret == .byte 2) = true := by decide -- V-DB-3
theorem test_construct : gives (exec (.dbConstruct [0]) State.reset) (fun t => t.ret == .block ⟨[0], 1⟩) = true := by decide -- V-DB-6
theorem test_construct_long : gives (exec (.dbConstruct [0, 0, 0])
    { State.reset with cfg := { Config.default with maxPayload := 2 } }) (fun t => t.fault == .blockLength) = true := by
  decide -- V-DB-8, with MAX_PAYLOAD 2
theorem test_cmdDecode : gives (exec (.cmdDecode 0x10C2#16 0x1234#16 0x5678#16 0 0 0x93#8) State.reset)
    (fun t => t.cmdValid && ByteReg.b.read t.command == 0x10#8 && ByteReg.c.read t.command == 0xC2#8) = true := by
  decide -- V-SRC-7
theorem test_high : gives (exec (.cmdHigh 0x00FF#16) State.reset) (fun t => t.ret == .byte 0) = true := by decide -- V-CMD-4
theorem test_low : gives (exec (.cmdLow 0x00FF#16) State.reset) (fun t => t.ret == .byte 0xFF#8) = true := by decide -- V-CMD-4
theorem test_classify : gives (exec (.cmdClassify 0x99#8) State.reset) (fun t => t.ret == .cls .unknown) = true := by decide -- V-CMD-3
theorem test_classify_known : gives (exec (.cmdClassify 0x93#8) State.reset) (fun t => t.ret == .cls .known) = true := by
  decide -- V-SRC-7

/-! ### ReadOperation -/

theorem test_roConstruct : gives (exec (.roConstruct 0x8000#16 [0x41#8, 0x42#8]) State.reset)
    (fun t => t.roPending == [⟨[0x41#8, 0x42#8], 0⟩] && t.roPhase == .send) = true := by decide -- V-RO-2
theorem test_roConstruct_order : gives (exec (.roConstruct 0 [1, 2, 3])
    { State.reset with cfg := { Config.default with chunkSize := 2 } })
    (fun t => t.roPending.map DataBlock.payload == [[3], [1, 2]]) = true := by decide -- R83: the last, short chunk first
theorem test_roRound : gives (exec .roRound { State.reset with roPhase := .send, roBase := 0x8000#16, roPending := [b0] })
    (fun t => t.txlog == [[0xFF#8, 0xAF#8, 0x05#8, 1, 0x02#8, 0x80#8, 1, 0, 0x41#8, 0x42#8, 0]] && t.roPhase == .echo) = true := by
  decide -- V-RO-3
theorem test_roRound_wraps : gives (exec .roRound { State.reset with roPhase := .send, roBase := 0xFFFE#16, roPending := [b0] })
    (fun t => (t.txlog.map fun f => (f.drop 4).take 2) == [[0, 0]]) = true := by decide -- V-RO-5, R30
theorem test_roEcho : gives (exec .roEcho (echoing 0 [0, 0x55#8])) (fun t => t.roIdx == 1 && t.roRetained == [] && t.roRetx == 0)
    = true := by decide -- V-RO-6
theorem test_roEcho_wrong : gives (exec .roEcho (echoing 1 [0x55#8])) (fun t => t.roIdx == 2 && t.roRetained == [b1] && t.roRetx == 1)
    = true := by decide -- V-RO-6
theorem test_roEndround : gives (exec .roEndround { echoing 2 [] with roRetained := [b1] })
    (fun t => t.roPending == [b1] && t.roRetained == [] && t.roPhase == .send) = true := by decide -- V-RO-6
theorem test_roExit : gives (exec .roExit { State.reset with roPhase := .send })
    (fun t => t.outq == [0xFF#8, 0xAF#8, 0x05#8, 3] && t.roPhase == .none) = true := by decide -- V-RO-1

/-! ### Dispatcher -/

theorem test_waitSync : gives (exec .dspWaitSync { withIn [0x05#8, 7] with syncI := 1, dlElapsed := 3 })
    (fun t => t.fsm == .readFixed9 && t.dlElapsed == 0 && t.inq == [7] && t.syncDiscard == 0) = true := by decide -- V-DSP-1
theorem test_waitSync_timeout : gives (exec .dspWaitSync late)
    (fun t => t.diaglog == [.error .protocolTimeout (.waitseq 0)] && t.fsm == .waitSync && t.dlElapsed == 0) = true := by
  decide -- V-EXC-1
theorem test_readFixed9 : gives (exec .dspReadFixed9 { withIn [0xC2#8, 0x10#8, 0x34#8, 0x12#8, 0x78#8, 0x56#8, 0, 0, 0x93#8] with
      fsm := .readFixed9 }) (fun t => t.command == ⟨0x10C2#16, 0x1234#16, 0x5678#16, 0, 0, 0x93#8⟩ && t.fsm == .decode) = true := by
  decide -- V-DSP-2
theorem test_decode : gives (exec .dspDecode (commanded .decode ⟨0, 0, 0, 0, 0, 0x7F#8⟩))
    (fun t => t.diaglog == [.cmdReceived ⟨0, 0, 0, 0, 0, 0x7F#8⟩ .unknown] && t.fsm == .dispatch) = true := by decide -- V-DSP-4

/-- Before any decode the registers give what they hold from reset (log entry 5). -/
theorem test_decode_unwritten : gives (exec .dspDecode State.reset)
    (fun t => t.diaglog == [.cmdReceived ⟨0, 0, 0, 0, 0, 0⟩ .unknown] && t.fsm == .dispatch) = true := by decide

theorem test_dispatch_write : gives (exec .dspDispatch (commanded .dispatch ⟨0x01F9#16, 3, 0xC000#16, 1, 0, 0x80#8⟩))
    (fun t => t.outq == [] && t.roPhase == .none && t.fsm == .respond) = true := by decide -- V-DSP-5
theorem test_dispatch_store : gives (exec .dspDispatch (commanded .dispatch ⟨0x0100#16, 0x0600#16, 0, 0, 0, 0x80#8⟩))
    (fun t => t.fault == .diskStoreFault && t.diaglog == [.error .diskStoreFault (.store 786432 512)]) = true := by
  decide -- V-EXC-6
theorem test_respond : gives (exec .dspRespond { State.reset with fsm := .respond }) (fun t => t.fsm == .flush) = true := by
  decide -- V-DSP-9
theorem test_flush : gives (exec .dspFlush { withOut [0xFF#8, 0xAF#8, 0x05#8, 3] with fsm := .flush, dlElapsed := 9 })
    (fun t => t.txlog == [[0xFF#8, 0xAF#8, 0x05#8, 3]] && t.outq == [] && t.fsm == .waitSync && t.dlElapsed == 0) = true := by
  decide -- V-OQ-15, R107
theorem test_flush_empty : gives (exec .dspFlush { State.reset with fsm := .flush }) (fun t => t.txlog == [] && t.fsm == .waitSync)
    = true := by decide -- V-DSP-10

/-! ### Whole frames -/

theorem test_in_read_zero : gives (exec (.inDskioRead 0x00F9#16 3 0xC000#16 0 0) State.reset)
    (fun t => t.diaglog == [.cmdReceived ⟨0x00F9#16, 3, 0xC000#16, 0, 0, 0x80#8⟩ .dskio, .zeroLength] && t.roPhase == .none)
    = true := by decide -- P7
theorem test_in_read_slow : gives (exec (.inDskioRead 0x0100#16 0 0x8000#16 0 0)
    { State.reset with image := [(0, 0x41#8), (1, 0x42#8)], cfg := { Config.default with sectorSize := 2 } })
    (fun t => t.outq == [0xFF#8, 0xAF#8, 0x05#8, 2, 0x00#8, 0x80#8, 2, 0, 0, 0x41#8, 0x42#8, 0]) = true := by
  decide -- V-DSP-11, with sectors of two bytes
theorem test_in_write : gives (exec (.inDskioWrite 0x01F9#16 3 0xC000#16 1 0) State.reset)
    (fun t => t.diaglog == [.cmdReceived ⟨0x01F9#16, 3, 0xC000#16, 1, 0, 0x80#8⟩ .dskio] && t.outq == [] && t.fsm == .respond)
    = true := by decide -- P5
theorem test_in_cmdrequest : gives (exec (.inCmdrequest 0x10C2#16 0x1234#16 0x5678#16 0 0) State.reset)
    (fun t => t.fault == .unimplementedOpcode && t.fsm == .halted && t.syncI == 2 && t.inq == []) = true := by decide -- P1
theorem test_in_knownOther : gives (exec (.inKnownOther 0 0 0 0 0 0x85#8)
    { State.reset with cfg := { Config.default with fixedReply := [(⟨0, 0, 0, 0, 0, 0x85#8⟩, .reply [1])] } })
    (fun t => t.outq == [0xFF#8, 0xAF#8, 0x05#8, 1]) = true := by decide -- V-DSP-8
theorem test_in_unknown : gives (exec (.inUnknown 0 0 0 0 0 0x7F#8) State.reset)
    (fun t => t.diaglog == [.cmdReceived ⟨0, 0, 0, 0, 0, 0x7F#8⟩ .unknown, .unknownOpcode 0x7F#8] && t.fsm == .respond) = true := by
  decide -- P1c
theorem test_out_fast : gives (exec (.outFasttransfer 0x8002#16 [0x41#8, 0x42#8] []) State.reset)
    (fun t => t.outq == [0xFF#8, 0xAF#8, 0x05#8, 1, 0x02#8, 0x80#8, 1, 0, 0x41#8, 0x42#8, 0]) = true := by decide -- V-RO-3's frame
theorem test_out_slow : gives (exec (.outSlowtransfer 0x8000#16 [0x41#8]) State.reset)
    (fun t => t.outq == [0xFF#8, 0xAF#8, 0x05#8, 2, 0x00#8, 0x80#8, 1, 0, 0, 0x41#8, 0]) = true := by decide -- R49
theorem test_out_exit : gives (exec .outExit State.reset) (fun t => t.outq == [0xFF#8, 0xAF#8, 0x05#8, 3]) = true := by
  decide -- R50
theorem test_out_reply : gives (exec (.outFixedReply [1, 2]) State.reset) (fun t => t.outq == [0xFF#8, 0xAF#8, 0x05#8, 1, 2])
    = true := by decide -- R51

/-! ### Events -/

theorem test_link_lost : gives (step { withOut [3] with agenda := [{ linkLost := true }] })
    (fun t => t.fault == .transportLost && t.fsm == .halted && t.outq == [3] && t.txlog == []) = true := by decide -- V-EXC-3
theorem test_link_lost_halted : gives (step { State.reset with
      fsm := .halted, fault := .unimplementedOpcode, agenda := [{ linkLost := true }] })
    (fun t => t.fault == .unimplementedOpcode && t.diaglog == []) = true := by decide -- V-EXC-4
theorem test_reset_event : gives (step { withIn [1, 2] with
      fsm := .halted, fault := .diskStoreFault, agenda := [{ reset := true, linkLost := true }] })
    (fun t => t == State.reset) = true := by decide -- V-RST-1
theorem test_tick_halted : gives (step { State.reset with fsm := .halted, agenda := [clkTurn] }) (fun t => t.dlElapsed == 1) = true := by
  decide -- R62
theorem test_eng_halted : step { State.reset with fsm := .halted } = .next { State.reset with fsm := .halted } := rfl -- R112

/-! ### Image -/

theorem test_image : imageSet (imageSet (imageSet [] 7 1) 3 2) 7 0 = [(3, 2)] ∧ imageByte [(3, 2)] 7 = 0 ∧
    imageBytes [(3, 2)] 2 3 = [0, 2, 0] ∧ Memory.wf [(3, 2), (3, 1)] = false ∧ Memory.wf [(3, 0)] = false := by decide

/-! ### The hypotheses of each statement are met: one witness for each clause, at the boundary of its range

`late` has `700 ≤ 700 * 1` and `soon` `699 * 1 < 700`. -/

theorem test_hyp_DecodeEncodeAgree : Config.default.wf = true ∧
    ((Instr.inKnownOther 0 0 0 0 0 0x98#8).wf Config.default = true ∧
      ((∃ bs, Instr.inKnownOther 0 0 0 0 0 0x98#8 = .outFixedReply bs) → [(7 : Byte)] = [])) ∧
    ((Instr.outFixedReply [0x04#8]).wf Config.default = true ∧
      ((∃ bs, Instr.outFixedReply [0x04#8] = .outFixedReply bs) → ([] : List Byte) = [])) :=
  ⟨by decide, ⟨by decide, by simp⟩, ⟨by decide, fun _ => rfl⟩⟩

theorem test_hyp_StepRunsTheDecodedInstruction :
    { State.reset with agenda := [operationTurn .uop [0x09#8]] }.agenda = [operationTurn .uop [0x09#8]] ∧
    decode State.reset.cfg .uop [0x09#8] = .ok (.clkTick, []) ∧
    { State.reset with agenda := [operationTurn .uop [0x0A#8]] }.agenda = [operationTurn .uop [0x0A#8]] ∧
    decode State.reset.cfg .uop [0x0A#8] = .error .unknownCode ∧
    { State.reset with agenda := [feedTurn [1]] }.agenda = [feedTurn [1]] ∧
    { State.reset with agenda := [clkTurn] }.agenda = [clkTurn] := by decide

theorem test_hyp_EngineMovesByFsm : ∀ f : Fsm, { State.reset with fsm := f }.engineMoves ∧ { State.reset with fsm := f }.fsm = f ∧
    { State.reset with fsm := f } = { { State.reset with fsm := f } with agenda := { State.reset with fsm := f }.agenda.drop 1 } :=
  fun _ => ⟨rfl, rfl, rfl⟩

theorem test_hyp_ResetTakenOverEverything : { State.reset with
      agenda := [{ reset := true, linkLost := true, move := .clk }] }.agenda = [⟨true, true, .clk⟩] ∧
    (⟨true, true, .clk⟩ : Offer).reset = true := by decide

theorem test_hyp_LinkLostIsFatal : { State.reset with agenda := [{ linkLost := true }] }.agenda = [⟨false, true, .eng⟩] ∧
    (⟨false, true, .eng⟩ : Offer).reset = false ∧ (⟨false, true, .eng⟩ : Offer).linkLost = true ∧
    State.reset.fsm ≠ .halted ∧ { State.reset with fsm := .halted }.fsm = .halted := by decide

/-- A queue bounded to five bytes that holds three: two more fit, three do not. -/
def bounded : State := { State.reset with
  inq := [1, 2, 3], outq := [1, 2, 3], cfg := { Config.default with inDepth := some 5, outDepth := some 5 } }

theorem test_hyp_room : bounded.inRoom 2 ∧ ¬ bounded.inRoom 3 ∧ bounded.outRoom 2 ∧ ¬ bounded.outRoom 3 ∧
    State.reset.outRoom 1000 ∧ State.reset.inRoom 1000 := by
  simp [State.inRoom, State.outRoom, bounded, State.reset, Config.default]

theorem test_hyp_AppendPlacesTheWholeBatch : bounded.fsm ≠ .halted ∧ bounded.inRoom [4, 5].length ∧ ¬ bounded.inRoom [4, 5, 6].length :=
  ⟨by decide, test_hyp_room.1, test_hyp_room.2.1⟩

theorem test_hyp_TickAndDeadlineReset : late.fsm ≠ .halted := by decide

theorem test_hyp_NextByteWaitsForAByte : soon.fsm ≠ .halted ∧ late.fsm ≠ .halted ∧
    ({ soon with inq := [7] }.inq = 7 :: [] ∧
      { soon with inq := [7] }.dlElapsed * { soon with inq := [7] }.cfg.tickMs < { soon with inq := [7] }.cfg.timeoutMs) ∧
    ({ late with inq := [7] }.inq = 7 :: [] ∧
      { late with inq := [7] }.cfg.timeoutMs ≤ { late with inq := [7] }.dlElapsed * { late with inq := [7] }.cfg.tickMs) ∧
    (late.inq = [] ∧ late.cfg.timeoutMs ≤ late.dlElapsed * late.cfg.tickMs) ∧
    (soon.inq = [] ∧ soon.dlElapsed * soon.cfg.tickMs < soon.cfg.timeoutMs) := by decide

/-- In the middle of `IQ.WAITSEQ SYNC`, one byte matched. -/
def matching (bs : List Byte) : State := { soon with inq := bs, syncI := 1, syncDiscard := 4 }

theorem test_hyp_WaitSequenceMatchesOneByte : (matching []).fsm ≠ .halted ∧ (matching []).seqAt [0xAF#8, 0x05#8] 1 4 ∧
    (withIn [0xAF#8]).seqAt [0x05#8] 0 0 ∧ (matching []).dlElapsed * (matching []).cfg.tickMs < (matching []).cfg.timeoutMs ∧
    ((matching [5]).inq = 5 :: [] ∧ matchedTo [0xAF#8, 0x05#8] 5 1 4 2 4 ∧ 2 = [0x05#8].length + 1) ∧
    (matchedTo [0xAF#8, 0x05#8] 0xAF#8 0 0 1 0 ∧ matchedTo [0xAF#8, 0x05#8] 0xAF#8 1 4 1 5 ∧
      matchedTo [0xAF#8, 0x05#8] 0x01#8 1 4 0 6 ∧ 1 ≠ [0x05#8].length + 1) ∧
    (∃ t, t = { matching [5] with inq := [], syncI := 2, syncDiscard := 4, seq := none, ret := .count 4 }) ∧
    (matching []).inq = [] ∧ late.cfg.timeoutMs ≤ late.dlElapsed * late.cfg.tickMs := by
  refine ⟨?_, ?_, ?_, ?_, ?_, ?_, ⟨_, rfl⟩, ?_, ?_⟩ <;> decide

theorem test_hyp_WaitAvailableTestsTheLength : soon.fsm ≠ .halted ∧ 9 ≤ (List.replicate 9 (0 : Byte)).length ∧
    (List.replicate 8 (0 : Byte)).length < 9 ∧ soon.dlElapsed * soon.cfg.tickMs < soon.cfg.timeoutMs ∧
    late.cfg.timeoutMs ≤ late.dlElapsed * late.cfg.tickMs := by decide

theorem test_hyp_ReadByteAndWordPop : State.reset.fsm ≠ .halted ∧ (withIn [7]).inq = 7 :: [] ∧ State.reset.inq = [] ∧
    (withIn [0xFF#8, 0xFF#8]).inq = 0xFF#8 :: 0xFF#8 :: [] ∧
    (0xFFFF#16).toNat = (0xFF#8).toNat + 256 * (0xFF#8).toNat ∧ (withIn [7]).inq.length < 2 := by decide

theorem test_hyp_ClearDiscardsInbound : (withIn [7]).fsm ≠ .halted := by decide

theorem test_hyp_SyncFoundAtFirstOccurrence : State.reset.cfg.sync0 = 0xAF#8 ∧ State.reset.cfg.syncRest = [0x05#8] ∧
    State.reset.fsm = .waitSync ∧ State.reset.seq = some State.reset.cfg.sync ∧ State.reset.syncI = 0 ∧
    State.reset.syncDiscard = 0 ∧ State.reset.dlElapsed * State.reset.cfg.tickMs < State.reset.cfg.timeoutMs ∧
    (withIn [1, 0xAF#8, 0xAF#8, 0x05#8, 0xC2#8]).inq = [1, 0xAF#8] ++ [0xAF#8, 0x05#8] ++ [0xC2#8] ∧
    ¬ [0xAF#8, 0x05#8] <:+: [1, 0xAF#8] ++ [0xAF#8] ∧
    { State.reset with agenda := List.replicate 4 engTurn }.agenda = List.replicate ([1, 0xAF#8].length + 2) engTurn ++ [] := by
  decide

theorem test_hyp_DeadlineExpiresAfterTicks :
    { State.reset with agenda := List.replicate 700 clkTurn }.agenda = List.replicate 700 clkTurn ++ [] ∧
    State.reset.cfg.timeoutMs ≤ 700 * State.reset.cfg.tickMs := ⟨(List.append_nil _).symm, by decide⟩

theorem test_hyp_BuildersPushTheirBytes : bounded.fsm ≠ .halted ∧ bounded.outRoom [4, 5].length ∧
    ¬ bounded.outRoom bounded.cfg.header.length ∧
    ((Instr.oqWord 0xC200#16 = .oqHeader ∧ [0, 0xC2#8] = bounded.cfg.header) ∨ (∃ v, Instr.oqWord 0xC200#16 = .oqByte v ∧ [0, 0xC2#8] = [v]) ∨
      (∃ v : Word, Instr.oqWord 0xC200#16 = .oqWord v ∧
        [0, 0xC2#8] = [BitVec.ofNat 8 (v.toNat % 256), BitVec.ofNat 8 (v.toNat / 256)]) ∨ Instr.oqWord 0xC200#16 = .oqRaw [0, 0xC2#8]) :=
  ⟨by decide, test_hyp_room.2.2.1, test_hyp_room.2.2.2.1, .inr (.inr (.inl ⟨0xC200#16, rfl, by decide⟩))⟩

theorem test_hyp_BlockIsBracketedByItsMarker : State.reset.fsm ≠ .halted ∧
    (1 ≤ [0#8].length ∧ [0#8].length ≤ State.reset.cfg.maxPayload ∧ 1#8 ∉ [0#8] ∧ (∀ v : Byte, v.toNat < (1#8).toNat → v ∈ [0#8])) ∧
    State.reset.outRoom ([0#8].length + 2) ∧ ¬ bounded.outRoom ([0#8].length + 2) ∧
    (List.replicate 254 0#8).length ≤ State.reset.cfg.maxPayload ∧ ([] : List Byte).length < 1 ∧
    State.reset.cfg.maxPayload < (List.replicate 255 0#8).length := by
  refine ⟨by decide, ⟨by decide, by decide, by decide, fun v hv => ?_⟩, ?_, test_hyp_room.2.2.2.1, ?_, by decide, ?_⟩
  · have : v = 0#8 := BitVec.eq_of_toNat_eq (by simpa using hv)
    simp [this]
  · exact State.outRoom_none rfl _
  · rw [List.length_replicate]; decide
  · rw [List.length_replicate]; decide

theorem test_hyp_TakeAllReturnsAndClears : (withOut [3]).fsm ≠ .halted := by decide

theorem test_hyp_MarkerIsSmallestAbsent : State.reset.fsm ≠ .halted ∧ 0#8 ∉ [1#8] ∧
    (∀ v : Byte, v.toNat < (0#8).toNat → v ∈ [1#8]) ∧ ∀ v : Byte, v ∈ (List.range 256).map (BitVec.ofNat 8) :=
  ⟨by decide, by decide, fun v hv => by simp at hv, fun v => List.mem_map.2 ⟨v.toNat, List.mem_range.2 v.isLt, by simp⟩⟩

theorem test_hyp_LegalPayloadHasMarker : 1 ≤ [0#8].length ∧ [0#8].length ≤ 254 ∧ (List.replicate 254 0#8).length ≤ 254 :=
  ⟨by decide, by decide, by rw [List.length_replicate]⟩

theorem test_hyp_ConstructPairsPayloadWithMarker : State.reset.fsm ≠ .halted ∧ 1 ≤ [1#8].length ∧
    [1#8].length ≤ State.reset.cfg.maxPayload ∧ 0#8 ∉ [1#8] ∧ (∀ v : Byte, v.toNat < (0#8).toNat → v ∈ [1#8]) ∧
    (([] : List Byte).length < 1 ∨ State.reset.cfg.maxPayload < ([] : List Byte).length) :=
  ⟨by decide, by decide, by decide, by decide, fun v hv => by simp at hv, by decide⟩

theorem test_hyp_DecodeWritesTheWholeCommand : State.reset.fsm ≠ .halted := by decide

theorem test_hyp_HighAndLowSplitAWord : State.reset.fsm ≠ .halted := by decide

theorem test_hyp_ClassifyByOpcodeTable : State.reset.fsm ≠ .halted ∧ 0x80#8 = State.reset.cfg.opDskio ∧
    (0x98#8 ≠ State.reset.cfg.opDskio ∧ 0x98#8 ∈ State.reset.cfg.knownOpcodes) ∧
    (0x99#8 ≠ State.reset.cfg.opDskio ∧ 0x99#8 ∉ State.reset.cfg.knownOpcodes) := by decide

theorem test_hyp_ConstructSplitsDataInReverse : State.reset.fsm ≠ .halted ∧ State.reset.cfg.wf = true := by decide

/-- A ReadOperation with these blocks to send. -/
def sending (blks : List DataBlock) : State := { State.reset with fsm := .respond, roPhase := .send, roPending := blks }

theorem legal_b0 : b0.legal Config.default := ⟨by decide, by decide, by decide⟩

theorem legal_b1 : b1.legal Config.default := ⟨by decide, by decide, by decide⟩

theorem test_hyp_RoundSendsOneFastFrame : (sending [b0]).fsm ≠ .halted ∧ (sending [b0]).roPhase = .send ∧ (sending [b0]).roPending ≠ [] ∧
    (∀ b ∈ (sending (List.replicate 256 b0)).roPending, b.legal Config.default) ∧
    (sending (List.replicate 255 b0)).roPending.length ≤ 255 ∧ 255 < (sending (List.replicate 256 b0)).roPending.length ∧
    (sending [b0]).outRoom (roundFrame Config.default 0 [b0]).length ∧
    ¬ { sending [b0] with cfg := { Config.default with outDepth := some 10 } }.outRoom (roundFrame Config.default 0 [b0]).length ∧
    { sending [b0] with cfg := { Config.default with outDepth := some 11 } }.outRoom (roundFrame Config.default 0 [b0]).length := by
  refine ⟨by decide, rfl, by decide, ?_, ?_, ?_, State.outRoom_none rfl _, ?_, ?_⟩
  · intro b hb
    rw [List.eq_of_mem_replicate hb]
    exact legal_b0
  · exact (List.length_replicate (n := 255) (a := b0)).le
  · exact Nat.lt_of_lt_of_eq (by decide : 255 < 256) (List.length_replicate (n := 256) (a := b0)).symm
  · rw [State.outRoom_some rfl]; decide
  · rw [State.outRoom_some rfl]; decide

theorem test_hyp_EchoComparesItsOwnMarker : (echoing 1 []).fsm ≠ .halted ∧ (echoing 1 []).roPhase = .echo ∧
    (echoing 1 []).roPending[(echoing 1 []).roIdx]? = some b1 ∧ (echoing 1 [1]).inq = 1 :: [] ∧ 1#8 = b1.marker ∧ 0#8 ≠ b1.marker ∧
    (echoing 1 []).dlElapsed * (echoing 1 []).cfg.tickMs < (echoing 1 []).cfg.timeoutMs ∧ (echoing 1 []).inq = [] ∧
    Config.default.timeoutMs ≤ { echoing 1 [] with dlElapsed := 700 }.dlElapsed * Config.default.tickMs := by decide

theorem test_hyp_RoundEndsAndOperationExits : (echoing 2 []).fsm ≠ .halted ∧ (echoing 2 []).roPhase = .echo ∧
    (echoing 2 []).roIdx = (echoing 2 []).roPending.length ∧ (sending []).roPhase = .send ∧ (sending []).roPending = [] ∧
    (sending []).outRoom ((sending []).cfg.header.length + 1) ∧
    ¬ { sending [] with cfg := { Config.default with outDepth := some 3 } }.outRoom (Config.default.header.length + 1) :=
  ⟨by decide, rfl, rfl, rfl, rfl, State.outRoom_none rfl _, by rw [State.outRoom_some rfl]; decide⟩

theorem test_hyp_ReadOperationStepsNeedTheirPhase : State.reset.fsm ≠ .halted ∧ State.reset.roPhase ≠ .send ∧
    (sending []).roPending = [] ∧ State.reset.roPhase ≠ .echo ∧ (echoing 2 []).roPending.length ≤ (echoing 2 []).roIdx ∧
    (echoing 1 []).roIdx < (echoing 1 []).roPending.length ∧ (sending [b0]).roPending ≠ [] := by decide

theorem test_hyp_RoundRetainsTheMismatchedBlocks :
    ({ echoing 0 [0, 0x55#8, 9] with agenda := [engTurn, engTurn] }.fsm = .respond ∧ (echoing 0 []).roPhase = .echo ∧
      (echoing 0 []).roIdx = 0 ∧ (echoing 0 []).roRetained = [] ∧ [0#8, 0x55#8].length = (echoing 0 []).roPending.length) ∧
    (echoing 0 [0, 0x55#8, 9]).inq = [0, 0x55#8] ++ [9] ∧
    (echoing 0 []).dlElapsed * (echoing 0 []).cfg.tickMs < (echoing 0 []).cfg.timeoutMs ∧
    { echoing 0 [] with agenda := [engTurn, engTurn] }.agenda = List.replicate [0#8, 0x55#8].length engTurn ++ [] := by decide

/-- A transfer of one block about to be sent, with the schedule of `MatchingEchoesCompleteTheTransfer`. -/
def transfer : State := { sending [b0] with agenda := engTurn :: feedTurn [0] :: List.replicate 4 engTurn }

theorem test_hyp_MatchingEchoesCompleteTheTransfer : transfer.fsm = .respond ∧ transfer.roPhase = .send ∧ transfer.roPending ≠ [] ∧
    transfer.roPending.length ≤ 255 ∧ (∀ b ∈ transfer.roPending, b.legal transfer.cfg) ∧ transfer.outq = [] ∧ transfer.inq = [] ∧
    transfer.cfg.outDepth = none ∧ transfer.cfg.inDepth = none ∧ 0 < transfer.cfg.timeoutMs ∧
    transfer.agenda = engTurn :: feedTurn (transfer.roPending.map DataBlock.marker) ::
      (List.replicate (transfer.roPending.length + 3) engTurn ++ []) := by
  refine ⟨rfl, rfl, by decide, by decide, ?_, rfl, rfl, rfl, rfl, by decide, rfl⟩
  intro b hb
  rw [List.mem_singleton.1 hb]
  exact legal_b0

theorem test_hyp_WaitSyncCompletesOnSync : (matching [5]).fsm = .waitSync ∧ (matching [5]).seqAt (matching [5]).cfg.sync 1 4 ∧
    ((matching [5]).inq = 5 :: [] ∧ matchedTo (matching [5]).cfg.sync 5 1 4 2 4 ∧ 2 = (matching [5]).cfg.sync.length) ∧
    (matchedTo (matching []).cfg.sync 0xAF#8 1 4 1 5 ∧ matchedTo (matching []).cfg.sync 0x01#8 1 4 0 6 ∧
      1 ≠ (matching []).cfg.sync.length ∧ 0 ≠ (matching []).cfg.sync.length) ∧
    (∃ t, t = { matching [1] with inq := [], syncI := 0, syncDiscard := 6, seq := some (matching []).cfg.sync }) ∧
    (matching [5]).dlElapsed * (matching [5]).cfg.tickMs < (matching [5]).cfg.timeoutMs ∧ (matching []).inq = [] ∧
    { matching [5] with dlElapsed := 700 }.cfg.timeoutMs ≤ { matching [5] with dlElapsed := 700 }.dlElapsed * Config.default.tickMs := by
  refine ⟨?_, ?_, ?_, ?_, ⟨_, rfl⟩, ?_, ?_, ?_⟩ <;> decide

theorem test_hyp_ReadFixedNineDecodesInWireOrder : State.reset.fsm ≠ .halted ∧ State.reset.cfg.fixedLen = 9 ∧
    (withIn [1, 2, 3, 4, 5, 6, 7, 8, 9]).inq = [1, 2, 3, 4, 5, 6, 7, 8, 9] ++ [] ∧ (0x0201#16).toNat = (1#8).toNat + 256 * (2#8).toNat ∧
    (0x0403#16).toNat = (3#8).toNat + 256 * (4#8).toNat ∧ (0x0605#16).toNat = (5#8).toNat + 256 * (6#8).toNat ∧
    (withIn [1, 2, 3, 4, 5, 6, 7, 8]).inq.length < 9 ∧ soon.dlElapsed * soon.cfg.tickMs < soon.cfg.timeoutMs ∧
    late.cfg.timeoutMs ≤ late.dlElapsed * late.cfg.tickMs := by decide

theorem test_hyp_DecodeReportsTheCommand : State.reset.fsm ≠ .halted ∧
    (commanded .decode ⟨0, 0, 0, 0, 0, 0x80#8⟩).command.cmd = Config.default.opDskio ∧
    (0x98#8 ≠ Config.default.opDskio ∧ 0x98#8 ∈ Config.default.knownOpcodes) ∧ 0x99#8 ∉ Config.default.knownOpcodes := by decide

/-- `DISPATCH` on a disk command with this count, start sector and `F`. -/
def disk (n : Byte) (de : Word) (f : Byte) : State := commanded .dispatch ⟨le16 0 n, de, 0xC000#16, f, 0, 0x80#8⟩

theorem test_hyp_disk (n : Byte) (de : Word) (f : Byte) : (disk n de f).fsm ≠ .halted ∧
    (disk n de f).command.cmd = (disk n de f).cfg.opDskio ∧ (disk n de f).cfg.wf = true ∧
    (disk n de f).cfg.dskioMap = { count := .b, start := .de, dest := .hl } :=
  ⟨by simp [disk, commanded], rfl, test_wf_config, rfl⟩

/-- The image has 1440 sectors: the last one is in range and the next is not. -/
theorem test_hyp_DispatchIgnoresWriteAndZeroLength :
    1440 * 512 = (disk 1 1440 0).command.de.toNat * (disk 1 1440 0).cfg.sectorSize ∧ (disk 1 1440 0xFF#8).command.f.getLsbD 0 = true ∧
    (disk 0 1440 0).command.f.getLsbD 0 = false ∧ 0 = (disk 0 1440 0).command.bc.toNat / 256 * (disk 0 1440 0).cfg.sectorSize ∧
    512 = (disk 1 1440 0).command.bc.toNat / 256 * 512 ∧ (512 : Nat) ≠ 0 ∧ (disk 1 1440 0).cfg.storeSize < 1440 * 512 + 512 := by decide

theorem test_hyp_DispatchStartsTheDiskRead :
    512 = (disk 1 1439 0xFE#8).command.bc.toNat / 256 * (disk 1 1439 0xFE#8).cfg.sectorSize ∧
    1439 * 512 = (disk 1 1439 0xFE#8).command.de.toNat * (disk 1 1439 0xFE#8).cfg.sectorSize ∧ (disk 1 1439 0xFE#8).command.f.getLsbD 0 = false ∧ (512 : Nat) ≠ 0 ∧
    1439 * 512 + 512 ≤ (disk 1 1439 0xFE#8).cfg.storeSize ∧ (disk 1 1439 0xFE#8).cfg.chunkSize ≤ 512 ∧
    { Config.default with sectorSize := 127 }.wf = true ∧ 127 < { Config.default with sectorSize := 127 }.chunkSize ∧
    State.reset.outRoom 137 ∧ ¬ bounded.outRoom 137 :=
  ⟨by decide, by decide, by decide, by decide, by decide, by decide, by decide, by decide, State.outRoom_none rfl _,
    by rw [State.outRoom_some rfl]; decide⟩

/-- A known opcode whose fixed reply is as given. -/
def replying (r : Reply) : State := { commanded .dispatch ⟨0, 0, 0, 0, 0, 0x85#8⟩ with
  cfg := { Config.default with fixedReply := [(⟨0, 0, 0, 0, 0, 0x85#8⟩, r)] } }

theorem test_hyp_DispatchTakesTheFixedReply : (replying .noResponse).fsm ≠ .halted ∧
    classify (replying .noResponse).cfg (replying .noResponse).command.cmd = .known ∧
    fixedReply (replying .noResponse).cfg (replying .noResponse).command = .noResponse ∧
    fixedReply (replying (.reply [1])).cfg (replying (.reply [1])).command = .reply [1] ∧
    fixedReply (replying .unimplemented).cfg (replying .unimplemented).command = .unimplemented ∧
    Config.default.fixedReply = [] ∧ (replying (.reply [1])).outRoom ((replying (.reply [1])).cfg.header.length + [1#8].length) ∧
    ¬ bounded.outRoom (bounded.cfg.header.length + [1#8].length) :=
  ⟨by decide, by decide, by decide, by decide, by decide, rfl, State.outRoom_none rfl _, by rw [State.outRoom_some rfl]; decide⟩

theorem test_hyp_DispatchLogsAnUnknownOpcode : (commanded .dispatch ⟨0, 0, 0, 0, 0, 0x99#8⟩).fsm ≠ .halted ∧
    (commanded .dispatch ⟨0, 0, 0, 0, 0, 0x99#8⟩).command.cmd ≠ Config.default.opDskio ∧
    (commanded .dispatch ⟨0, 0, 0, 0, 0, 0x99#8⟩).command.cmd ∉ Config.default.knownOpcodes := by decide

theorem test_hyp_RespondRunsTheReadOperation : State.reset.fsm ≠ .halted ∧ State.reset.roPhase = .none ∧
    ((sending [b0]).fsm ≠ .halted ∧ (sending [b0]).roPhase = .send ∧ (sending [b0]).roPending ≠ []) ∧
    ((echoing 1 []).fsm ≠ .halted ∧ (echoing 1 []).roPhase = .echo ∧ (echoing 1 []).roIdx < (echoing 1 []).roPending.length) ∧
    (echoing 2 []).roPending.length ≤ (echoing 2 []).roIdx ∧
    ((sending []).fsm ≠ .halted ∧ (sending []).roPhase = .send ∧ (sending []).roPending = [] ∧
      gives (exec .roExit (sending [])) (fun t => t.fsm != .halted) = true) ∧
    gives (exec .roExit { sending [] with cfg := { Config.default with outDepth := some 3 } }) (fun t => t.fsm == .halted) = true := by
  decide

theorem test_hyp_FlushWritesAndEntersWaitSync : (withOut [3]).fsm ≠ .halted ∧ (withOut [3]).outq ≠ [] ∧ State.reset.outq = [] := by decide

theorem test_hyp_TimeoutIsRecovered : late.cfg.timeoutMs ≤ late.dlElapsed * late.cfg.tickMs ∧
    (∃ t : ErrInfo → State, ∀ info, t info = { late with
      diaglog := late.diaglog ++ [.error .protocolTimeout info], inq := [], outq := [], roPhase := .none, roPending := [],
      roRetained := [], roIdx := 0, fsm := .waitSync, dlElapsed := 0, syncI := 0, syncDiscard := 0,
      seq := some late.cfg.sync }) ∧
    (late.fsm = .waitSync ∧ late.seq = some late.cfg.sync ∧ late.inq = []) ∧
    ({ late with fsm := .readFixed9, inq := [1, 2, 3, 4, 5, 6, 7, 8] }.fsm = .readFixed9 ∧ [1, 2, 3, 4, 5, 6, 7, 8].length < late.cfg.fixedLen) ∧
    ((echoing 1 []).fsm = .respond ∧ (echoing 1 []).roPhase = .echo ∧ (echoing 1 []).roIdx < (echoing 1 []).roPending.length ∧
      (echoing 1 []).inq = []) := ⟨by decide, ⟨_, fun _ => rfl⟩, by decide, by decide, by decide⟩

/-- Two read commands that differ in `A`, `C` and the other bits of `F`. -/
def readA : Command := ⟨0x0100#16, 3, 0xC000#16, 0, 0, 0x80#8⟩

def readB : Command := ⟨0x01FF#16, 3, 0xC000#16, 0xFE#8, 9, 0x80#8⟩

theorem test_hyp_DiskReadIgnoresOtherFields : (disk 1 3 0).cfg.dskioMap = { count := .b, start := .de, dest := .hl } ∧
    readA.cmd = (disk 1 3 0).cfg.opDskio ∧ readB.cmd = (disk 1 3 0).cfg.opDskio ∧ high readA.bc = high readB.bc ∧
    readA.de = readB.de ∧ readA.hl = readB.hl ∧ readA.f.getLsbD 0 = readB.f.getLsbD 0 ∧
    gives (exec .dspDispatch { disk 1 3 0 with command := readA, cfg := { Config.default with storeSize := 0 } })
      (fun t => t.fault == .diskStoreFault) = true := by decide

theorem test_hyp_frames : readyForFrame { State.reset with dlElapsed := 699 } = true ∧ State.reset.inRoom (State.reset.cfg.sync.length + 9) ∧
    ¬ { State.reset with cfg := { Config.default with inDepth := some 10 } }.inRoom (Config.default.sync.length + 9) ∧
    State.reset.cfg.wf = true ∧ (Instr.inUnknown 0 0 0 0 0 0x7F#8).format = .inbound ∧
    encode State.reset.cfg (.inUnknown 0 0 0 0 0 0x7F#8) = frameBytes State.reset.cfg ⟨0, 0, 0, 0, 0, 0x7F#8⟩ ∧
    readyForFrame late = false := by
  exact ⟨by decide, State.inRoom_none rfl _, by rw [State.inRoom_some rfl]; decide, by decide, rfl, rfl, by decide⟩

theorem test_hyp_InboundDiskFrameIsPerformed : readyForFrame State.reset = true ∧ State.reset.cfg.wf = true ∧
    State.reset.cfg.dskioMap = { count := .b, start := .de, dest := .hl } ∧ (1#8).getLsbD 0 = true ∧ (0xFE#8).getLsbD 0 = false ∧
    State.reset.cfg.chunkSize ≤ (0x0100#16).toNat / 256 * State.reset.cfg.sectorSize ∧
    (1439#16).toNat * State.reset.cfg.sectorSize + (0x0100#16).toNat / 256 * State.reset.cfg.sectorSize ≤ State.reset.cfg.storeSize := by
  decide

theorem test_hyp_InboundFrameIsDispatched : readyForFrame State.reset = true ∧ State.reset.inRoom (State.reset.cfg.sync.length + 9) :=
  ⟨by decide, State.inRoom_none rfl _⟩

theorem test_hyp_InboundReplyFrameIsPerformed : readyForFrame { replying (.reply [1]) with fsm := .waitSync } = true ∧
    (replying (.reply [1])).cfg.wf = true ∧ (Instr.inKnownOther 0 0 0 0 0 0x85#8).wf (replying (.reply [1])).cfg = true ∧
    (Instr.inUnknown 0 0 0 0 0 0x99#8).wf State.reset.cfg = true := by decide

theorem test_hyp_InboundFrameWaitsInTheQueue : (Instr.inUnknown 0 0 0 0 0 0x99#8).format = .inbound ∧ readyForFrame (withIn [1]) = false ∧
    (withIn [1]).inRoom ((withIn [1]).cfg.sync.length + 9) := ⟨rfl, by decide, State.inRoom_none rfl _⟩

theorem test_hyp_FrameStepsRefineTheFrame : ∃ s : State, readyForFrame s = true ∧
    s.agenda = feedTurn (frameBytes s.cfg ⟨1, 2, 3, 4, 5, 0x80#8⟩) :: (List.replicate (s.cfg.sync.length + 3) engTurn ++ [clkTurn]) :=
  ⟨{ State.reset with agenda := feedTurn (frameBytes Config.default ⟨1, 2, 3, 4, 5, 0x80#8⟩) ::
      (List.replicate 5 engTurn ++ [clkTurn]) }, by decide, rfl⟩

theorem test_hyp_OutboundRowsQueueTheirFrames : State.reset.fsm ≠ .halted ∧ (∀ n, State.reset.outRoom n) ∧ b0.legal State.reset.cfg ∧
    (∀ x ∈ b0 :: List.replicate 254 b1, x.legal State.reset.cfg) ∧ (List.replicate 254 b1).length < 255 ∧
    255 ≤ (List.replicate 255 ([] : List Byte)).length ∧ ¬ bounded.outRoom (bounded.cfg.header ++ [bounded.cfg.codeExit]).length := by
  refine ⟨by decide, State.outRoom_none rfl, legal_b0, ?_, ?_, ?_, ?_⟩
  · intro x hx
    rcases List.mem_cons.1 hx with rfl | hx
    · exact legal_b0
    · rw [List.eq_of_mem_replicate hx]
      exact legal_b1
  · rw [List.length_replicate]; decide
  · rw [List.length_replicate]
  · rw [State.outRoom_some rfl]; decide

/-- An EXIT frame that does not fit halts with its header queued (R59, R70, R112; log entry 16). -/
theorem test_exit_overflow : gives (exec .outExit { State.reset with cfg := { Config.default with outDepth := some 3 } }) (fun t =>
    t.outq == [0xFF#8, 0xAF#8, 0x05#8] && t.diaglog == [.error .queueOverflow (.queue .outbound 3 1)] && t.fsm == .halted) = true := by
  decide

/-- `State.reset` meets the engine's invariant. -/
theorem test_hyp_EngineInvariantKept : EngineInv State.reset ∧ ∃ t, step State.reset = .next t :=
  ⟨{ cfgOk := by decide, imageOk := rfl, portsOnly := by simp [State.reset], faultHalts := by simp [State.reset],
     faultKind := by simp [State.reset], decoded := by simp [State.reset], inFlight := by simp [State.reset],
     outEmpty := fun _ => rfl, matching := fun _ => ⟨rfl, by decide⟩, blocksOk := by simp [State.reset],
     echoing := by simp [State.reset], roundSize := by simp [State.reset] }, _, rfl⟩

/-- And so does a state in the middle of a round of echoes. -/
theorem test_hyp_EngineNeverStops : EngineInv { echoing 1 [] with roRetained := [b0] } :=
  { cfgOk := by decide, imageOk := rfl, portsOnly := by simp [echoing, State.reset], faultHalts := by simp [echoing, State.reset],
    faultKind := by simp [echoing, State.reset], decoded := by simp [echoing], inFlight := by simp [echoing],
    outEmpty := fun _ => rfl, matching := by simp [echoing],
    blocksOk := by
      simp only [echoing, List.mem_cons, List.not_mem_nil, or_false]
      rintro b ((rfl | rfl) | rfl)
      · exact legal_b0
      · exact legal_b1
      · exact legal_b0
    echoing := fun _ => ⟨by decide, by simp [echoing]⟩, roundSize := fun _ => by decide }

theorem test_hyp_EngineOperationsIdleInHalted : { State.reset with fsm := .halted }.fsm = .halted ∧
    Instr.dspFlush.format ≠ .inbound ∧ Instr.dspFlush ≠ .clkTick ∧ ∀ bs, Instr.dspFlush ≠ .iqAppend bs :=
  ⟨rfl, by decide, by decide, by simp⟩

theorem test_hyp_HaltedIsLeftOnlyByReset : { State.reset with fsm := .halted, agenda := [feedTurn [1]] }.fsm = .halted ∧
    (currentOffer { State.reset with fsm := .halted, agenda := [feedTurn [1]] }).reset = false ∧
    gives (step { State.reset with fsm := .halted, agenda := [feedTurn [1]] }) (fun t => t.inq == [1]) = true := by decide

theorem test_hyp_TransportWritesKeepTheOrder : (currentOffer { withOut [3] with fsm := .flush }).reset = false ∧
    gives (step { withOut [3] with fsm := .flush }) (fun t => t.txlog == [[3]]) = true := by decide

theorem test_hyp_InboundQueueIsFifo : (currentOffer (withIn [1])).reset = false ∧ (currentOffer (withIn [1])).linkLost = false ∧
    (currentOffer (withIn [1])).move = .eng ∧ gives (step (withIn [1])) (fun t => t.inq == []) = true ∧
    (currentOffer { State.reset with agenda := [clkTurn] }).move = .clk ∧
    (currentOffer { State.reset with agenda := [feedTurn [1]] }).move = .feed [1] := by decide

theorem test_hyp_CommandFileWrittenOnlyByDecode : Instr.dspDecode.format ≠ .inbound ∧ Instr.dspDecode ≠ .dspReadFixed9 ∧
    (∀ bc de hl f a cmd, Instr.dspDecode ≠ .cmdDecode bc de hl f a cmd) ∧
    ∃ t, exec .dspDecode (commanded .decode ⟨0, 0, 0, 0, 0, 0⟩) = .next t := ⟨by decide, by decide, by simp, _, rfl⟩

theorem test_hyp_ConfigAndImageAreNeverWritten : (∃ t, exec .iqClear (withIn [1]) = .next t) ∧ ∃ t, step (withIn [1]) = .next t :=
  ⟨⟨_, rfl⟩, _, rfl⟩

theorem test_hyp_DeadlineResetPoints : (sending [b0]).engineMoves ∧
    gives (step (sending [b0])) (fun t => t.dlElapsed == 0 && t.roPhase == .echo) = true ∧ (matching [1]).engineMoves ∧
    gives (step (matching [1])) (fun t => t.fsm == .waitSync && t.diaglog == []) = true := ⟨rfl, by decide, rfl, by decide⟩

/-- The numbers of R21, R22 and R108 at the states of one reset, one halt and one round. -/
theorem test_hyp_StatusPortShowsTheNumbers : State.reset.fsm = .waitSync ∧ State.reset.fault = .none ∧ State.reset.roPhase = .none ∧
    (echoing 0 []).roPhase = .echo ∧ statusPort (fatal .readUnderflow .none State.reset) = (7, 10) := by decide

theorem test_hyp_DispatcherTransitions : State.reset.cfg.wf = true ∧
    (∀ f : Fsm, { State.reset with fsm := f, cmdValid := true }.engineMoves ∧
      gives (step { State.reset with fsm := f, cmdValid := true }) (fun _ => true) = true) := by
  refine ⟨by decide, fun f => ⟨rfl, ?_⟩⟩
  cases f <;> decide

end Sys2Proof.Tests
end

section
/-! SUPPORT. The step a mover makes, and FEED's and ENG's steps that take one whole frame (00_scope.md R4). -/

namespace Sys2Proof.Machine

/-! ### The step of a mover, with neither `reset` nor `link_lost` raised -/

/-- The step runs the instruction that the offered move performs. -/
theorem step_of_moveInstr {s : State} {m : Move} {ag : List Offer} {i : Instr}
    (h : s.agenda = { reset := false, linkLost := false, move := m } :: ag) (hm : moveInstr s m = .ok (some i)) :
    step s = exec i { s with agenda := ag } := by
  have hd : dropOffer s = { s with agenda := ag } := by simp [dropOffer, h]
  have hm' : moveInstr (dropOffer s) m = .ok (some i) := hm
  rw [← hd]
  simp [step, currentOffer, h, hm']

/-- The step refuses a move whose bytes are no instruction (30_encoding.md R58). -/
theorem step_of_moveInstr_error {s : State} {m : Move} {ag : List Offer} {e : DecodeError}
    (h : s.agenda = { reset := false, linkLost := false, move := m } :: ag) (hm : moveInstr s m = .error e) :
    step s = .refused (.undecodable e) := by
  have hm' : moveInstr (dropOffer s) m = .error e := hm
  simp [step, currentOffer, h, hm']

theorem step_feed {s : State} {bs : List Byte} {ag : List Offer} (h : s.agenda = feedTurn bs :: ag) :
    step s = exec (.iqAppend bs) { s with agenda := ag } :=
  step_of_moveInstr h rfl

theorem step_clk {s : State} {ag : List Offer} (h : s.agenda = clkTurn :: ag) :
    step s = exec .clkTick { s with agenda := ag } :=
  step_of_moveInstr h rfl

/-- Settles O3: each move's `moveInstr` is the instruction named, and the step runs it. -/
theorem stepRunsTheDecodedInstruction : Obligations.StepRunsTheDecodedInstruction := by
  unfold Obligations.StepRunsTheDecodedInstruction
  refine ⟨?decodes, ?undecodable, fun _ _ _ => step_feed, fun _ _ => step_clk⟩
  case decodes => exact fun s fmt bytes rest i ag ha hd => step_of_moveInstr ha (by simp [moveInstr, hd])
  case undecodable => exact fun s fmt bytes e ag ha hd => step_of_moveInstr_error ha (by simp [moveInstr, hd])

/-! ### Which instruction a frame is -/

theorem classify_eq_dskio {cfg : Config} {cmd : Byte} (h : classify cfg cmd = .dskio) : cmd = cfg.opDskio := by
  unfold classify at h
  split at h
  · assumption
  · split at h <;> cases h

/-- The row a Command's frame belongs to has that frame arrive (30_encoding.md R55). -/
theorem exec_frameInstr (c : Command) (s : State) : exec (frameInstr s.cfg c) s = frameArrives c s := by
  obtain ⟨bc, de, hl, f, a, cmd⟩ := c
  cases hc : classify s.cfg cmd with
  | dskio =>
    obtain rfl := classify_eq_dskio hc
    cases hw : writeFlag f <;> simp only [frameInstr, hc, hw] <;> rfl
  | known =>
    by_cases hr : cmd = s.cfg.opCmdrequest
    · subst hr; simp only [frameInstr, hc]; rfl
    · simp only [frameInstr, hc, hr]; rfl
  | unknown => simp only [frameInstr, hc]; rfl

/-! ### What each of ENG's actions does while it takes a frame -/

/-- A byte that continues `SYNC` without completing it (44_dispatcher.md R98, 40_inbound_queue.md R65). -/
theorem exec_dspWaitSync_advances {s : State} {b : Byte} {rest : List Byte} (hf : s.fsm ≠ .halted)
    (hq : s.seq = some s.cfg.sync) (he : expired s = false) (hi : s.inq = b :: rest)
    (hb : s.cfg.sync[s.syncI]? = some b) (hl : s.syncI + 1 ≠ s.cfg.sync.length) :
    exec .dspWaitSync s = .next { s with inq := rest, syncI := s.syncI + 1 } := by
  simp [exec, execDspWaitSync, hf, waitSequence, startSequence_started hq, hi,
    suspend_progress ((not_expired_iff s).1 he), matchStep, matchByte, hb, hl]

/-- The byte that completes `SYNC` (R98, R65). -/
theorem exec_dspWaitSync_completes {s : State} {b : Byte} {rest : List Byte} (hf : s.fsm ≠ .halted)
    (hq : s.seq = some s.cfg.sync) (he : expired s = false) (hi : s.inq = b :: rest)
    (hb : s.cfg.sync[s.syncI]? = some b) (hl : s.syncI + 1 = s.cfg.sync.length) :
    exec .dspWaitSync s = .next (goto .readFixed9
      (deadlineReset { s with inq := rest, syncI := s.cfg.sync.length, seq := none })) := by
  simp [exec, execDspWaitSync, hf, waitSequence, startSequence_started hq, hi,
    suspend_progress ((not_expired_iff s).1 he), matchStep, matchByte, hb, hl]

/-- The fields are read back as the Command they were written from (30_encoding.md R44). -/
theorem readFields_fieldBytes {s : State} {c : Command} {rest : List Byte} (hi : s.inq = fieldBytes c ++ rest) :
    readFields s = .ok c { s with inq := rest } := by
  simp [readFields, readWord, readByte, hi, fieldBytes, bytes16]

/-- The nine fields are there before the deadline (44_dispatcher.md R99). -/
theorem exec_dspReadFixed9_fields {s : State} {c : Command} {rest : List Byte} (hf : s.fsm ≠ .halted)
    (he : expired s = false) (hn : s.cfg.fixedLen ≤ 9) (hi : s.inq = fieldBytes c ++ rest) :
    exec .dspReadFixed9 s = .next (goto .decode (writeCommand c { s with inq := rest })) := by
  have hlen : s.cfg.fixedLen ≤ s.inq.length := by simp [hi]; omega
  simp [exec, execDspReadFixed9, hf, waitAvailable, hlen, suspend_progress ((not_expired_iff s).1 he),
    readFields_fieldBytes hi]

theorem exec_dspDecode {s : State} (hf : s.fsm ≠ .halted) : exec .dspDecode s = .next (decodeAction s.command s) := by
  simp [exec, execDspDecode, hf, readCommand]

theorem exec_dspDispatch {s : State} (hf : s.fsm ≠ .halted) : exec .dspDispatch s = dispatchCommand s.command s := by
  simp [exec, execDspDispatch, hf, readCommand]

/-! ### Runs of ENG -/

/-- In `HALTED` ENG's moves only take their agenda entries (60_exceptions.md R112). -/
theorem runSteps_eng_halted (n : Nat) {ag : List Offer} : ∀ {s : State}, s.fsm = .halted →
    s.agenda = List.replicate n engTurn ++ ag → runSteps n s = .next { s with agenda := ag } := by
  induction n with
  | zero => rintro s - rfl; rfl
  | succ n ih =>
    intro s hf ha
    rw [runSteps_succ n (step_eng_halted ha hf)]
    exact ih hf rfl

/-- What `matchByte` reads of a pattern that goes on with `b` at index `i`, and how much of it is left. -/
theorem getElem?_of_drop_eq_cons {pat suf : List Byte} {i : Nat} {b : Byte} (h : pat.drop i = b :: suf) :
    pat[i]? = some b ∧ pat.length = i + 1 + suf.length := by
  have hlen : pat.length - i = suf.length + 1 := by simpa using congrArg List.length h
  exact ⟨by rw [← List.head?_drop, h]; rfl, by omega⟩

/-- ENG takes what is left of `SYNC`, one byte a move, and goes on to the fields (R98). -/
theorem runSteps_takes_sync (suf : List Byte) {rest : List Byte} {ag : List Offer} : ∀ {s : State} {b : Byte},
    s.fsm = .waitSync → s.seq = some s.cfg.sync → expired s = false → s.cfg.sync.drop s.syncI = b :: suf →
    s.inq = b :: suf ++ rest → s.agenda = List.replicate (suf.length + 1) engTurn ++ ag →
    runSteps (suf.length + 1) s = .next (goto .readFixed9
      (deadlineReset { s with agenda := ag, inq := rest, syncI := s.cfg.sync.length, seq := none })) := by
  induction suf with
  | nil =>
    intro s b hf hq he hd hi ha
    obtain ⟨hb, hl⟩ := getElem?_of_drop_eq_cons hd
    rw [List.length_nil, runSteps_one, step_eng (i := .dspWaitSync) ha (by simp [engineInstr, hf])]
    exact exec_dspWaitSync_completes (by simp [hf]) hq he hi hb hl.symm
  | cons b' suf ih =>
    intro s b hf hq he hd hi ha
    obtain ⟨hb, hl⟩ := getElem?_of_drop_eq_cons hd
    have hmore : s.syncI + 1 ≠ s.cfg.sync.length := by simp at hl; omega
    have hstep := (step_eng ha (by simp [engineInstr, hf])).trans
      (exec_dspWaitSync_advances (by simp [hf]) hq he hi hb hmore)
    rw [List.length_cons, runSteps_succ _ hstep]
    exact ih hf hq he (by simp [← List.drop_drop, hd]) rfl rfl

/-- An ENG that was ready takes the frame in `inq`, from `WAIT_SYNC` to the end of `READ_FIXED_9` (R98, R99). -/
theorem runSteps_takes_frame {s : State} (c : Command) (ag : List Offer) (hr : readyForFrame s = true) :
    runSteps (s.cfg.sync.length + 1) { s with
        agenda := List.replicate (s.cfg.sync.length + 1) engTurn ++ ag, inq := frameBytes s.cfg c }
      = .next (frameTaken c { s with agenda := ag }) := by
  obtain ⟨hf, -, hq, h0, he, hn⟩ := (readyForFrame_iff s).1 hr
  have hsync := runSteps_takes_sync s.cfg.syncRest (b := s.cfg.sync0) (rest := fieldBytes c) (ag := engTurn :: ag)
    (s := { s with agenda := List.replicate (s.cfg.sync.length + 1) engTurn ++ ag, inq := frameBytes s.cfg c })
    hf hq he (by rw [h0]; rfl) rfl (by rw [List.replicate_succ']; simp [Config.sync])
  have hrunning : s.dlElapsed * s.cfg.tickMs < s.cfg.timeoutMs := (not_expired_iff s).1 he
  refine (runSteps_add s.cfg.sync.length 1 hsync).trans ?_
  rw [runSteps_one, step_eng rfl rfl]
  exact exec_dspReadFixed9_fields (rest := []) (by simp [goto])
    ((not_expired_iff _).2 (by simp [goto]; omega)) hn (by simp [goto])

/-- With a Command decoded, ENG's next two moves are `DECODE` and `DISPATCH` on it (R100, R101). -/
theorem runSteps_decode_dispatch {s : State} {ag : List Offer} (hf : s.fsm = .decode)
    (ha : s.agenda = engTurn :: engTurn :: ag) :
    runSteps 2 s = dispatchCommand s.command (decodeAction s.command { s with agenda := ag }) := by
  have hdec := (step_eng ha (by simp [engineInstr, hf])).trans (exec_dspDecode (by simp [hf]))
  rw [runSteps_succ 1 hdec, runSteps_one, step_eng rfl rfl, exec_dspDispatch (by simp [decodeAction, goto])]
  rfl

/-! ### Feeding a frame -/

theorem exec_iqAppend_room {bs : List Byte} {s : State} (h : s.inRoom bs.length) :
    exec (.iqAppend bs) s = .next { s with inq := s.inq ++ bs } := by
  simp [exec, execIqAppend, append_room h]

theorem exec_iqAppend_full {bs : List Byte} {s : State} (h : ¬ s.inRoom bs.length) :
    exec (.iqAppend bs) s = .next (fatal .queueOverflow (.queue .inbound s.inq.length bs.length) s) := by
  simp [exec, execIqAppend, append_full h, takeError_fatal]

/-- A frame that does not fit overflows, whether or not ENG is ready for it (40_inbound_queue.md R61). -/
theorem frameArrives_full {c : Command} {s : State} (h : ¬ s.inRoom (s.cfg.sync.length + 9)) :
    frameArrives c s = .next (fatal .queueOverflow (.queue .inbound s.inq.length (s.cfg.sync.length + 9)) s) := by
  rw [frameArrives, append_full (by rwa [frameBytes_length]), frameBytes_length]
  simp [takeError_fatal]

/-- A frame that fits is fed, taken, decoded and dispatched. -/
theorem runSteps_feed_frame_room {s : State} {c : Command} {ag : List Offer} (hr : readyForFrame s = true)
    (hroom : s.inRoom (s.cfg.sync.length + 9))
    (ha : s.agenda = feedTurn (frameBytes s.cfg c) :: (List.replicate (s.cfg.sync.length + 3) engTurn ++ ag)) :
    runSteps (s.cfg.sync.length + 4) s = frameArrives c { s with agenda := ag } := by
  have hempty : s.inq = [] := ((readyForFrame_iff s).1 hr).2.1
  have hturns : List.replicate (s.cfg.sync.length + 3) engTurn ++ ag
      = List.replicate (s.cfg.sync.length + 1) engTurn ++ engTurn :: engTurn :: ag := by
    rw [show s.cfg.sync.length + 3 = s.cfg.sync.length + 1 + 2 from rfl, List.replicate_add, List.append_assoc]
    rfl
  rw [hturns] at ha
  have hfed := (step_feed ha).trans (exec_iqAppend_room (by rw [frameBytes_length]; exact hroom))
  simp only [hempty, List.nil_append] at hfed
  rw [frameArrives_taken (s := { s with agenda := ag }) hr hroom, runSteps_succ _ hfed,
    runSteps_add _ 2 (runSteps_takes_frame c (engTurn :: engTurn :: ag) hr), runSteps_decode_dispatch rfl rfl]
  rfl

/-- A frame that does not fit halts ENG, whose moves then do nothing. -/
theorem runSteps_feed_frame_full {s : State} {c : Command} {ag : List Offer} {n : Nat}
    (hfull : ¬ s.inRoom (s.cfg.sync.length + 9))
    (ha : s.agenda = feedTurn (frameBytes s.cfg c) :: (List.replicate n engTurn ++ ag)) :
    runSteps (n + 1) s = frameArrives c { s with agenda := ag } := by
  have hfed := (step_feed ha).trans (exec_iqAppend_full (by rw [frameBytes_length]; exact hfull))
  rw [frameArrives_full (s := { s with agenda := ag }) hfull, runSteps_succ n hfed, runSteps_eng_halted n rfl rfl,
    frameBytes_length]
  rfl

/-- Settles O47: a frame that fits is appended and taken by ENG's moves, the last two of them `DECODE` and `DISPATCH`;
one that does not fit halts ENG in both accounts. -/
theorem frameStepsRefineTheFrame : Obligations.FrameStepsRefineTheFrame := by
  unfold Obligations.FrameStepsRefineTheFrame
  intro s c ag hr ha
  rw [exec_frameInstr c { s with agenda := ag }]
  by_cases hroom : s.inRoom (s.cfg.sync.length + 9)
  · exact runSteps_feed_frame_room hr hroom ha
  · exact runSteps_feed_frame_full hroom ha

end Sys2Proof.Machine
end

section
/-! SUPPORT. The engine's invariant: that reset meets it, what each shared operation makes of it, and that every action of
ENG, and so every step, keeps it. -/

namespace Sys2Proof.Machine

/-! ### The invariant under the shared operations -/

/-- The invariant does not speak of the bytes received, the deadline or the draws. -/
theorem EngineInv.received {s : State} (h : EngineInv s) (bs : List Byte) (n d : Nat) :
    EngineInv { s with inq := bs, dlElapsed := n, draws := d } := { h with }

theorem dropOffer_engineInv {s : State} (h : EngineInv s) : EngineInv (dropOffer s) :=
  { h with portsOnly := fun o ho => h.portsOnly o (List.mem_of_mem_drop ho) }

/-- `reset` (70_reset_and_hazards.md R124) needs only what it leaves as it is: the parameters, the image, the schedule. -/
theorem resetEvent_engineInv {s : State} (hcfg : s.cfg.wf = true) (himage : Memory.wf s.image = true)
    (hports : ∀ o ∈ s.agenda, o.usesPorts) : EngineInv (resetEvent s) where
  cfgOk := hcfg
  imageOk := himage
  portsOnly := hports
  faultHalts := by simp
  faultKind := by simp
  decoded := by simp
  inFlight := by simp
  outEmpty := by simp
  matching := by simp [Config.sync]
  blocksOk := by simp
  echoing := by simp
  roundSize := by simp

/-- Settles O50: the state after reset is what the `reset` event makes of it. -/
theorem engineInvariantAtReset : Obligations.EngineInvariantAtReset := by
  unfold Obligations.EngineInvariantAtReset State.quiescent
  exact ⟨resetEvent_engineInv (s := State.reset) (by decide) reset_image_wf (by simp [State.reset]), by decide⟩

/-- The fatal errors that a run through the ports can latch (60_exceptions.md R108). -/
def EngineError (c : ErrCode) : Prop :=
  c = .queueOverflow ∨ c = .fieldOverflow ∨ c = .diskStoreFault ∨ c = .unimplementedOpcode ∨ c = .transportLost

/-- A fatal error is taken (R112), with bytes already pushed or not. -/
theorem fatal_engineInv {s t : State} {c : ErrCode} (h : EngineInv s) (hp : Pushed s t) (hc : EngineError c)
    (i : ErrInfo) : EngineInv (fatal c i t) := by
  obtain ⟨bs, rfl⟩ := hp
  exact { h with
    faultHalts := by rcases hc with rfl | rfl | rfl | rfl | rfl <;> simp
    faultKind := by rcases hc with rfl | rfl | rfl | rfl | rfl <;> simp
    decoded := by simp
    inFlight := by simp
    outEmpty := by simp
    matching := by simp }

theorem EngineInv.fault_none {s : State} (h : EngineInv s) (hf : s.fsm ≠ .halted) : s.fault = .none := h.faultHalts.2 hf

/-- Outside `RESPOND` and `HALTED` no ReadOperation is in flight (43_read_operation.md R94). -/
theorem EngineInv.roPhase_none {s : State} (h : EngineInv s) (hr : s.fsm ≠ .respond) (hf : s.fsm ≠ .halted) :
    s.roPhase = .none := by
  by_contra hp
  rcases h.inFlight hp with e | e
  · exact hr e
  · exact hf e

/-- Recovery (R110) empties what the invariant bounds. -/
theorem recovery_engineInv {s : State} (h : EngineInv s) (hf : s.fsm ≠ .halted) (i : ErrInfo) :
    EngineInv (recovery i s) :=
  { h with
    faultHalts := by simp [h.fault_none hf]
    decoded := by simp
    inFlight := by simp
    outEmpty := by simp
    matching := by simp [Config.sync]
    blocksOk := by simp
    echoing := by simp
    roundSize := by simp }

/-- FEED's append (40_inbound_queue.md R61). -/
theorem iqAppend_engineInv {s t : State} {bs : List Byte} (h : EngineInv s) (he : exec (.iqAppend bs) s = .next t) :
    EngineInv t := by
  simp only [exec, execIqAppend] at he
  rcases append_cases bs s with e | e <;> rw [e] at he <;> cases he
  · exact h.received (s.inq ++ bs) s.dlElapsed s.draws
  · exact fatal_engineInv h (.refl s) (.inl rfl) _

/-- `link_lost` (R113). -/
theorem linkLost_engineInv {s : State} (h : EngineInv s) : EngineInv (linkLost s) := by
  unfold linkLost
  split
  · exact h
  · exact fatal_engineInv h (.refl s) (by simp [EngineError]) _

/-! ### The invariant under each action of ENG -/

theorem dspWaitSync_engineInv {s t : State} (h : EngineInv s) (hf : s.fsm = .waitSync)
    (he : exec .dspWaitSync s = .next t) : EngineInv t := by
  obtain ⟨hseq, hlt⟩ := h.matching hf
  have hrun : s.fsm ≠ .halted := by simp [hf]
  have hro := h.roPhase_none (by simp [hf]) hrun
  obtain ⟨_, rfl, d, ⟨b, rest, i, n, -, hb, ⟨-, rfl⟩ | ⟨hi, rfl⟩⟩ | rfl | ⟨-, rfl⟩⟩ := dspWaitSync_cases hrun he <;>
    rw [startSequence_started hseq] at *
  case inl.inl =>
    exact { h with
      faultHalts := by simp [h.fault_none hrun]
      decoded := by simp
      inFlight := by simp [hro]
      outEmpty := fun _ => h.outEmpty (.inl hf)
      matching := by simp }
  case inl.inr =>
    have hle := matchByte_le (by simp [Config.sync]) hb
    exact { h with matching := fun _ => ⟨hseq, by dsimp only; omega⟩ }
  case inr.inl => exact recovery_engineInv (h.received s.inq s.dlElapsed d) hrun _
  case inr.inr => exact h

theorem dspReadFixed9_engineInv {s t : State} (h : EngineInv s) (hf : s.fsm = .readFixed9)
    (he : exec .dspReadFixed9 s = .next t) : EngineInv t := by
  have hrun : s.fsm ≠ .halted := by simp [hf]
  have hlen : s.cfg.fixedLen = 9 := (Config.wf_parts h.cfgOk).1
  obtain ⟨d, ⟨c, bs, rest, -, -, rfl⟩ | ⟨hge, hlt, -⟩ | rfl | ⟨-, rfl⟩⟩ := dspReadFixed9_cases hrun he
  · exact { h with
      faultHalts := by simp [h.fault_none hrun]
      decoded := by simp
      inFlight := by simp [h.roPhase_none (by simp [hf]) hrun]
      outEmpty := fun _ => h.outEmpty (.inr (.inl hf))
      matching := by simp }
  · omega
  · exact recovery_engineInv (h.received s.inq s.dlElapsed d) hrun _
  · exact h

theorem dspDecode_engineInv {s t : State} (h : EngineInv s) (hf : s.fsm = .decode) (he : exec .dspDecode s = .next t) :
    EngineInv t := by
  have hrun : s.fsm ≠ .halted := by simp [hf]
  obtain rfl := dspDecode_cases hrun he
  exact { h with
    faultHalts := by simp [decodeAction, h.fault_none hrun]
    decoded := fun _ => h.decoded (.inl hf)
    inFlight := by simp [decodeAction, h.roPhase_none (by simp [hf]) hrun]
    outEmpty := fun _ => h.outEmpty (.inr (.inr (.inl hf)))
    matching := by simp [decodeAction] }

/-- On the way from `DISPATCH` to `RESPOND` with no ReadOperation started, anything may be queued. -/
theorem goto_respond_engineInv {s : State} (h : EngineInv s) (hf : s.fsm = .dispatch) (out : List Byte)
    (log : List DiagEvent) : EngineInv (goto .respond { s with outq := out, diaglog := log }) :=
  { h with
    faultHalts := by simp [h.fault_none (by simp [hf])]
    decoded := by simp
    inFlight := by simp
    outEmpty := by simp [h.roPhase_none (by simp [hf]) (by simp [hf])]
    matching := by simp }

/-- `DISPATCH` goes on to `RESPOND` with a reply queued, or with an operation started and nothing queued. -/
theorem dspDispatch_engineInv {s t : State} (h : EngineInv s) (hf : s.fsm = .dispatch)
    (he : exec .dspDispatch s = .next t) : EngineInv t := by
  have hrun : s.fsm ≠ .halted := by simp [hf]
  rcases dspDispatch_cases hrun he with ⟨s1, -, hd, rfl⟩ | ⟨c, i, s1, hr, -, rfl⟩
  · cases hd with
    | queued bs => exact goto_respond_engineInv h hf (s.outq ++ bs) s.diaglog
    | logged e => exact goto_respond_engineInv h hf s.outq (s.diaglog ++ [e])
    | started base blks hb =>
      exact { h with
        faultHalts := by simp [h.fault_none hrun]
        decoded := by simp
        inFlight := by simp
        outEmpty := fun _ => h.outEmpty (by simp [hf])
        matching := by simp
        blocksOk := by simpa using hb
        echoing := by simp
        roundSize := by simp }
  · obtain ⟨hp, hc⟩ := dispatchAction_raised h.cfgOk hr
    exact fatal_engineInv h hp (by unfold EngineError; tauto) i

/-- A flush touches `outq` and the transport log only (41_outbound_queue.md R77). -/
theorem flush_eq (s : State) : ∃ log, flush s = { s with outq := [], txlog := log } := by
  unfold flush takeAll
  dsimp only
  split <;> exact ⟨_, rfl⟩

/-- With legal blocks a round is sent, or raises `QueueOverflow` or, above 255 blocks, `FieldOverflow` (43_read_operation.md
R84, R92). -/
theorem roRound_legal {s t : State} (hf : s.fsm ≠ .halted) (hsend : s.roPhase = .send) (hne : s.roPending ≠ [])
    (hb : ∀ b ∈ s.roPending, b.legal s.cfg) (he : exec .roRound s = .next t) :
    (s.roPending.length ≤ 255 ∧ ∃ bs, t = { deadlineReset (flush (pushed bs s)) with
        roRetained := [], roIdx := 0, roPhase := .echo }) ∨
      ∃ c i s1, EngineError c ∧ Pushed s s1 ∧ t = fatal c i s1 := by
  simp only [exec, execRoRound, engineOnly_running hf, hsend, hne, roRound, ne_eq, not_false_eq_true, and_self,
    if_true] at he
  rcases Nat.lt_or_ge 255 s.roPending.length with hn | hn
  · simp only [frameFast, payloads, List.length_map, hn, if_true] at he
    cases he
    exact .inr ⟨_, _, s, .inr (.inl rfl), .refl s, rfl⟩
  · rcases roundFrame_all hb hn with ⟨-, e⟩ | ⟨-, sent, req, -, -, -, e⟩ <;> rw [e] at he <;> cases he
    · exact .inl ⟨hn, _, rfl⟩
    · exact .inr ⟨_, _, _, .inl rfl, ⟨sent, rfl⟩, rfl⟩

theorem dspRespond_round_engineInv {s t : State} (h : EngineInv s) (hf : s.fsm = .respond) (hsend : s.roPhase = .send)
    (hne : s.roPending ≠ []) (he : exec .roRound s = .next t) : EngineInv t := by
  have hrun : s.fsm ≠ .halted := by simp [hf]
  rcases roRound_legal hrun hsend hne (fun b hb => h.blocksOk b (.inl hb)) he with
    ⟨hn, bs, rfl⟩ | ⟨c, i, s1, hc, hp, rfl⟩
  · obtain ⟨log, hflush⟩ := flush_eq (pushed bs s)
    rw [hflush]
    exact { h with
      inFlight := by simp [hf]
      outEmpty := by simp
      blocksOk := by simpa using fun b hb => h.blocksOk b (.inl hb)
      echoing := by simp
      roundSize := fun _ => ⟨List.length_pos_iff.2 hne, hn⟩ }
  · exact fatal_engineInv h hp hc i

/-- An echo retains its block or not (43_read_operation.md R86). -/
theorem takeEcho_eq (blk : DataBlock) (e : Byte) (s : State) : ∃ kept n, kept.Sublist [blk] ∧
    takeEcho blk e s = { s with roRetained := s.roRetained ++ kept, roRetx := n, roIdx := s.roIdx + 1 } := by
  unfold takeEcho
  split
  · exact ⟨[], s.roRetx, by simp, by simp⟩
  · exact ⟨[blk], s.roRetx + 1, by simp, rfl⟩

/-- An echo moves one block of the round behind `ro_idx`, retained or not (R86). -/
theorem takeEcho_engineInv {s : State} (h : EngineInv s) (hecho : s.roPhase = .echo) {blk : DataBlock}
    (hblk : s.roPending[s.roIdx]? = some blk) (e : Byte) : EngineInv (takeEcho blk e s) := by
  obtain ⟨-, hsub⟩ := h.echoing hecho
  have hlt : s.roIdx < s.roPending.length := (List.getElem?_eq_some_iff.1 hblk).1
  have htake : s.roPending.take (s.roIdx + 1) = s.roPending.take s.roIdx ++ [blk] := by
    simp [List.take_add_one, hblk]
  obtain ⟨kept, n, hkept, heq⟩ := takeEcho_eq blk e s
  rw [heq]
  exact { h with
    blocksOk := by
      rintro b (hb | hb)
      · exact h.blocksOk b (.inl hb)
      · rcases List.mem_append.1 hb with hb | hb
        · exact h.blocksOk b (.inr hb)
        · obtain rfl := List.mem_singleton.1 (hkept.subset hb)
          exact h.blocksOk b (.inl (List.mem_of_getElem? hblk))
    echoing := fun _ => ⟨hlt, htake ▸ hsub.append hkept⟩ }

theorem dspRespond_echo_engineInv {s t : State} (h : EngineInv s) (hrun : s.fsm ≠ .halted)
    (he : exec .roEcho s = .next t) : EngineInv t := by
  obtain ⟨hecho, blk, hblk, d, ⟨e, rest, -, rfl⟩ | rfl | ⟨-, rfl⟩⟩ := roEcho_cases hrun he
  · exact takeEcho_engineInv (h.received rest s.dlElapsed d) hecho hblk e
  · exact recovery_engineInv (h.received s.inq s.dlElapsed d) hrun _
  · exact h

/-- The retained blocks are the next round's (43_read_operation.md R87). -/
theorem roEndround_engineInv {s : State} (h : EngineInv s) (hf : s.fsm = .respond) (hecho : s.roPhase = .echo) :
    EngineInv (roEndround s) :=
  { h with
    inFlight := by simp [hf]
    outEmpty := fun _ => h.outEmpty (by simp [hf, hecho])
    blocksOk := fun b hb => h.blocksOk b (.inr (by simpa using hb))
    echoing := by simp
    roundSize := by simp }

/-- On the way to `FLUSH`, no ReadOperation being in flight any more, anything may be queued. -/
theorem goto_flush_engineInv {s : State} (h : EngineInv s) (hf : s.fsm = .respond) (bs : List Byte) :
    EngineInv (goto .flush { pushed bs s with roPhase := .none }) :=
  { h with
    faultHalts := by simp [h.fault_none (by simp [hf])]
    decoded := by simp
    inFlight := by simp
    outEmpty := by simp
    matching := by simp
    echoing := by simp
    roundSize := by simp }

theorem dspRespond_engineInv {s t : State} (h : EngineInv s) (hf : s.fsm = .respond)
    (he : exec .dspRespond s = .next t) : EngineInv t := by
  rcases dspRespond_cases (by simp [hf]) he with ⟨hro, rfl⟩ | ⟨hsend, hne, hr⟩ | ⟨-, -, hr⟩ | ⟨hecho, -, rfl⟩ |
    ⟨-, -, ⟨bs, rfl⟩ | ⟨i, s1, hp, rfl⟩⟩
  · have hsame : { pushed [] s with roPhase := .none } = s := by rw [pushed_nil, ← hro]
    rw [← hsame]
    exact goto_flush_engineInv h hf []
  · exact dspRespond_round_engineInv h hf hsend hne hr
  · exact dspRespond_echo_engineInv h (by simp [hf]) hr
  · exact roEndround_engineInv h hf hecho
  · exact goto_flush_engineInv h hf bs
  · exact fatal_engineInv h hp (.inl rfl) i

theorem dspFlush_engineInv {s t : State} (h : EngineInv s) (hf : s.fsm = .flush) (he : exec .dspFlush s = .next t) :
    EngineInv t := by
  have hrun : s.fsm ≠ .halted := by simp [hf]
  have hro := h.roPhase_none (by simp [hf]) hrun
  obtain rfl := dspFlush_cases hrun he
  obtain ⟨log, hflush⟩ := flush_eq s
  rw [hflush]
  exact { h with
    faultHalts := by simp [h.fault_none hrun]
    decoded := by simp
    inFlight := by simp [hro]
    outEmpty := by simp
    matching := by simp [Config.sync] }

/-! ### The invariant under a step -/

/-- ENG's next action (44_dispatcher.md R95) keeps the invariant. -/
theorem engineInstr_engineInv {s t : State} {i : Instr} (h : EngineInv s) (hi : engineInstr s = some i)
    (he : exec i s = .next t) : EngineInv t := by
  unfold engineInstr at hi
  split at hi <;> cases hi
  next hf => exact dspWaitSync_engineInv h hf he
  next hf => exact dspReadFixed9_engineInv h hf he
  next hf => exact dspDecode_engineInv h hf he
  next hf => exact dspDispatch_engineInv h hf he
  next hf => exact dspRespond_engineInv h hf he
  next hf => exact dspFlush_engineInv h hf he

theorem currentOffer_usesPorts {s : State} (h : ∀ o ∈ s.agenda, o.usesPorts) : (currentOffer s).usesPorts := by
  unfold currentOffer
  split
  · simp [Offer.usesPorts]
  · next o ag ha => exact h o (by simp [ha])

/-- What a mover of the ports performs keeps the invariant: ENG's action, FEED's append, CLK's tick. -/
theorem moveInstr_engineInv {s t : State} {m : Move} {i : Instr} (h : EngineInv s)
    (hm : ∀ fmt bytes, m ≠ .operation fmt bytes) (hi : moveInstr s m = .ok (some i)) (he : exec i s = .next t) :
    EngineInv t := by
  cases m with
  | eng => exact engineInstr_engineInv h (Except.ok.inj hi) he
  | feed bs => cases hi; exact iqAppend_engineInv h he
  | clk => cases hi; cases he; exact h.received s.inq (s.dlElapsed + 1) s.draws
  | operation fmt bytes => exact absurd rfl (hm fmt bytes)

/-- Settles O49: with the agenda entry taken, the step is `reset`, `link_lost` or what a mover of the ports performs. -/
theorem engineInvariantKept : Obligations.EngineInvariantKept := by
  unfold Obligations.EngineInvariantKept
  intro s t h hs
  have h0 := dropOffer_engineInv h
  rcases step_cases hs with ⟨-, rfl⟩ | ⟨-, -, rfl⟩ | ⟨-, -, ⟨i, hi, he⟩ | ⟨-, rfl⟩⟩
  · exact resetEvent_engineInv h0.cfgOk h0.imageOk h0.portsOnly
  · exact linkLost_engineInv h0
  · exact moveInstr_engineInv h0 (currentOffer_usesPorts h.portsOnly) hi he
  · exact h0

end Sys2Proof.Machine
end

section
/-! SUPPORT. What no operation but the decode writes: the parameters, the disk image, the schedule and the command
register file (10_state.md R13, R18). -/

namespace Sys2Proof.Machine

/-! ### What stays through an operation -/

/-- The parameters, the disk image and the rest of the schedule. -/
def settings (s : State) : Config × List Host.Cell × List Offer := (s.cfg, s.image, s.agenda)

/-- The settings and the command register file. -/
def fixedPart (s : State) : (Config × List Host.Cell × List Offer) × Command × Bool :=
  (settings s, s.command, s.cmdValid)

theorem settings_eq_iff (s t : State) :
    settings t = settings s ↔ t.cfg = s.cfg ∧ t.image = s.image ∧ t.agenda = s.agenda := by
  simp [settings]

theorem fixedPart_eq_iff (s t : State) : fixedPart t = fixedPart s ↔
    settings t = settings s ∧ t.command = s.command ∧ t.cmdValid = s.cmdValid := by
  simp [fixedPart]

@[simp] theorem fixedPart_pushed (bs : List Byte) (s : State) : fixedPart (pushed bs s) = fixedPart s := rfl
@[simp] theorem fixedPart_withRet (v : RetVal) (s : State) : fixedPart (withRet v s) = fixedPart s := rfl
@[simp] theorem fixedPart_goto (f : Fsm) (s : State) : fixedPart (goto f s) = fixedPart s := rfl
@[simp] theorem fixedPart_recovery (i : ErrInfo) (s : State) : fixedPart (recovery i s) = fixedPart s := rfl
@[simp] theorem fixedPart_flush (s : State) : fixedPart (flush s) = fixedPart s := by simp [fixedPart, settings]
@[simp] theorem fixedPart_takeEcho (blk : DataBlock) (e : Byte) (s : State) :
    fixedPart (takeEcho blk e s) = fixedPart s := by
  simp [fixedPart, settings]
@[simp] theorem fixedPart_takeError (c : ErrCode) (i : ErrInfo) (s : State) :
    fixedPart (takeError c i s) = fixedPart s := by
  unfold takeError; split <;> rfl
@[simp] theorem fixedPart_startSequence (pat : List Byte) (s : State) :
    fixedPart (startSequence pat s) = fixedPart s := by
  unfold startSequence; split <;> rfl

/-- A state with the fixed part of `s`. -/
def Fixes (s t : State) : Prop := fixedPart t = fixedPart s

theorem Pushed.fixes {s t : State} (h : Pushed s t) : Fixes s t := by
  obtain ⟨bs, rfl⟩ := h
  exact fixedPart_pushed bs s

/-- An outcome whose next state, if it has one, has the fixed part of `s`. -/
def KeepsFixed (s : State) (o : Host.Outcome State Fault Refusal) : Prop := ∀ t, o = .next t → Fixes s t

theorem KeepsFixed.next {s t : State} (h : Fixes s t) : KeepsFixed s (.next t) := by rintro _ ⟨⟩; exact h

theorem KeepsFixed.fault (s : State) (r : Fault) : KeepsFixed s (.fault r) := by rintro _ ⟨⟩

theorem KeepsFixed.of_fixes {s u : State} {o : Host.Outcome State Fault Refusal} (h : Fixes s u)
    (hu : KeepsFixed u o) : KeepsFixed s o := fun t ht => (hu t ht).trans h

theorem engineOnly_keepsFixed {s : State} {act : State → Host.Outcome State Fault Refusal}
    (h : KeepsFixed s (act s)) : KeepsFixed s (engineOnly s act) := by
  unfold engineOnly
  split
  · exact .next rfl
  · exact h

theorem Res.finish_keepsFixed {α : Type} {s : State} {r : Res α} {k : α → State → State} (hr : r.Ends (Fixes s))
    (hk : ∀ v u, Fixes u (k v u)) : KeepsFixed s (r.finish k) := by
  cases r with
  | ok v u => exact .next ((hk v u).trans hr)
  | raised c i u => exact .next ((fixedPart_takeError c i u).trans hr)

/-- An evaluation of a wait in a state that meets `P`. -/
def Wait.Ends {α : Type} (P : State → Prop) : Wait α → Prop
  | .complete _ s => P s
  | .suspended s => P s
  | .timeout _ s => P s

theorem Wait.finish_keepsFixed {α : Type} {s : State} {w : Wait α} {k : α → State → Host.Outcome State Fault Refusal}
    (hw : w.Ends (Fixes s)) (hk : ∀ v u, KeepsFixed u (k v u)) : KeepsFixed s (w.finish k) := by
  cases w with
  | complete v u => exact .of_fixes hw (hk v u)
  | suspended u => exact .next hw
  | timeout i u => exact .next ((fixedPart_recovery i u).trans hw)

/-! ### Waits, pops and the ReadOperation's start -/

theorem suspend_fixes {α : Type} {ready : Bool} {info : ErrInfo} {p : State → Wait α} (s : State)
    (hp : ∀ u, (p u).Ends (Fixes u)) : (suspend ready info p s).Ends (Fixes s) := by
  obtain ⟨d, ⟨-, e⟩ | e | ⟨-, e⟩⟩ := suspend_steps ready info p s <;> rw [e]
  · exact hp _
  · exact rfl
  · exact rfl

theorem nextByte_fixes (s : State) : (nextByte s).Ends (Fixes s) := by
  refine suspend_fixes s fun u => ?_
  unfold popByte
  split <;> exact rfl

theorem waitAvailable_fixes (n : Nat) (s : State) : (waitAvailable n s).Ends (Fixes s) :=
  suspend_fixes s fun _ => rfl

theorem matchStep_fixes (pat : List Byte) (s : State) : (matchStep pat s).Ends (Fixes s) := by
  unfold matchStep
  split
  · exact rfl
  · dsimp only
    split <;> exact rfl

theorem waitSequence_fixes (pat : List Byte) (s : State) : (waitSequence pat s).Ends (Fixes s) := by
  have h := suspend_fixes (ready := !(startSequence pat s).inq.isEmpty)
    (info := .waitseq (startSequence pat s).syncDiscard) (startSequence pat s) (matchStep_fixes pat)
  unfold Fixes at h
  rwa [fixedPart_startSequence] at h

theorem readByte_fixes (s : State) : (readByte s).Ends (Fixes s) := by
  unfold readByte
  split <;> exact rfl

theorem readWord_fixes (s : State) : (readWord s).Ends (Fixes s) := by
  unfold readWord
  split <;> exact rfl

theorem append_fixes (bs : List Byte) (s : State) : (append bs s).Ends (Fixes s) := by
  rcases append_cases bs s with e | e <;> rw [e] <;> exact rfl

/-- The opcode-keyed action and what it starts, whether or not an error is raised. -/
theorem Res.Meets.fixes {r : Res Unit} {s : State} (h : r.Meets (Dispatched s) (DispatchRaised s)) :
    r.Ends (Fixes s) := by
  cases r with
  | ok v t => cases h <;> exact rfl
  | raised c i t =>
    obtain ⟨-, hp | ⟨b, rfl⟩⟩ := h
    · exact hp.fixes
    · exact rfl

theorem dispatchCommand_keepsFixed (c : Command) (s : State) : KeepsFixed s (dispatchCommand c s) :=
  Res.finish_keepsFixed (dispatchAction_meets c s).fixes fun _ u => fixedPart_goto .respond u

theorem roRound_fixes (s : State) : (roRound s).Ends (Fixes s) :=
  (frameFast_ends _ _ s).andThen (fun _ h => h.fixes) fun _ u h => (fixedPart_flush u).trans h.fixes

theorem roExit_fixes (s : State) : (roExit s).Ends (Fixes s) :=
  (frameExit_ends s).andThen (fun _ h => h.fixes) fun _ _ h => h.fixes

theorem execRoConstruct_keepsFixed (base : Word) (data : List Byte) (s : State) :
    KeepsFixed s (execRoConstruct base data s) :=
  engineOnly_keepsFixed (Res.finish_keepsFixed (roConstruct_meets base data s).fixes fun _ _ => rfl)

theorem execRoRound_keepsFixed (s : State) : KeepsFixed s (execRoRound s) := by
  refine engineOnly_keepsFixed ?_
  split
  · exact Res.finish_keepsFixed (roRound_fixes s) fun _ _ => rfl
  · exact .fault s _

theorem execRoEcho_keepsFixed (s : State) : KeepsFixed s (execRoEcho s) := by
  refine engineOnly_keepsFixed ?_
  split
  · exact Wait.finish_keepsFixed (nextByte_fixes s) fun e u => .next (fixedPart_takeEcho _ e u)
  · exact .fault s _

theorem execRoEndround_keepsFixed (s : State) : KeepsFixed s (execRoEndround s) := by
  refine engineOnly_keepsFixed ?_
  split
  · exact .next rfl
  · exact .fault s _

theorem execRoExit_keepsFixed (s : State) : KeepsFixed s (execRoExit s) := by
  refine engineOnly_keepsFixed ?_
  split
  · exact Res.finish_keepsFixed (roExit_fixes s) fun _ _ => rfl
  · exact .fault s _

theorem execDspRespond_keepsFixed (s : State) : KeepsFixed s (execDspRespond s) := by
  refine engineOnly_keepsFixed ?_
  split_ifs
  · exact .next rfl
  · exact execRoRound_keepsFixed s
  · exact execRoEcho_keepsFixed s
  · exact execRoEndround_keepsFixed s
  · exact Res.finish_keepsFixed (roExit_fixes s) fun _ u => fixedPart_goto .flush u

/-! ### Every instruction but the decodes -/

/-- A builder or a frame that is run on its own. -/
theorem builder_keepsFixed {s : State} {build : State → Res Unit} (h : (build s).Ends (Pushed s)) :
    KeepsFixed s (engineOnly s fun s => (build s).finish fun _ s => s) :=
  engineOnly_keepsFixed (Res.finish_keepsFixed (h.imp fun _ hp => hp.fixes) fun _ _ => rfl)

/-- An operation that is one update. -/
theorem update_keepsFixed {s : State} {update : State → State} (h : Fixes s (update s)) :
    KeepsFixed s (engineOnly s fun s => .next (update s)) := engineOnly_keepsFixed (.next h)

/-- A wait that is run on its own, or by ENG. -/
theorem wait_keepsFixed {α : Type} {s : State} {wait : State → Wait α} {k : α → State → State}
    (h : (wait s).Ends (Fixes s)) (hk : ∀ v u, Fixes u (k v u)) :
    KeepsFixed s (engineOnly s fun s => (wait s).finish fun v s => .next (k v s)) :=
  engineOnly_keepsFixed (Wait.finish_keepsFixed h fun v u => .next (hk v u))

/-- An operation that only records what it returns. -/
theorem returning_keepsFixed {α : Type} {s : State} {op : State → Res α} {ret : α → RetVal}
    (h : (op s).Ends (Fixes s)) :
    KeepsFixed s (engineOnly s fun s => (op s).finish fun v s => withRet (ret v) s) :=
  engineOnly_keepsFixed (Res.finish_keepsFixed h fun v u => fixedPart_withRet (ret v) u)

/-- R18: outside the arriving frames and the two decodes, no instruction writes the fixed part. -/
theorem exec_keepsFixed {i : Instr} (s : State) (hin : i.format ≠ .inbound) (hread : i ≠ .dspReadFixed9)
    (hdec : ∀ bc de hl f a cmd, i ≠ .cmdDecode bc de hl f a cmd) : KeepsFixed s (exec i s) := by
  cases i with
  | iqAppend bs => exact Res.finish_keepsFixed (append_fixes bs s) fun _ _ => rfl
  | iqNextbyte => exact wait_keepsFixed (nextByte_fixes s) fun _ _ => rfl
  | iqWaitseq p0 ps => exact wait_keepsFixed (waitSequence_fixes (p0 :: ps) s) fun _ _ => rfl
  | iqWaitavail n => exact wait_keepsFixed (waitAvailable_fixes n s) fun _ _ => rfl
  | iqReadbyte => exact returning_keepsFixed (readByte_fixes s)
  | iqReadword => exact returning_keepsFixed (readWord_fixes s)
  | iqClear => exact update_keepsFixed rfl
  | iqDlreset => exact update_keepsFixed rfl
  | clkTick => exact .next rfl
  | oqHeader => exact builder_keepsFixed (outPush_ends _ s)
  | oqByte v => exact builder_keepsFixed (outPush_ends _ s)
  | oqWord v => exact builder_keepsFixed (outPush_ends _ s)
  | oqRaw bs => exact builder_keepsFixed (outPush_ends bs s)
  | oqBlock p => exact builder_keepsFixed (addBlock_ends p s)
  | oqTakeall => exact update_keepsFixed (update := fun s => withRet (.bytes (takeAll s).1) (takeAll s).2) rfl
  | dbMarker p => exact returning_keepsFixed ((findMarker_ends p s).imp fun _ h => congrArg fixedPart h)
  | dbConstruct p => exact returning_keepsFixed ((construct_ends p s).imp fun _ h => congrArg fixedPart h)
  | cmdDecode bc de hl f a cmd => exact absurd rfl (hdec bc de hl f a cmd)
  | cmdHigh x => exact update_keepsFixed rfl
  | cmdLow x => exact update_keepsFixed rfl
  | cmdClassify cmd => exact update_keepsFixed rfl
  | roConstruct base data => exact execRoConstruct_keepsFixed base data s
  | roRound => exact execRoRound_keepsFixed s
  | roEcho => exact execRoEcho_keepsFixed s
  | roEndround => exact execRoEndround_keepsFixed s
  | roExit => exact execRoExit_keepsFixed s
  | dspWaitSync => exact wait_keepsFixed (waitSequence_fixes s.cfg.sync s) fun _ _ => rfl
  | dspReadFixed9 => exact absurd rfl hread
  | dspDecode => exact update_keepsFixed rfl
  | dspDispatch => exact engineOnly_keepsFixed (dispatchCommand_keepsFixed s.command s)
  | dspRespond => exact execDspRespond_keepsFixed s
  | dspFlush => exact update_keepsFixed (update := fun s => enterWaitSync (flush s)) (fixedPart_flush s)
  | inDskioRead _ _ _ _ _ => exact absurd rfl hin
  | inDskioWrite _ _ _ _ _ => exact absurd rfl hin
  | inCmdrequest _ _ _ _ _ => exact absurd rfl hin
  | inKnownOther _ _ _ _ _ _ => exact absurd rfl hin
  | inUnknown _ _ _ _ _ _ => exact absurd rfl hin
  | outFasttransfer e p0 ps => exact builder_keepsFixed (frameFast_ends e (p0 :: ps) s)
  | outSlowtransfer d p => exact builder_keepsFixed (frameSlow_ends d p s)
  | outExit => exact builder_keepsFixed (frameExit_ends s)
  | outFixedReply bs => exact builder_keepsFixed (frameReply_ends bs s)

/-- Settles O56: the command file is part of what every other instruction keeps. -/
theorem commandFileWrittenOnlyByDecode : Obligations.CommandFileWrittenOnlyByDecode := by
  unfold Obligations.CommandFileWrittenOnlyByDecode
  intro i s t he hin hread hdec
  exact ((fixedPart_eq_iff s t).1 (exec_keepsFixed s hin hread hdec t he)).2

/-! ### The instructions that write the command file -/

theorem KeepsFixed.settings_eq {s t : State} {o : Host.Outcome State Fault Refusal} (h : KeepsFixed s o)
    (ht : o = .next t) : settings t = settings s := ((fixedPart_eq_iff s t).1 (h t ht)).1

theorem frameArrives_settings {c : Command} {s t : State} (he : frameArrives c s = .next t) :
    settings t = settings s := by
  unfold frameArrives at he
  rcases append_cases (frameBytes s.cfg c) s with e | e <;> rw [e] at he <;> dsimp only at he
  · split at he
    · exact (dispatchCommand_keepsFixed c (decodeAction c (frameTaken c _))).settings_eq he
    · cases he; rfl
  · cases he
    exact ((fixedPart_eq_iff _ _).1 (fixedPart_takeError _ _ s)).1

theorem dspReadFixed9_settings {s t : State} (he : exec .dspReadFixed9 s = .next t) : settings t = settings s := by
  by_cases hf : s.fsm = .halted
  · simp only [exec, execDspReadFixed9, engineOnly_halted hf] at he
    cases he; rfl
  · obtain ⟨d, ⟨c, bs, rest, -, -, rfl⟩ | ⟨-, -, i, rest, -, rfl⟩ | rfl | ⟨-, rfl⟩⟩ := dspReadFixed9_cases hf he <;> rfl

theorem cmdDecode_settings {bc de hl : Word} {f a cmd : Byte} {s t : State}
    (he : exec (.cmdDecode bc de hl f a cmd) s = .next t) : settings t = settings s := by
  simp only [exec, execCmdDecode, engineOnly] at he
  split at he <;> cases he <;> rfl

/-- R13, R29, R125: no instruction writes a parameter, the image or the schedule. -/
theorem exec_settings {i : Instr} {s t : State} (he : exec i s = .next t) : settings t = settings s := by
  by_cases hin : i.format = .inbound
  · obtain ⟨c, -, hc⟩ := exec_inbound hin s
    exact frameArrives_settings (hc ▸ he)
  · by_cases hread : i = .dspReadFixed9
    · subst hread
      exact dspReadFixed9_settings he
    · by_cases hdec : ∃ bc de hl f a cmd, i = .cmdDecode bc de hl f a cmd
      · obtain ⟨bc, de, hl, f, a, cmd, rfl⟩ := hdec
        exact cmdDecode_settings he
      · refine (exec_keepsFixed s hin hread fun bc de hl f a cmd h => ?_).settings_eq he
        exact hdec ⟨bc, de, hl, f, a, cmd, h⟩

theorem linkLost_settings (s : State) : settings (linkLost s) = settings s := by
  unfold linkLost
  split <;> rfl

/-- A step takes its agenda entry and leaves the settings otherwise as they are. -/
theorem step_settings {s t : State} (hs : step s = .next t) : settings t = settings (dropOffer s) := by
  rcases step_cases hs with ⟨-, rfl⟩ | ⟨-, -, rfl⟩ | ⟨-, -, ⟨i, -, he⟩ | ⟨-, rfl⟩⟩
  · rfl
  · exact linkLost_settings _
  · exact exec_settings he
  · rfl

/-- Settles O57: the settings are the parameters, the image and the schedule. -/
theorem configAndImageAreNeverWritten : Obligations.ConfigAndImageAreNeverWritten := by
  unfold Obligations.ConfigAndImageAreNeverWritten
  refine ⟨fun i s t he => ?_, fun s t hs => ?_⟩
  · obtain ⟨hcfg, himage, hagenda⟩ := (settings_eq_iff s t).1 (exec_settings he)
    exact ⟨hcfg, fun k => by rw [himage], himage, hagenda⟩
  · exact (settings_eq_iff (dropOffer s) t).1 (step_settings hs)

end Sys2Proof.Machine
end

section
/-! SUPPORT. The disk-read path does not read the command register file (10_state.md R20, 44_dispatcher.md R102). -/

namespace Sys2Proof.Machine

/-- The state with another Command in the register file. -/
def withCommand (c : Command) (s : State) : State := { s with command := c }

/-- The same result, with another Command in the register file. -/
def Res.withCommand {α : Type} (c : Command) : Res α → Res α
  | .ok v s => .ok v (Machine.withCommand c s)
  | .raised code i s => .raised code i (Machine.withCommand c s)

/-- An operation that neither reads nor writes the register file. -/
def IgnoresCommand {α : Type} (op : State → Res α) : Prop :=
  ∀ (c : Command) (s : State), op (withCommand c s) = (op s).withCommand c

theorem IgnoresCommand.andThen {α β : Type} {op : State → Res α} {k : α → State → Res β} (h : IgnoresCommand op)
    (hk : ∀ v, IgnoresCommand (k v)) : IgnoresCommand fun s => (op s).andThen k := by
  intro c s
  dsimp only
  rw [h c s]
  cases op s with
  | ok v u => exact hk v c u
  | raised code i u => rfl

/-! ### Builders and the disk read -/

theorem outPush_ignoresCommand (bs : List Byte) : IgnoresCommand (outPush bs) := by
  intro c s
  simp only [outPush, apply_ite (Res.withCommand c)]
  rfl

theorem findMarker_ignoresCommand (p : List Byte) : IgnoresCommand (findMarker p) := by
  intro c s
  unfold findMarker
  split <;> rfl

theorem construct_ignoresCommand (p : List Byte) : IgnoresCommand (construct p) := by
  intro c s
  simp only [construct, apply_ite (Res.withCommand c)]
  exact if_congr Iff.rfl ((findMarker_ignoresCommand p).andThen (fun _ _ _ => rfl) c s) rfl

theorem addBlock_ignoresCommand (p : List Byte) : IgnoresCommand (addBlock p) := by
  intro c s
  simp only [addBlock, apply_ite (Res.withCommand c)]
  exact if_congr Iff.rfl ((findMarker_ignoresCommand p).andThen (fun _ => outPush_ignoresCommand _) c s) rfl

theorem frameSlow_ignoresCommand (dest : Word) (p : List Byte) : IgnoresCommand (frameSlow dest p) :=
  .andThen (fun c s => outPush_ignoresCommand s.cfg.header c s) fun _ =>
    .andThen (fun c s => outPush_ignoresCommand [s.cfg.codeSlow] c s) fun _ =>
      (outPush_ignoresCommand _).andThen fun _ => (outPush_ignoresCommand _).andThen fun _ => addBlock_ignoresCommand p

theorem constructAll_ignoresCommand (ps : List (List Byte)) : IgnoresCommand (constructAll ps) := by
  induction ps with
  | nil => exact fun _ _ => rfl
  | cons p ps ih => exact (construct_ignoresCommand p).andThen fun _ => ih.andThen fun _ _ _ => rfl

theorem roConstruct_ignoresCommand (base : Word) (data : List Byte) : IgnoresCommand (roConstruct base data) :=
  .andThen (fun c s => constructAll_ignoresCommand (chunks s.cfg data) c { s with roBase := base }) fun _ _ _ => rfl

theorem storeRead_ignoresCommand (offset length : Nat) : IgnoresCommand (storeRead offset length) := by
  intro c s
  simp only [storeRead, apply_ite (Res.withCommand c)]
  rfl

theorem diskRead_ignoresCommand (c : Command) : IgnoresCommand (diskRead c) := by
  intro c' s
  have hpath : ∀ dest size data, IgnoresCommand fun s : State =>
      if size < s.cfg.chunkSize then slowPath dest data s else roConstruct dest data s := by
    intro dest size data c' s
    simp only [apply_ite (Res.withCommand c')]
    exact if_congr Iff.rfl (frameSlow_ignoresCommand dest data c' s) (roConstruct_ignoresCommand dest data c' s)
  simp only [diskRead, apply_ite (Res.withCommand c')]
  exact if_congr Iff.rfl rfl (if_congr Iff.rfl rfl
    ((storeRead_ignoresCommand _ _).andThen (fun data => hpath _ _ data) c' s))

/-! ### The action of DISPATCH -/

/-- Going on from a result, or taking its error, neither reads nor writes the register file. -/
theorem Res.finish_withCommand {α : Type} {r : Res α} {f : Fsm} {c c' : Command} {t : State}
    (h : ((r.withCommand c).finish fun _ s => goto f s) = .next t) :
    ((r.withCommand c').finish fun _ s => goto f s) = .next (Machine.withCommand c' t) := by
  cases r with
  | ok v s => cases h; rfl
  | raised code i s =>
    cases h
    simp only [Res.withCommand, Res.finish_raised, takeError]
    split <;> rfl

/-- Under the default `DSKIO_MAP` the disk read takes `B`, `DE`, `HL` and bit 0 of `F` from the Command (R102). -/
theorem diskRead_congr {c c' : Command} {s : State} (hm : s.cfg.dskioMap = { count := .b, start := .de, dest := .hl })
    (hb : high c.bc = high c'.bc) (hde : c.de = c'.de) (hhl : c.hl = c'.hl) (hf : c.f.getLsbD 0 = c'.f.getLsbD 0) :
    diskRead c s = diskRead c' s := by
  simp only [diskRead, writeFlag, hm, ByteReg.read, WordReg.read, hb, hde, hhl, hf]

theorem exec_dspDispatch_dskio {c : Command} {s : State} (hf : s.fsm ≠ .halted) (hc : c.cmd = s.cfg.opDskio) :
    exec .dspDispatch (withCommand c s) = ((diskRead c s).withCommand c).finish fun _ s => goto .respond s := by
  have hcls : dispatchAction c (withCommand c s) = diskRead c (withCommand c s) := by
    simp [dispatchAction, classify, withCommand, hc]
  rw [exec_dspDispatch (s := withCommand c s) hf, ← diskRead_ignoresCommand c c s, ← hcls]
  rfl

/-- Settles O42: with the same `B`, `DE`, `HL` and bit 0 of `F` the disk read is the same, and it ignores the register
file. -/
theorem diskReadIgnoresOtherFields : Obligations.DiskReadIgnoresOtherFields := by
  unfold Obligations.DiskReadIgnoresOtherFields
  intro s t c c' hm hc hc' hb hde hhl hf he
  change exec .dspDispatch (withCommand c s) = .next t at he
  change exec .dspDispatch (withCommand c' s) = .next (withCommand c' t)
  by_cases hh : s.fsm = .halted
  · rw [exec, execDspDispatch, engineOnly_halted (s := withCommand c s) hh] at he
    rw [exec, execDspDispatch, engineOnly_halted (s := withCommand c' s) hh]
    cases he; rfl
  · rw [exec_dspDispatch_dskio hh hc, diskRead_congr hm hb hde hhl hf] at he
    rw [exec_dspDispatch_dskio hh hc']
    exact Res.finish_withCommand he

end Sys2Proof.Machine
end

section
/-! SUPPORT. The Dispatcher's transitions (10_state.md R21, 44_dispatcher.md R95), and the numbers of the status port. -/

namespace Sys2Proof.Machine

/-! ### What each action makes of `fsm` -/

theorem startSequence_fsm (pat : List Byte) (s : State) : (startSequence pat s).fsm = s.fsm := by
  unfold startSequence; split <;> rfl

theorem dspWaitSync_fsm {s t : State} (hf : s.fsm = .waitSync) (he : exec .dspWaitSync s = .next t) :
    t.fsm = .waitSync ∨ t.fsm = .readFixed9 := by
  obtain ⟨_, rfl, d, ⟨b, rest, i, n, -, -, ⟨-, rfl⟩ | ⟨-, rfl⟩⟩ | rfl | ⟨-, rfl⟩⟩ := dspWaitSync_cases (by simp [hf]) he
  · exact .inr rfl
  · exact .inl ((startSequence_fsm _ s).trans hf)
  · exact .inl rfl
  · exact .inl ((startSequence_fsm _ s).trans hf)

/-- With nine field bytes to read (R99) the pops do not underflow. -/
theorem dspReadFixed9_fsm {s t : State} (hw : s.cfg.wf = true) (hf : s.fsm = .readFixed9)
    (he : exec .dspReadFixed9 s = .next t) : t.fsm = .readFixed9 ∨ t.fsm = .decode ∨ t.fsm = .waitSync := by
  have hlen : s.cfg.fixedLen = 9 := (Config.wf_parts hw).1
  obtain ⟨d, ⟨c, bs, rest, -, -, rfl⟩ | ⟨hge, hlt, -⟩ | rfl | ⟨-, rfl⟩⟩ := dspReadFixed9_cases (by simp [hf]) he
  · exact .inr (.inl rfl)
  · omega
  · exact .inr (.inr rfl)
  · exact .inl hf

theorem dspDispatch_fsm {s t : State} (hf : s.fsm = .dispatch) (he : exec .dspDispatch s = .next t) :
    t.fsm = .respond ∨ t.fsm = .halted := by
  rcases dspDispatch_cases (by simp [hf]) he with ⟨s1, -, -, rfl⟩ | ⟨c, i, s1, -, -, rfl⟩
  · exact .inl rfl
  · exact .inr rfl

theorem dspRespond_fsm {s t : State} (hf : s.fsm = .respond) (he : exec .dspRespond s = .next t) :
    t.fsm = .respond ∨ t.fsm = .flush ∨ t.fsm = .waitSync ∨ t.fsm = .halted := by
  have hrun : s.fsm ≠ .halted := by simp [hf]
  rcases dspRespond_cases hrun he with ⟨-, rfl⟩ | ⟨-, -, hr⟩ | ⟨-, -, hr⟩ | ⟨-, -, rfl⟩ |
    ⟨-, -, ⟨bs, rfl⟩ | ⟨i, s1, -, rfl⟩⟩
  · exact .inr (.inl rfl)
  · obtain ⟨-, -, ⟨-, bs, rfl⟩ | ⟨c, i, s1, -, -, rfl⟩⟩ := roRound_cases hrun hr
    · exact .inl (by simpa using hf)
    · exact .inr (.inr (.inr rfl))
  · obtain ⟨-, blk, -, d, ⟨e, rest, -, rfl⟩ | rfl | ⟨-, rfl⟩⟩ := roEcho_cases hrun hr
    · exact .inl (by simpa using hf)
    · exact .inr (.inr (.inl rfl))
    · exact .inl hf
  · exact .inl hf
  · exact .inr (.inl rfl)
  · exact .inr (.inr (.inr rfl))

/-- Settles O60: ENG's move is the action of its `fsm`, and each action goes where R95 says. -/
theorem dispatcherTransitions : Obligations.DispatcherTransitions := by
  unfold Obligations.DispatcherTransitions
  intro s t hm hw hs
  obtain ⟨_, rfl, ⟨hf, he⟩ | ⟨hf, he⟩ | ⟨hf, he⟩ | ⟨hf, he⟩ | ⟨hf, he⟩ | ⟨hf, he⟩ | ⟨hf, rfl⟩⟩ := engine_cases hm hs
  · simpa [hf] using dspWaitSync_fsm (s := dropOffer s) hf he
  · simpa [hf] using dspReadFixed9_fsm (s := dropOffer s) hw hf he
  · obtain rfl := dspDecode_cases (by simp [hf]) he
    simp [hf, decodeAction]
  · simpa [hf] using dspDispatch_fsm (s := dropOffer s) hf he
  · simpa [hf] using dspRespond_fsm (s := dropOffer s) hf he
  · obtain rfl := dspFlush_cases (by simp [hf]) he
    simp [hf]
  · simp [hf]

/-! ### The status port -/

@[simp] theorem statusPort_fst (s : State) : (statusPort s).1 = fsmCode s.fsm := rfl
@[simp] theorem statusPort_snd (s : State) : (statusPort s).2 = errNumber s.fault := rfl

/-- Settles O59: each number is the value of its code's equation. -/
theorem statusPortShowsTheNumbers : Obligations.StatusPortShowsTheNumbers := by
  unfold Obligations.StatusPortShowsTheNumbers
  intro s
  refine ⟨?fsm, ?fault, ?roPhase⟩
  case fsm => cases hf : s.fsm <;> simp [hf, fsmCode]
  case fault => cases hf : s.fault <;> simp [hf, errNumber]
  case roPhase => cases hf : s.roPhase <;> simp [roPhaseCode]

end Sys2Proof.Machine
end

section
/-! SUPPORT. What a step makes of the outbound queue and the logs (20_memory.md R38 items 3 and 4, 10_state.md R24,
41_outbound_queue.md R77): bytes are pushed at the tail, and a write takes all of them. -/

namespace Sys2Proof.Machine

/-! ### Pushing and writing -/

/-- Bytes and diagnostics are added at the tail, and nothing is written to the transport. -/
def Queues (s t : State) : Prop := s.outq <+: t.outq ∧ t.txlog = s.txlog ∧ s.diaglog <+: t.diaglog

/-- What one step may do: queue or empty the queue, or write once all that was queued and then pushed. -/
def Sends (s t : State) : Prop :=
  ((t.txlog = s.txlog ∧ (s.outq <+: t.outq ∨ t.outq = [])) ∨
    ∃ pushed, s.outq ++ pushed ≠ [] ∧ t.txlog = s.txlog ++ [s.outq ++ pushed] ∧ t.outq = []) ∧
  s.diaglog <+: t.diaglog

theorem Queues.refl (s : State) : Queues s s := ⟨List.prefix_rfl, rfl, List.prefix_rfl⟩

theorem Queues.sends {s t : State} (h : Queues s t) : Sends s t := by
  obtain ⟨hout, htx, hdiag⟩ := h
  exact ⟨.inl ⟨htx, .inl hout⟩, hdiag⟩

theorem Sends.refl (s : State) : Sends s s := (Queues.refl s).sends

theorem Sends.of_emptied {s t : State} (hout : t.outq = []) (htx : t.txlog = s.txlog) (hdiag : s.diaglog <+: t.diaglog) :
    Sends s t := ⟨.inl ⟨htx, .inr hout⟩, hdiag⟩

/-- What is queued first goes out with what the rest of the step queues (R38 item 3). -/
theorem Queues.trans_sends {s u t : State} (h : Queues s u) (k : Sends u t) : Sends s t := by
  obtain ⟨⟨bs, hout⟩, htx, hdiag⟩ := h
  obtain ⟨⟨htx', hout'⟩ | ⟨cs, hne, htx', hout'⟩, hdiag'⟩ := k
  · have hpre : s.outq <+: u.outq := ⟨bs, hout⟩
    exact ⟨.inl ⟨htx'.trans htx, hout'.imp_left hpre.trans⟩, hdiag.trans hdiag'⟩
  · rw [← hout, List.append_assoc] at hne htx'
    exact ⟨.inr ⟨bs ++ cs, hne, htx ▸ htx', hout'⟩, hdiag.trans hdiag'⟩

theorem Pushed.queues {s t : State} (h : Pushed s t) : Queues s t := by
  obtain ⟨bs, rfl⟩ := h
  exact ⟨List.prefix_append _ _, rfl, List.prefix_rfl⟩

theorem Pushed.sends {s t : State} (h : Pushed s t) : Sends s t := h.queues.sends

theorem emit_queues (e : DiagEvent) (s : State) : Queues s (emit e s) :=
  ⟨List.prefix_rfl, rfl, List.prefix_append _ _⟩

/-- R77: one write of the whole queue, or none where it is empty. -/
theorem flush_sends (s : State) : Sends s (flush s) := by
  by_cases h : s.outq = []
  · exact .of_emptied (by simp) (by simp [flush_txlog, h]) (by simp)
  · exact ⟨.inr ⟨[], by simpa using h, by simp [flush_txlog, h], by simp⟩, by simp⟩

/-- An error taken after a send: the fault logs it (R112), the recovery also empties the queue (R110). -/
theorem Sends.takeError {s t : State} (h : Sends s t) (c : ErrCode) (i : ErrInfo) : Sends s (takeError c i t) := by
  obtain ⟨hout, hdiag⟩ := h
  unfold Machine.takeError
  split
  · exact ⟨hout.imp (fun ⟨htx, _⟩ => ⟨htx, .inr rfl⟩) fun ⟨bs, hne, htx, _⟩ => ⟨bs, hne, htx, rfl⟩,
      hdiag.trans (List.prefix_append _ _)⟩
  · exact ⟨hout, hdiag.trans (List.prefix_append _ _)⟩

theorem Sends.recovery {s t : State} (h : Sends s t) (i : ErrInfo) : Sends s (recovery i t) :=
  h.takeError .protocolTimeout i

/-! ### The outcome of an operation -/

/-- An outcome whose next state, if it has one, a step may make of `s`. -/
def SendsNext (s : State) (o : Host.Outcome State Fault Refusal) : Prop := ∀ t, o = .next t → Sends s t

theorem SendsNext.next {s t : State} (h : Sends s t) : SendsNext s (.next t) := by rintro _ ⟨⟩; exact h

theorem SendsNext.fault (s : State) (r : Fault) : SendsNext s (.fault r) := by rintro _ ⟨⟩

theorem engineOnly_sends {s : State} {act : State → Host.Outcome State Fault Refusal} (h : SendsNext s (act s)) :
    SendsNext s (engineOnly s act) := by
  unfold engineOnly
  split
  · exact .next (.refl s)
  · exact h

theorem Res.finish_sends {α : Type} {s : State} {r : Res α} {k : α → State → State} (hr : r.Ends (Sends s))
    (hk : ∀ v u, Sends s u → Sends s (k v u)) : SendsNext s (r.finish k) := by
  cases r with
  | ok v u => exact .next (hk v u hr)
  | raised c i u => exact .next (Sends.takeError hr c i)

theorem Wait.finish_sends {α : Type} {s : State} {w : Wait α} {k : α → State → Host.Outcome State Fault Refusal}
    (hw : w.Ends (Sends s)) (hk : ∀ v u, Sends s u → SendsNext s (k v u)) : SendsNext s (w.finish k) := by
  cases w with
  | complete v u => exact hk v u hw
  | suspended u => exact .next hw
  | timeout i u => exact .next (Sends.recovery hw i)

/-- An operation of ENG that is one update. -/
theorem update_sends {s : State} {update : State → State} (h : Sends s (update s)) :
    SendsNext s (engineOnly s fun s => .next (update s)) := engineOnly_sends (.next h)

/-- An operation of ENG that may raise an error. -/
theorem result_sends {α : Type} {s : State} {op : State → Res α} {k : α → State → State} (h : (op s).Ends (Sends s))
    (hk : ∀ v u, Sends s u → Sends s (k v u)) : SendsNext s (engineOnly s fun s => (op s).finish k) :=
  engineOnly_sends (Res.finish_sends h hk)

/-- A builder or a frame that is run on its own. -/
theorem builder_sends {s : State} {build : State → Res Unit} (h : (build s).Ends (Pushed s)) :
    SendsNext s (engineOnly s fun s => (build s).finish fun _ s => s) :=
  result_sends (h.imp fun _ hp => hp.sends) fun _ _ hu => hu

/-- An operation of ENG that waits. -/
theorem wait_sends {α : Type} {s : State} {wait : State → Wait α} {k : α → State → State}
    (h : (wait s).Ends (Sends s)) (hk : ∀ v u, Sends s u → Sends s (k v u)) :
    SendsNext s (engineOnly s fun s => (wait s).finish fun v s => .next (k v s)) :=
  engineOnly_sends (Wait.finish_sends h fun v u hu => .next (hk v u hu))

/-! ### What waits and pops leave: the outbound queue and the logs -/

theorem nextByte_sends (s : State) : (nextByte s).Ends (Sends s) := by
  obtain ⟨d, ⟨b, rest, -, e⟩ | e | ⟨-, e⟩⟩ := nextByte_cases s <;> rw [e] <;> exact Sends.refl s

theorem waitAvailable_sends (n : Nat) (s : State) : (waitAvailable n s).Ends (Sends s) := by
  obtain ⟨d, ⟨-, e⟩ | e | ⟨-, e⟩⟩ := waitAvailable_cases n s <;> rw [e] <;> exact Sends.refl s

theorem startSequence_sends (pat : List Byte) (s : State) : Sends s (startSequence pat s) := by
  unfold startSequence
  split <;> exact Sends.refl s

theorem waitSequence_sends (pat : List Byte) (s : State) : (waitSequence pat s).Ends (Sends s) := by
  obtain ⟨d, ⟨b, rest, i, n, -, -, ⟨-, e⟩ | ⟨-, e⟩⟩ | e | ⟨-, e⟩⟩ := waitSequence_cases pat s _ rfl <;> rw [e] <;>
    exact startSequence_sends pat s

theorem readByte_sends (s : State) : (readByte s).Ends (Sends s) := by
  unfold readByte
  split <;> exact Sends.refl s

theorem readWord_sends (s : State) : (readWord s).Ends (Sends s) := by
  unfold readWord
  split <;> exact Sends.refl s

theorem readFields_sends {s u : State} (h : Sends s u) : (readFields u).Ends (Sends s) := by
  rcases readFields_cases u with ⟨_, _, _, _, _, _, _, _, _, rest, -, e⟩ | ⟨-, i, rest, -, e⟩ <;> rw [e] <;> exact h

theorem execDspReadFixed9_sends (s : State) : SendsNext s (execDspReadFixed9 s) :=
  engineOnly_sends (Wait.finish_sends (waitAvailable_sends s.cfg.fixedLen s) fun _ _ hu =>
    Res.finish_sends (readFields_sends hu) fun _ _ hv => hv)

/-! ### The ReadOperation -/

/-- R84, R85: the round's frame goes out with what was queued before it. -/
theorem roRound_sends (s : State) : (roRound s).Ends (Sends s) :=
  (frameFast_ends _ _ s).andThen (fun _ h => h.sends) fun _ u h => h.queues.trans_sends (flush_sends u)

theorem roExit_sends (s : State) : (roExit s).Ends (Sends s) :=
  (frameExit_ends s).andThen (fun _ h => h.sends) fun _ _ h => h.sends

theorem takeEcho_sends (blk : DataBlock) (e : Byte) {s u : State} (h : Sends s u) : Sends s (takeEcho blk e u) := by
  unfold takeEcho
  split <;> exact h

theorem execRoRound_sends (s : State) : SendsNext s (execRoRound s) := by
  refine engineOnly_sends ?_
  split
  · exact Res.finish_sends (roRound_sends s) fun _ _ h => h
  · exact .fault s _

theorem execRoEcho_sends (s : State) : SendsNext s (execRoEcho s) := by
  refine engineOnly_sends ?_
  split
  · exact Wait.finish_sends (nextByte_sends s) fun e _ h => .next (takeEcho_sends _ e h)
  · exact .fault s _

theorem execRoEndround_sends (s : State) : SendsNext s (execRoEndround s) := by
  refine engineOnly_sends ?_
  split
  · exact .next (.refl s)
  · exact .fault s _

theorem execRoExit_sends (s : State) : SendsNext s (execRoExit s) := by
  refine engineOnly_sends ?_
  split
  · exact Res.finish_sends (roExit_sends s) fun _ _ h => h
  · exact .fault s _

theorem execDspRespond_sends (s : State) : SendsNext s (execDspRespond s) := by
  refine engineOnly_sends ?_
  split_ifs
  · exact .next (.refl s)
  · exact execRoRound_sends s
  · exact execRoEcho_sends s
  · exact execRoEndround_sends s
  · exact Res.finish_sends (roExit_sends s) fun _ _ h => h

/-! ### DISPATCH and the arriving frames -/

/-- R101 to R105: the opcode-keyed action writes nothing to the transport, whether or not it raises an error. -/
theorem Res.Meets.queues {r : Res Unit} {s : State} (h : r.Meets (Dispatched s) (DispatchRaised s)) :
    r.Ends (Queues s) := by
  cases r with
  | ok v t =>
    cases h with
    | queued bs => exact Pushed.queues ⟨bs, rfl⟩
    | logged e => exact emit_queues e s
    | started base blks hb => exact Queues.refl s
  | raised c i t =>
    obtain ⟨-, hp | ⟨b, rfl⟩⟩ := h
    · exact hp.queues
    · exact Queues.refl s

theorem dispatchCommand_sends {s u : State} (h : Queues s u) (c : Command) : SendsNext s (dispatchCommand c u) :=
  Res.finish_sends ((dispatchAction_meets c u).queues.imp fun _ hu => h.trans_sends hu.sends) fun _ _ hv => hv

theorem frameArrives_sends (c : Command) (s : State) : SendsNext s (frameArrives c s) := by
  unfold frameArrives
  rcases append_cases (frameBytes s.cfg c) s with e | e <;> rw [e]
  · dsimp only
    split
    · refine dispatchCommand_sends ?_ c
      exact emit_queues _ s
    · exact .next (.refl s)
  · exact .next ((Sends.refl s).takeError _ _)

/-! ### Every instruction and every step -/

/-- R38 items 3 and 4: what any instruction may do to the outbound queue and the logs. -/
theorem exec_sends (i : Instr) (s : State) : SendsNext s (exec i s) := by
  cases i with
  | iqAppend bs =>
    refine Res.finish_sends ?_ fun _ _ h => h
    rcases append_cases bs s with e | e <;> rw [e] <;> exact Sends.refl s
  | iqNextbyte => exact wait_sends (nextByte_sends s) fun _ _ h => h
  | iqWaitseq p0 ps => exact wait_sends (waitSequence_sends (p0 :: ps) s) fun _ _ h => h
  | iqWaitavail n => exact wait_sends (waitAvailable_sends n s) fun _ _ h => h
  | iqReadbyte => exact result_sends (readByte_sends s) fun _ _ h => h
  | iqReadword => exact result_sends (readWord_sends s) fun _ _ h => h
  | iqClear => exact update_sends (.refl s)
  | iqDlreset => exact update_sends (.refl s)
  | clkTick => exact .next (.refl s)
  | oqHeader => exact builder_sends (outPush_ends _ s)
  | oqByte v => exact builder_sends (outPush_ends _ s)
  | oqWord v => exact builder_sends (outPush_ends _ s)
  | oqRaw bs => exact builder_sends (outPush_ends bs s)
  | oqBlock p => exact builder_sends (addBlock_ends p s)
  | oqTakeall =>
    exact update_sends (update := fun s => withRet (.bytes (takeAll s).1) (takeAll s).2)
      (.of_emptied rfl rfl List.prefix_rfl)
  | dbMarker p => exact result_sends ((findMarker_ends p s).imp fun _ h => h ▸ Sends.refl s) fun _ _ h => h
  | dbConstruct p => exact result_sends ((construct_ends p s).imp fun _ h => h ▸ Sends.refl s) fun _ _ h => h
  | cmdDecode bc de hl f a cmd => exact update_sends (.refl s)
  | cmdHigh x => exact update_sends (.refl s)
  | cmdLow x => exact update_sends (.refl s)
  | cmdClassify cmd => exact update_sends (.refl s)
  | roConstruct base data =>
    exact result_sends ((roConstruct_meets base data s).queues.imp fun _ h => h.sends) fun _ _ h => h
  | roRound => exact execRoRound_sends s
  | roEcho => exact execRoEcho_sends s
  | roEndround => exact execRoEndround_sends s
  | roExit => exact execRoExit_sends s
  | dspWaitSync => exact wait_sends (waitSequence_sends s.cfg.sync s) fun _ _ h => h
  | dspReadFixed9 => exact execDspReadFixed9_sends s
  | dspDecode => exact update_sends (emit_queues _ s).sends
  | dspDispatch => exact engineOnly_sends (dispatchCommand_sends (.refl s) s.command)
  | dspRespond => exact execDspRespond_sends s
  | dspFlush => exact update_sends (update := fun s => enterWaitSync (flush s)) (flush_sends s)
  | inDskioRead bc de hl f a => exact frameArrives_sends _ s
  | inDskioWrite bc de hl f a => exact frameArrives_sends _ s
  | inCmdrequest bc de hl f a => exact frameArrives_sends _ s
  | inKnownOther bc de hl f a cmd => exact frameArrives_sends _ s
  | inUnknown bc de hl f a cmd => exact frameArrives_sends _ s
  | outFasttransfer e p0 ps => exact builder_sends (frameFast_ends e (p0 :: ps) s)
  | outSlowtransfer d p => exact builder_sends (frameSlow_ends d p s)
  | outExit => exact builder_sends (frameExit_ends s)
  | outFixedReply bs => exact builder_sends (frameReply_ends bs s)

theorem linkLost_sends (s : State) : Sends s (linkLost s) := by
  unfold linkLost
  split
  · exact .refl s
  · exact (Sends.refl s).takeError .transportLost .none

/-- Settles O54: taking the agenda entry leaves the queue and the logs, and every event but a reset may do no more than
`Sends` says. -/
theorem transportWritesKeepTheOrder : Obligations.TransportWritesKeepTheOrder := by
  unfold Obligations.TransportWritesKeepTheOrder
  intro s t hr hs
  rcases step_cases hs with ⟨hr', -⟩ | ⟨-, -, rfl⟩ | ⟨-, -, ⟨i, -, he⟩ | ⟨-, rfl⟩⟩
  · simp [hr] at hr'
  · exact linkLost_sends (dropOffer s)
  · exact exec_sends i (dropOffer s) t he
  · exact Sends.refl s

end Sys2Proof.Machine
end

section
/-! SUPPORT. The inbound queue as a FIFO (20_memory.md R38 items 1, 2 and 5, 00_scope.md R3): what each action of ENG makes
of `inq`, and what FEED's append does. -/

namespace Sys2Proof.Machine

/-! ### ENG's actions take bytes from the head of `inq`, or clear it -/

theorem startSequence_inq (pat : List Byte) (s : State) : (startSequence pat s).inq = s.inq := by
  unfold startSequence
  split <;> rfl

theorem Pushed.inq_eq {s t : State} (h : Pushed s t) : t.inq = s.inq := by
  obtain ⟨bs, rfl⟩ := h
  rfl

theorem Dispatched.inq_eq {s t : State} (h : Dispatched s t) : t.inq = s.inq := by cases h <;> rfl

theorem DispatchRaised.inq_eq {s t : State} {c : ErrCode} (h : DispatchRaised s c t) : t.inq = s.inq := by
  obtain ⟨-, hp | ⟨b, rfl⟩⟩ := h
  · exact hp.inq_eq
  · rfl

theorem dspWaitSync_inq {s t : State} (hf : s.fsm ≠ .halted) (he : exec .dspWaitSync s = .next t) : t.inq <:+ s.inq := by
  obtain ⟨_, rfl, d, ⟨b, rest, i, n, hi, -, ⟨-, rfl⟩ | ⟨-, rfl⟩⟩ | rfl | ⟨-, rfl⟩⟩ := dspWaitSync_cases hf he
  · simp [hi]
  · simp [hi]
  · simp
  · simp [startSequence_inq]

theorem dspReadFixed9_inq {s t : State} (hf : s.fsm ≠ .halted) (he : exec .dspReadFixed9 s = .next t) :
    t.inq <:+ s.inq := by
  obtain ⟨d, ⟨c, bs, rest, hi, -, rfl⟩ | ⟨-, -, i, rest, hi, rfl⟩ | rfl | ⟨-, rfl⟩⟩ := dspReadFixed9_cases hf he
  · simp [hi]
  · exact hi
  · simp
  · exact List.suffix_rfl

theorem dspDispatch_inq {s t : State} (hf : s.fsm ≠ .halted) (he : exec .dspDispatch s = .next t) : t.inq = s.inq := by
  rcases dspDispatch_cases hf he with ⟨s1, -, hd, rfl⟩ | ⟨c, i, s1, -, hd, rfl⟩
  · exact hd.inq_eq
  · exact hd.inq_eq

theorem roRound_inq {s t : State} (hf : s.fsm ≠ .halted) (he : exec .roRound s = .next t) : t.inq = s.inq := by
  obtain ⟨-, -, ⟨-, bs, rfl⟩ | ⟨c, i, s1, -, hp, rfl⟩⟩ := roRound_cases hf he
  · simp
  · exact hp.inq_eq

theorem roEcho_inq {s t : State} (hf : s.fsm ≠ .halted) (he : exec .roEcho s = .next t) : t.inq <:+ s.inq := by
  obtain ⟨-, blk, -, d, ⟨e, rest, hi, rfl⟩ | rfl | ⟨-, rfl⟩⟩ := roEcho_cases hf he
  · simp [hi]
  · simp
  · exact List.suffix_rfl

theorem dspRespond_inq {s t : State} (hf : s.fsm ≠ .halted) (he : exec .dspRespond s = .next t) : t.inq <:+ s.inq := by
  rcases dspRespond_cases hf he with ⟨-, rfl⟩ | ⟨-, -, hr⟩ | ⟨-, -, hr⟩ | ⟨-, -, rfl⟩ | ⟨-, -, ⟨bs, rfl⟩ | ⟨i, s1, hp, rfl⟩⟩
  · exact List.suffix_rfl
  · exact (roRound_inq hf hr).symm ▸ List.suffix_rfl
  · exact roEcho_inq hf hr
  · exact List.suffix_rfl
  · exact List.suffix_rfl
  · exact hp.inq_eq ▸ List.suffix_rfl

theorem engineMoves_of_move {s : State} (hr : (currentOffer s).reset = false) (hl : (currentOffer s).linkLost = false)
    (hm : (currentOffer s).move = .eng) : s.engineMoves := by
  unfold State.engineMoves
  cases h : currentOffer s with
  | mk r l m => simp_all

/-- R38 items 1 and 5: a move of ENG takes bytes from the head of `inq` or clears it. -/
theorem engine_takes_from_head {s t : State} (hm : s.engineMoves) (hs : step s = .next t) : t.inq <:+ s.inq := by
  obtain ⟨_, rfl, ⟨hf, he⟩ | ⟨hf, he⟩ | ⟨hf, he⟩ | ⟨hf, he⟩ | ⟨hf, he⟩ | ⟨hf, he⟩ | ⟨-, rfl⟩⟩ := engine_cases hm hs
  · exact dspWaitSync_inq (s := dropOffer s) (by simp [hf]) he
  · exact dspReadFixed9_inq (s := dropOffer s) (by simp [hf]) he
  · obtain rfl := dspDecode_cases (by simp [hf]) he
    exact List.suffix_rfl
  · exact dspDispatch_inq (s := dropOffer s) (by simp [hf]) he ▸ List.suffix_rfl
  · exact dspRespond_inq (s := dropOffer s) (by simp [hf]) he
  · obtain rfl := dspFlush_cases (by simp [hf]) he
    simp
  · exact List.suffix_rfl

/-! ### FEED appends at the tail -/

/-- R61: the whole batch at the tail, or `QueueOverflow` with `inq` as it was. -/
theorem iqAppend_inq {s t : State} {bs : List Byte} (he : exec (.iqAppend bs) s = .next t) :
    t.inq = s.inq ++ bs ∨ (t.inq = s.inq ∧ t.fault = .queueOverflow) := by
  simp only [exec, execIqAppend] at he
  rcases append_cases bs s with e | e <;> rw [e] at he <;> cases he
  · exact .inl rfl
  · exact .inr ⟨rfl, rfl⟩

/-- With neither input raised, the step runs the instruction of the move offered. -/
theorem exec_of_step {s t : State} {m : Move} {i : Instr} (hr : (currentOffer s).reset = false)
    (hl : (currentOffer s).linkLost = false) (hm : (currentOffer s).move = m)
    (hi : moveInstr (dropOffer s) m = .ok (some i)) (hs : step s = .next t) : exec i (dropOffer s) = .next t := by
  simpa [step, hr, hl, hm, hi] using hs

/-- Settles O55: ENG's move is the action of its `fsm`, CLK's is the tick, FEED's is the append. -/
theorem inboundQueueIsFifo : Obligations.InboundQueueIsFifo := by
  unfold Obligations.InboundQueueIsFifo
  intro s t hr hl hs
  refine ⟨fun hm => ?eng, fun hm => ?clk, fun bs hm => ?feed⟩
  case eng => exact engine_takes_from_head (engineMoves_of_move hr hl hm) hs
  case clk =>
    cases exec_of_step hr hl hm rfl hs
    rfl
  case feed => exact iqAppend_inq (s := dropOffer s) (exec_of_step hr hl hm rfl hs)

end Sys2Proof.Machine
end

section
/-! SUPPORT. The decoder reads back what the encoder wrote (30_encoding.md R44 to R53, R58), for every row of the table. -/

namespace Sys2Proof

/-! ### Operands of micro-operations -/

@[simp] theorem takeByte_cons (b : Byte) (r : List Byte) : takeByte (b :: r) = .ok (b, r) := rfl

theorem takeNat_natBytes (n : Nat) (r : List Byte) : takeNat (natBytes n ++ r) = .ok (n, r) := by
  rw [takeNat, natBytes, takeList_listBytes, Read.as_ok, ofDigits_digits n n le_rfl]

theorem takeCommand_fieldBytes (c : Command) (r : List Byte) : takeCommand (fieldBytes c ++ r) = .ok (c, r) := by
  simp [takeCommand, fieldBytes]

/-- R58: one code for each micro-operation, its operands after it. -/
theorem decodeUop_encode (cfg : Config) {i : Instr} (hi : i.format = .uop) (r : List Byte) :
    decodeUop (encode cfg i ++ r) = .ok (i, r) := by
  cases i with
  | iqNextbyte | iqReadbyte | iqReadword | iqClear | iqDlreset | clkTick | oqHeader | oqTakeall | roRound | roEcho
  | roEndround | roExit | dspWaitSync | dspReadFixed9 | dspDecode | dspDispatch | dspRespond | dspFlush => rfl
  | oqByte v | cmdClassify v => rfl
  | oqWord w | cmdHigh w | cmdLow w => simp [encode, decodeUop, decodeCode]
  | iqAppend bs | oqRaw bs | oqBlock bs | dbMarker bs | dbConstruct bs =>
    simp [encode, decodeUop, decodeCode, takeList_listBytes]
  | iqWaitseq p0 ps => simp [encode, decodeUop, decodeCode, takeList_listBytes]
  | roConstruct base data => simp [encode, decodeUop, decodeCode, takeList_listBytes]
  | iqWaitavail n => simp [encode, decodeUop, decodeCode, takeNat_natBytes]
  | cmdDecode bc de hl f a cmd => simp [encode, decodeUop, decodeCode, takeCommand_fieldBytes]
  | inDskioRead | inDskioWrite | inCmdrequest | inKnownOther | inUnknown | outFasttransfer | outSlowtransfer | outExit
  | outFixedReply => cases hi

/-! ### Inbound frames -/

theorem classify_dskio (cfg : Config) : classify cfg cfg.opDskio = .dskio := by simp [classify]

theorem classify_known {cfg : Config} {cmd : Byte} (hd : cmd ≠ cfg.opDskio) (hk : cmd ∈ cfg.knownOpcodes) :
    classify cfg cmd = .known := by simp [classify, hd, hk]

theorem classify_unknown {cfg : Config} {cmd : Byte} (hd : cmd ≠ cfg.opDskio) (hk : cmd ∉ cfg.knownOpcodes) :
    classify cfg cmd = .unknown := by simp [classify, hd, hk]

/-- A frame that meets its row's condition (R55) is read as that row's. -/
theorem decodeInbound_encode {cfg : Config} (hw : cfg.wf = true) {i : Instr} (hi : i.format = .inbound)
    (hwf : i.wf cfg = true) (r : List Byte) : decodeInbound cfg (encode cfg i ++ r) = .ok (i, r) := by
  obtain ⟨-, -, -, -, -, hknown, hne, -⟩ := Config.wf_parts hw
  cases i with
  | inDskioRead bc de hl f a =>
    have hf : writeFlag f = false := by simpa [Instr.wf] using hwf
    simp [encode, decodeInbound_frame, frameInstr, classify_dskio, hf]
  | inDskioWrite bc de hl f a =>
    have hf : writeFlag f = true := hwf
    simp [encode, decodeInbound_frame, frameInstr, classify_dskio, hf]
  | inCmdrequest bc de hl f a =>
    simp [encode, decodeInbound_frame, frameInstr, classify_known hne.symm hknown]
  | inKnownOther bc de hl f a cmd =>
    have ⟨hc, hn⟩ : classify cfg cmd = .known ∧ cmd ≠ cfg.opCmdrequest := by simpa [Instr.wf] using hwf
    simp [encode, decodeInbound_frame, frameInstr, hc, hn]
  | inUnknown bc de hl f a cmd =>
    have hc : classify cfg cmd = .unknown := by simpa [Instr.wf] using hwf
    simp [encode, decodeInbound_frame, frameInstr, hc]
  | _ => cases hi

/-! ### Outbound frames -/

theorem decodeOutbound_fast (cfg : Config) (r : List Byte) :
    decodeOutbound cfg (cfg.header ++ cfg.codeFast :: r) = decodeFast cfg r := by
  simp [decodeOutbound, stripPrefix_self]

theorem decodeOutbound_slow {cfg : Config} (hw : cfg.wf = true) (r : List Byte) :
    decodeOutbound cfg (cfg.header ++ cfg.codeSlow :: r) = decodeSlow cfg r := by
  obtain ⟨-, -, -, -, -, -, -, hfs, -, -⟩ := Config.wf_parts hw
  simp [decodeOutbound, stripPrefix_self, hfs.symm]

theorem decodeOutbound_exit {cfg : Config} (hw : cfg.wf = true) (r : List Byte) :
    decodeOutbound cfg (cfg.header ++ cfg.codeExit :: r) = .ok (.outExit, r) := by
  obtain ⟨-, -, -, -, -, -, -, -, hfe, hse⟩ := Config.wf_parts hw
  simp [decodeOutbound, stripPrefix_self, hfe.symm, hse.symm]

/-- Bytes that begin with no response code are all of a fixed reply (R53). -/
theorem decodeOutbound_reply {cfg : Config} {bs : List Byte} (h : replyReadable cfg bs = true) :
    decodeOutbound cfg (replyFrame cfg bs) = .ok (.outFixedReply bs, []) := by
  rw [decodeOutbound, replyFrame, stripPrefix_self]
  cases bs with
  | nil => rfl
  | cons b bs =>
    have ⟨hf, hs, he⟩ : b ≠ cfg.codeFast ∧ b ≠ cfg.codeSlow ∧ b ≠ cfg.codeExit := by
      simpa [replyReadable, isResponseCode, and_assoc] using h
    simp [hf, hs, he]

/-- R48: the block count, 1 to 255, is the number of blocks that follow. -/
theorem decodeFast_blocks {cfg : Config} (hw : cfg.wf = true) (e : Word) {p : List Byte} {ps : List (List Byte)}
    (hn : ps.length < 255) (hp : ∀ q ∈ p :: ps, legalPayload cfg q = true) (r : List Byte) :
    decodeFast cfg (bytes16 e ++ BitVec.ofNat 8 (ps.length + 1) :: (blocksBytes (p :: ps) ++ r))
      = .ok (.outFasttransfer e p ps, r) := by
  have hcount : (BitVec.ofNat 8 (ps.length + 1)).toNat = ps.length + 1 := by rw [BitVec.toNat_ofNat]; omega
  obtain ⟨hp0, hps⟩ := List.forall_mem_cons.1 hp
  simp [decodeFast, hcount, blocksBytes, takeBlock_self hw hp0, takeBlocks_self hw ps r hps]

/-- R49: the length field is the length of the one block's payload. -/
theorem decodeSlow_block {cfg : Config} (hw : cfg.wf = true) (d : Word) {p : List Byte}
    (hp : legalPayload cfg p = true) (hc : p.length < cfg.chunkSize) (hl : p.length < 65536) (r : List Byte) :
    decodeSlow cfg (bytes16 d ++ (bytes16 (BitVec.ofNat 16 p.length) ++ (blockBytes p ++ r)))
      = .ok (.outSlowtransfer d p, r) := by
  have hlen : (BitVec.ofNat 16 p.length).toNat = p.length := by rw [BitVec.toNat_ofNat]; omega
  simp only [decodeSlow, takeWord_bytes16, Read.andThen_ok, takeBlock_self hw hp, hlen]
  simp [hc]

/-- R46 to R53; a fixed reply is read back only where nothing follows it. -/
theorem decodeOutbound_encode {cfg : Config} (hw : cfg.wf = true) {i : Instr} (hi : i.format = .outbound)
    (hwf : i.wf cfg = true) {r : List Byte} (hr : (∃ bs, i = .outFixedReply bs) → r = []) :
    decodeOutbound cfg (encode cfg i ++ r) = .ok (i, r) := by
  cases i with
  | outFasttransfer e p ps =>
    have ⟨hn, hp⟩ : ps.length < 255 ∧ ∀ q ∈ p :: ps, legalPayload cfg q = true := by simpa [Instr.wf] using hwf
    simpa [encode, fastFrame, decodeOutbound_fast] using decodeFast_blocks hw e hn hp r
  | outSlowtransfer d p =>
    have ⟨hp, hc, hl⟩ : legalPayload cfg p = true ∧ p.length < cfg.chunkSize ∧ p.length < 65536 := by
      simpa [Instr.wf, and_assoc] using hwf
    simpa [encode, slowFrame, decodeOutbound_slow hw] using decodeSlow_block hw d hp hc hl r
  | outExit => simpa [encode, exitFrame] using decodeOutbound_exit hw r
  | outFixedReply bs =>
    obtain rfl := hr ⟨bs, rfl⟩
    simpa [encode] using decodeOutbound_reply hwf
  | _ => cases hi

/-- Settles O1: each of the three formats has a decoder that reads back its rows. -/
theorem decodeEncodeAgree : Obligations.DecodeEncodeAgree := by
  unfold Obligations.DecodeEncodeAgree
  intro cfg i rest hw hwf hr
  cases hf : i.format with
  | uop => exact decodeUop_encode cfg hf rest
  | inbound => exact decodeInbound_encode hw hf hwf rest
  | outbound => exact decodeOutbound_encode hw hf hwf hr

/-- Settles O2: the decoder run on each word. -/
theorem wordsDecodeAsTheSpecHasThem : Obligations.WordsDecodeAsTheSpecHasThem := by
  unfold Obligations.WordsDecodeAsTheSpecHasThem
  exact ⟨rfl, rfl, rfl, rfl, rfl, rfl, rfl, rfl⟩

end Sys2Proof
end

section
/-! SUPPORT. What the rows of 30_encoding.md do: the class of a CMD byte (R55), an inbound frame as `DISPATCH` (R44), an
outbound frame as the bytes it queues (R48 to R51). -/

namespace Sys2Proof.Machine

theorem exec_cmdClassify {s : State} (hf : s.fsm ≠ .halted) (cmd : Byte) :
    exec (.cmdClassify cmd) s = .next { s with ret := .cls (classify s.cfg cmd) } := by
  simp [exec, execCmdClassify, hf, withRet]

/-- Settles O24: the class returned is `classify`'s, in each of its three cases. -/
theorem classifyByOpcodeTable : Obligations.ClassifyByOpcodeTable := by
  unfold Obligations.ClassifyByOpcodeTable
  intro cmd s hf
  rw [exec_cmdClassify hf]
  refine ⟨fun hd => ?dskio, fun hd hk => ?known, fun hd hk => ?unknown⟩
  case dskio => rw [hd, classify_dskio]
  case known => rw [classify_known hd hk]
  case unknown => rw [classify_unknown hd hk]

/-! ### Inbound frames -/

/-- The nine field bytes determine the Command (R44). -/
theorem fieldBytes_injective : Function.Injective fieldBytes := by
  intro c d h
  have hread : takeCommand (fieldBytes c ++ []) = takeCommand (fieldBytes d ++ []) := by rw [h]
  simpa only [takeCommand_fieldBytes, Except.ok.injEq, Prod.mk.injEq, and_true] using hread

theorem exec_of_encode_eq_frameBytes {s : State} {i : Instr} {c : Command} (hi : i.format = .inbound)
    (he : encode s.cfg i = frameBytes s.cfg c) : exec i s = frameArrives c s := by
  obtain ⟨c', he', hx⟩ := exec_inbound hi s
  obtain rfl : c = c' := fieldBytes_injective (List.append_cancel_left (he.symm.trans he'))
  exact hx

/-- Settles O44: the row's frame arrives; one that fits is taken and dispatched, one that does not overflows. -/
theorem inboundFrameIsDispatched : Obligations.InboundFrameIsDispatched := by
  unfold Obligations.InboundFrameIsDispatched
  intro s i c hi he
  rw [exec_of_encode_eq_frameBytes hi he]
  refine ⟨fun hr hroom => ?taken, fun hfull => frameArrives_full hfull⟩
  case taken =>
    have hempty : s.inq = [] := ((readyForFrame_iff s).1 hr).2.1
    rw [frameArrives_taken hr hroom, exec_dspDispatch (by simp)]
    simp [decodeAction, frameTaken, goto, emit, writeCommand, deadlineReset, hempty]

/-! ### Outbound frames -/

/-- A row's instruction queues the whole frame, or, where there is no room for it, overflows (R70, R112). -/
def QueuesFrame (s : State) (i : Instr) (frame : List Byte) : Prop :=
  (s.outRoom frame.length → exec i s = .next { s with outq := s.outq ++ frame }) ∧
  (¬ s.outRoom frame.length → ∃ t, exec i s = .next t ∧ s.outOverflowed frame t)

/-- A row whose builder pushes its frame queues it. -/
theorem Res.PushesAll.queuesFrame {s : State} {i : Instr} {frame : List Byte} {r : Res Unit}
    (h : r.PushesAll frame s) (hx : exec i s = r.finish fun _ t => t) : QueuesFrame s i frame := by
  refine ⟨fun hroom => ?_, fun hfull => ?_⟩
  · rw [hx, h.room hroom]
    rfl
  · rw [hx]
    exact h.full hfull _

section
variable {s : State} (hf : s.fsm ≠ .halted)
include hf

theorem exec_outExit : exec .outExit s = (frameExit s).finish fun _ t => t := by
  simp [exec, execOutExit, hf]

theorem exec_outFixedReply (bs : List Byte) : exec (.outFixedReply bs) s = (frameReply bs s).finish fun _ t => t := by
  simp [exec, execOutFixedReply, hf]

theorem exec_outSlowtransfer (d : Word) (p : List Byte) :
    exec (.outSlowtransfer d p) s = (frameSlow d p s).finish fun _ t => t := by
  simp [exec, execOutSlowtransfer, hf]

theorem exec_outFasttransfer (e : Word) (p : List Byte) (ps : List (List Byte)) :
    exec (.outFasttransfer e p ps) s = (frameFast e (p :: ps) s).finish fun _ t => t := by
  simp [exec, execOutFasttransfer, hf]

/-- More blocks than the count field holds (R92). -/
theorem exec_outFasttransfer_overflow (e : Word) (p : List Byte) {ps : List (List Byte)} (hn : 255 ≤ ps.length) :
    exec (.outFasttransfer e p ps) s = .next (fatal .fieldOverflow (.blockCount (ps.length + 1)) s) := by
  have hmany : (p :: ps).length > 255 := Nat.lt_succ_of_le hn
  rw [exec_outFasttransfer hf, frameFast, if_pos hmany, Res.finish_raised, takeError_fatal (by decide), List.length_cons]

end

/-- Settles O48: each row's builder pushes its frame; the FAST builder refuses more blocks than its count field holds. -/
theorem outboundRowsQueueTheirFrames : Obligations.OutboundRowsQueueTheirFrames := by
  unfold Obligations.OutboundRowsQueueTheirFrames
  intro s hf
  refine ⟨fun i frame hrow => ?queued, fun e p ps hn => exec_outFasttransfer_overflow hf e p hn⟩
  case queued =>
    change QueuesFrame s i frame
    obtain ⟨rfl, rfl⟩ | ⟨bs, rfl, rfl⟩ | ⟨d, b, hb, rfl, rfl⟩ | ⟨e, b, bs, hb, hn, rfl, rfl⟩ := hrow
    · exact (frameExit_all s).queuesFrame (exec_outExit hf)
    · exact (frameReply_all bs s).queuesFrame (exec_outFixedReply hf bs)
    · have hbracket : bracketed [b] = [b.marker] ++ b.payload ++ [b.marker] := by simp [bracketed]
      rw [hbracket]
      exact (frameSlow_all hb).queuesFrame (exec_outSlowtransfer hf d b.payload)
    · have hcount : (b :: bs).length ≤ 255 := hn
      exact (frameFast_all hb hcount).queuesFrame (exec_outFasttransfer hf e b.payload (bs.map DataBlock.payload))

end Sys2Proof.Machine
end

section
/-! SUPPORT. The operations of 40_inbound_queue.md run on their own (R60 to R69), and an inbound frame that only waits in
the queue. -/

namespace Sys2Proof.Machine

/-! ### Append, tick, deadline reset, clear -/

/-- Settles O7: a batch that fits is placed, one that does not is the fatal overflow. -/
theorem appendPlacesTheWholeBatch : Obligations.AppendPlacesTheWholeBatch := by
  unfold Obligations.AppendPlacesTheWholeBatch
  exact fun bs s => ⟨fun _ => rfl, exec_iqAppend_room, fun _ hfull => exec_iqAppend_full hfull⟩

theorem exec_clkTick (s : State) : exec .clkTick s = .next { s with dlElapsed := s.dlElapsed + 1 } := rfl

section
variable {s : State} (hf : s.fsm ≠ .halted)
include hf

theorem exec_iqDlreset : exec .iqDlreset s = .next { s with dlElapsed := 0 } := by
  simp [exec, execIqDlreset, hf, deadlineReset]

theorem exec_iqClear : exec .iqClear s = .next { s with inq := [] } := by
  simp [exec, execIqClear, hf, clear]

end

/-- Settles O8: a tick acts in every state, the deadline reset where ENG runs. -/
theorem tickAndDeadlineReset : Obligations.TickAndDeadlineReset := by
  unfold Obligations.TickAndDeadlineReset
  exact fun cfg s => ⟨rfl, rfl, exec_clkTick s, exec_iqDlreset⟩

/-- Settles O13: where ENG runs, the one update of the operation is that of `inq`. -/
theorem clearDiscardsInbound : Obligations.ClearDiscardsInbound := by
  unfold Obligations.ClearDiscardsInbound
  exact fun cfg s => ⟨rfl, exec_iqClear⟩

/-! ### The pops -/

section
variable {s : State} (hf : s.fsm ≠ .halted)
include hf

theorem exec_iqReadbyte : exec .iqReadbyte s = (readByte s).finish fun b t => withRet (.byte b) t := by
  simp [exec, execIqReadbyte, hf]

theorem exec_iqReadword : exec .iqReadword s = (readWord s).finish fun w t => withRet (.word w) t := by
  simp [exec, execIqReadword, hf]

end

theorem readByte_cons {s : State} {b : Byte} {rest : List Byte} (hi : s.inq = b :: rest) :
    readByte s = .ok b { s with inq := rest } := by
  simp [readByte, hi]

theorem readByte_underflow {s : State} (hi : s.inq = []) :
    readByte s = .raised .readUnderflow (.pop .readByte 0) s := by
  simp [readByte, hi]

theorem readWord_cons {s : State} {lo hi : Byte} {rest : List Byte} (hq : s.inq = lo :: hi :: rest) :
    readWord s = .ok (le16 lo hi) { s with inq := rest } := by
  simp [readWord, hq]

theorem readWord_underflow {s : State} (hlen : s.inq.length < 2) :
    readWord s = .raised .readUnderflow (.pop .readWord s.inq.length) s := by
  unfold readWord
  split
  next hq => simp [hq] at hlen
  next => rfl

/-- Settles O12: each pop gives the head of the queue, or raises `ReadUnderflow`, which is fatal. -/
theorem readByteAndWordPop : Obligations.ReadByteAndWordPop := by
  unfold Obligations.ReadByteAndWordPop
  intro s hf
  rw [exec_iqReadbyte hf, exec_iqReadword hf]
  refine ⟨fun b rest hi => ?byte, fun hi => ?noByte, fun lo hi rest w hq hw => ?word, fun hlen => ?noWord⟩
  case byte => rw [readByte_cons hi]; rfl
  case noByte => rw [readByte_underflow hi]; rfl
  case word =>
    obtain rfl : w = le16 lo hi := BitVec.eq_of_toNat_eq (hw.trans (le16_toNat lo hi).symm)
    rw [readWord_cons hq]; rfl
  case noWord => rw [readWord_underflow hlen]; rfl

/-! ### The waits (R60) -/

/-- The wait for `pat` is in progress at index `i`, with `d` bytes discarded (R65). -/
def sequenceAt (pat : List Byte) (i d : Nat) (s : State) : State := { s with syncI := i, syncDiscard := d, seq := some pat }

theorem startSequence_eq_sequenceAt {pat : List Byte} {s : State} {i d : Nat} (h : s.seqAt pat i d) :
    startSequence pat s = sequenceAt pat i d s := startSequence_at h

/-- A wait that is ready with the deadline expired: it goes on, or recovers, with one draw taken (R60, R110). -/
theorem finish_suspend_draw {α : Type} {info : ErrInfo} {p : State → Wait α} {s : State}
    {k : α → State → Host.Outcome State Fault Refusal} (h : s.cfg.timeoutMs ≤ s.dlElapsed * s.cfg.tickMs) :
    (suspend true info p s).finish k = (p { s with draws := s.draws + 1 }).finish k ∨
      (suspend true info p s).finish k = .next (recovery info { s with draws := s.draws + 1 }) :=
  (suspend_draw h).imp (congrArg (Wait.finish · k)) (congrArg (Wait.finish · k))

section
variable {s : State} (hf : s.fsm ≠ .halted)
include hf

theorem exec_iqNextbyte : exec .iqNextbyte s = (suspend (!s.inq.isEmpty) .nextbyte popByte s).finish fun b t =>
    .next (withRet (.byte b) t) := by
  simp [exec, execIqNextbyte, hf, nextByte]

theorem exec_iqWaitavail (n : Nat) : exec (.iqWaitavail n) s =
    (suspend (decide (n ≤ s.inq.length)) (.waitavail s.inq.length n) (fun t => .complete () t) s).finish fun _ t =>
      .next (withRet .completed t) := by
  simp [exec, execIqWaitavail, hf, waitAvailable]

/-- The wait in progress is resumed, any other is started (R65; log entry 8). -/
theorem exec_iqWaitseq {p0 : Byte} {ps : List Byte} {i d : Nat} (hseq : s.seqAt (p0 :: ps) i d) :
    exec (.iqWaitseq p0 ps) s =
      (suspend (!s.inq.isEmpty) (.waitseq d) (matchStep (p0 :: ps)) (sequenceAt (p0 :: ps) i d s)).finish fun n t =>
        .next (withRet (.count n) t) := by
  simp [exec, execIqWaitseq, hf, waitSequence, startSequence_eq_sequenceAt hseq, sequenceAt]

end

theorem inq_ready {s : State} {b : Byte} {rest : List Byte} (hi : s.inq = b :: rest) : (!s.inq.isEmpty) = true := by
  simp [hi]

theorem inq_not_ready {s : State} (hi : s.inq = []) : (!s.inq.isEmpty) = false := by simp [hi]

theorem popByte_cons {s : State} {b : Byte} {rest : List Byte} (hi : s.inq = b :: rest) :
    popByte s = .complete b { s with inq := rest } := by
  simp [popByte, hi]

/-- Settles O9: with a byte there the wait makes progress or is drawn a timeout, with none it holds or times out. -/
theorem nextByteWaitsForAByte : Obligations.NextByteWaitsForAByte := by
  unfold Obligations.NextByteWaitsForAByte
  intro s hf
  rw [exec_iqNextbyte hf]
  refine ⟨fun b rest hi hrun => ?progress, fun b rest hi hexp => ?either, fun hi hexp => ?timeout, fun hi hrun => ?hold⟩
  case progress =>
    rw [inq_ready hi, suspend_progress hrun, popByte_cons hi]
    rfl
  case either =>
    rw [inq_ready hi]
    refine (finish_suspend_draw hexp).imp_left fun e => e.trans ?_
    rw [popByte_cons (s := { s with draws := s.draws + 1 }) hi]
    rfl
  case timeout => rw [inq_not_ready hi, suspend_timeout hexp, Wait.finish_timeout]
  case hold => rw [inq_not_ready hi, suspend_hold hrun, Wait.finish_suspended]

/-- Settles O11: with `n` bytes there the wait completes or is drawn a timeout, with fewer it holds or times out. -/
theorem waitAvailableTestsTheLength : Obligations.WaitAvailableTestsTheLength := by
  unfold Obligations.WaitAvailableTestsTheLength
  intro n s hf
  rw [exec_iqWaitavail hf]
  refine ⟨fun hn hrun => ?complete, fun hn hrun => ?hold, fun hn hexp => ?timeout, fun hn hexp => ?either⟩
  case complete =>
    rw [decide_eq_true hn, suspend_progress hrun]
    rfl
  case hold => rw [decide_eq_false (Nat.not_le.2 hn), suspend_hold hrun, Wait.finish_suspended]
  case timeout => rw [decide_eq_false (Nat.not_le.2 hn), suspend_timeout hexp, Wait.finish_timeout]
  case either =>
    rw [decide_eq_true hn]
    exact finish_suspend_draw hexp

/-- One byte matched, by the wait on its own (R65): the wait ends when the index reaches the end of the pattern. -/
theorem finish_matchStep {pat : List Byte} {b : Byte} {rest : List Byte} {s t : State} {i' d' : Nat}
    (hi : s.inq = b :: rest) (hm : matchByte pat b s.syncI s.syncDiscard = (i', d'))
    (hdone : i' = pat.length → t = { s with inq := rest, syncI := i', syncDiscard := d', seq := none, ret := .count d' })
    (hmore : i' ≠ pat.length → t = { s with inq := rest, syncI := i', syncDiscard := d' }) :
    (matchStep pat s).finish (fun n u => .next (withRet (.count n) u)) = .next t := by
  by_cases hend : i' = pat.length
  · simp [matchStep, hi, hm, hdone hend, hend, withRet]
  · simp [matchStep, hi, hm, hmore hend, hend]

/-- Settles O10: the wait, resumed or started, is a wait for a byte whose progress is R65's match of it. -/
theorem waitSequenceMatchesOneByte : Obligations.WaitSequenceMatchesOneByte := by
  unfold Obligations.WaitSequenceMatchesOneByte
  intro p0 ps s i d hf hseq
  rw [exec_iqWaitseq hf hseq]
  refine ⟨fun b rest i' d' t hi hm hdone hmore => ⟨fun hrun => ?progress, fun hexp => ?either⟩,
    fun hi hrun => ?hold, fun hi hexp => ?timeout⟩
  case progress =>
    rw [inq_ready hi, suspend_progress (s := sequenceAt (p0 :: ps) i d s) hrun]
    exact finish_matchStep hi (matchByte_matchedTo hm) hdone hmore
  case either =>
    rw [inq_ready hi]
    refine (finish_suspend_draw (s := sequenceAt (p0 :: ps) i d s) hexp).imp_left fun hdraw => hdraw.trans ?_
    exact finish_matchStep hi (matchByte_matchedTo hm) (fun hend => by rw [hdone hend]; rfl)
      fun hend => by rw [hmore hend]; rfl
  case hold =>
    rw [inq_not_ready hi, suspend_hold (s := sequenceAt (p0 :: ps) i d s) hrun]
    rfl
  case timeout =>
    rw [inq_not_ready hi, suspend_timeout (s := sequenceAt (p0 :: ps) i d s) hexp]
    rfl

/-! ### Frames that wait -/

/-- A frame that fits while ENG is not ready for it (log entry 11). -/
theorem frameArrives_appended {c : Command} {s : State} (hready : readyForFrame s = false)
    (hroom : s.inRoom (s.cfg.sync.length + 9)) :
    frameArrives c s = .next { s with inq := s.inq ++ frameBytes s.cfg c } := by
  rw [frameArrives, append_room (by rwa [frameBytes_length])]
  simp [hready]

/-- Settles O46: the row's frame arrives, and its bytes are those of the row's encoding. -/
theorem inboundFrameWaitsInTheQueue : Obligations.InboundFrameWaitsInTheQueue := by
  unfold Obligations.InboundFrameWaitsInTheQueue
  intro s i hi hready hroom
  obtain ⟨c, hbytes, hexec⟩ := exec_inbound hi s
  rw [hexec, hbytes, frameArrives_appended hready hroom]

end Sys2Proof.Machine
end

section
/-! SUPPORT. Runs of one mover: CLK's ticks up to the deadline (40_inbound_queue.md R62, 10_state.md R16), and ENG's steps
in `WAIT_SYNC` up to the first `SYNC` of the stream (R65 (c), 95_test_vectors.md V-SRC-3). -/

namespace Sys2Proof.Machine

/-! ### Ticks -/

theorem runSteps_clk (n : Nat) {ag : List Offer} : ∀ {s : State}, s.agenda = List.replicate n clkTurn ++ ag →
    runSteps n s = .next { s with dlElapsed := s.dlElapsed + n, agenda := ag } := by
  induction n with
  | zero => rintro s rfl; rfl
  | succ n ih =>
    intro s ha
    rw [runSteps_succ n ((step_clk ha).trans (exec_clkTick _)), ih rfl]
    simp only [Nat.add_assoc, Nat.add_comm 1 n]

/-- Settles O15: `n` ticks add `n`, which alone reaches the timeout. -/
theorem deadlineExpiresAfterTicks : Obligations.DeadlineExpiresAfterTicks := by
  unfold Obligations.DeadlineExpiresAfterTicks
  intro s n ag ha hn
  refine ⟨runSteps_clk n ha, (expired_iff _).2 ?_⟩
  calc s.cfg.timeoutMs ≤ n * s.cfg.tickMs := hn
    _ ≤ (s.dlElapsed + n) * s.cfg.tickMs := Nat.mul_le_mul_right _ (Nat.le_add_left _ _)

/-! ### The search for `AF 05` -/

/-- How many bytes of `AF 05` the matcher holds at the end of a stream without `AF 05`: the last byte, if it is `AF`. -/
def syncHeld (bs : List Byte) : Nat := if bs.getLast? = some 0xAF#8 then 1 else 0

@[simp] theorem syncHeld_nil : syncHeld [] = 0 := rfl

@[simp] theorem syncHeld_concat (bs : List Byte) (b : Byte) : syncHeld (bs ++ [b]) = if b = 0xAF#8 then 1 else 0 := by
  simp [syncHeld]

theorem syncHeld_cases (bs : List Byte) : syncHeld bs = 0 ∨ syncHeld bs = 1 ∧ ∃ pre, bs = pre ++ [0xAF#8] := by
  rcases List.eq_nil_or_concat bs with rfl | ⟨pre, b, rfl⟩
  · exact .inl rfl
  · by_cases hb : b = 0xAF#8 <;> simp [hb]

theorem syncHeld_ne_two (bs : List Byte) : syncHeld bs ≠ 2 := by
  rcases syncHeld_cases bs with h | ⟨h, -⟩ <;> simp [h]

/-- R65 (c): in a stream without `AF 05` a byte `AF` is held, and any other leaves nothing held. -/
theorem matchByte_noise {bs : List Byte} {b : Byte} (hno : ¬ [0xAF#8, 0x05#8] <:+: bs ++ [b]) :
    matchByte [0xAF#8, 0x05#8] b (syncHeld bs) (bs.length - syncHeld bs)
      = (syncHeld (bs ++ [b]), bs.length + 1 - syncHeld (bs ++ [b])) := by
  rw [syncHeld_concat]
  rcases syncHeld_cases bs with h | ⟨h, pre, rfl⟩ <;> rw [h]
  · by_cases hb : b = 0xAF#8 <;> simp [matchByte, hb, eq_comm]
  · have hne : b ≠ 0x05#8 := by
      rintro rfl
      exact hno ⟨pre, [], by simp⟩
    by_cases hb : b = 0xAF#8 <;> simp [matchByte, hb, hne.symm, eq_comm (b := b)]

/-- A byte that does not complete `SYNC` (44_dispatcher.md R98, R65). -/
theorem exec_dspWaitSync_continues {s : State} {b : Byte} {rest : List Byte} {i d : Nat} (hf : s.fsm ≠ .halted)
    (hq : s.seq = some s.cfg.sync) (he : expired s = false) (hi : s.inq = b :: rest)
    (hm : matchByte s.cfg.sync b s.syncI s.syncDiscard = (i, d)) (hl : i ≠ s.cfg.sync.length) :
    exec .dspWaitSync s = .next { s with inq := rest, syncI := i, syncDiscard := d } := by
  simp [exec, execDspWaitSync, hf, waitSequence, startSequence_started hq, hi,
    suspend_progress ((not_expired_iff s).1 he), matchStep, hm, hl]

/-- ENG, with nothing matched and nothing discarded, takes a stream without `AF 05`, one byte a move. -/
theorem runSteps_takes_noise {s : State} (hf : s.fsm = .waitSync) (hsync : s.cfg.sync = [0xAF#8, 0x05#8])
    (hq : s.seq = some s.cfg.sync) (h0 : s.syncI = 0) (hd : s.syncDiscard = 0) (he : expired s = false)
    (bs : List Byte) : ∀ {rest : List Byte} {ag : List Offer}, ¬ [0xAF#8, 0x05#8] <:+: bs → s.inq = bs ++ rest →
    s.agenda = List.replicate bs.length engTurn ++ ag →
    runSteps bs.length s = .next { s with
      inq := rest, syncI := syncHeld bs, syncDiscard := bs.length - syncHeld bs, agenda := ag } := by
  induction bs using List.reverseRecOn with
  | nil =>
    intro rest ag _ hi ha
    cases s
    simp_all [runSteps]
  | append_singleton bs b ih =>
    intro rest ag hno hi ha
    have hpre : ¬ [0xAF#8, 0x05#8] <:+: bs := fun h => hno (h.trans (List.infix_append' [] bs [b]))
    have hrun := ih (rest := b :: rest) (ag := engTurn :: ag) hpre (by simpa using hi)
      (by simpa [List.replicate_succ'] using ha)
    rw [List.length_append, List.length_singleton, runSteps_add _ 1 hrun, runSteps_one,
      step_eng rfl (i := .dspWaitSync) (by simp [engineInstr, hf])]
    refine exec_dspWaitSync_continues (by simp [hf]) hq he rfl ?_ ?_
    · rw [hsync]
      exact matchByte_noise hno
    · rw [hsync]
      exact syncHeld_ne_two _

/-- Settles O14: all of the stream up to the `05` is free of `AF 05` and ends with the one byte held, which the `05`
completes. -/
theorem syncFoundAtFirstOccurrence : Obligations.SyncFoundAtFirstOccurrence := by
  unfold Obligations.SyncFoundAtFirstOccurrence
  intro s pre rest ag h0 h1 hf hq hi hd hrun hin hno ha
  have hsync : s.cfg.sync = [0xAF#8, 0x05#8] := by rw [Config.sync, h0, h1]
  have he : expired s = false := (not_expired_iff s).2 hrun
  have hnoise := runSteps_takes_noise hf hsync hq hi hd he (pre ++ [0xAF#8])
    (rest := 0x05#8 :: rest) (ag := engTurn :: ag) hno (by simpa using hin) (by simpa [List.replicate_succ'] using ha)
  rw [show pre.length + 2 = (pre ++ [0xAF#8]).length + 1 by simp, runSteps_add _ 1 hnoise, runSteps_one,
    step_eng rfl (i := .dspWaitSync) (by simp [engineInstr, hf])]
  rw [exec_dspWaitSync_completes (b := 0x05#8) (rest := rest) (hf := by simp [hf])]
  case hq => exact hq
  case he => exact he
  case hi => rfl
  all_goals simp [hsync, goto, deadlineReset]

end Sys2Proof.Machine
end

section
/-! SUPPORT. The operations of 41_outbound_queue.md run on their own: the five builders (R70 to R75) and take-all (R76). -/

namespace Sys2Proof.Machine

/-- The instruction pushes exactly `bs`, or takes the fatal overflow of asking for that many and pushes nothing (R70). -/
def PushesExactly (s : State) (i : Instr) (bs : List Byte) : Prop :=
  (s.outRoom bs.length → exec i s = .next (pushed bs s)) ∧
  (¬ s.outRoom bs.length → exec i s = .next (fatal .queueOverflow (.queue .outbound s.outq.length bs.length) s))

theorem pushesExactly_of_outPush {s : State} {i : Instr} {bs : List Byte}
    (hx : exec i s = (outPush bs s).finish fun _ t => t) : PushesExactly s i bs := by
  refine ⟨fun hroom => ?_, fun hfull => ?_⟩
  · rw [hx, outPush_room hroom, Res.finish_ok]
  · rw [hx, outPush_full hfull, Res.finish_raised, takeError_fatal (by decide)]

section
variable {s : State} (hf : s.fsm ≠ .halted)
include hf

theorem exec_oqHeader : exec .oqHeader s = (outPush s.cfg.header s).finish fun _ t => t := by
  simp [exec, execOqHeader, hf, addHeader]

theorem exec_oqByte (v : Byte) : exec (.oqByte v) s = (outPush [v] s).finish fun _ t => t := by
  simp [exec, execOqByte, hf, addByte]

theorem exec_oqWord (v : Word) : exec (.oqWord v) s = (outPush (bytes16 v) s).finish fun _ t => t := by
  simp [exec, execOqWord, hf, addWord]

theorem exec_oqRaw (bs : List Byte) : exec (.oqRaw bs) s = (outPush bs s).finish fun _ t => t := by
  simp [exec, execOqRaw, hf]

theorem exec_oqBlock (p : List Byte) : exec (.oqBlock p) s = (addBlock p s).finish fun _ t => t := by
  simp [exec, execOqBlock, hf]

theorem exec_oqTakeall : exec .oqTakeall s = .next { s with outq := [], ret := .bytes s.outq } := by
  simp [exec, execOqTakeall, hf, takeAll, withRet]

/-- A legal payload is one push of the payload between two copies of its marker (R75). -/
theorem exec_oqBlock_legal {p : List Byte} {m : Byte} (hl : 1 ≤ p.length) (hu : p.length ≤ s.cfg.maxPayload)
    (hm : marker p = some m) : exec (.oqBlock p) s = (outPush ([m] ++ p ++ [m]) s).finish fun _ t => t := by
  rw [exec_oqBlock hf, addBlock_legal hl hu hm]

theorem exec_oqBlock_illegal {p : List Byte} (hp : p.length < 1 ∨ s.cfg.maxPayload < p.length) :
    exec (.oqBlock p) s = .next (fatal .blockLength (.payloadLength p.length) s) := by
  rw [exec_oqBlock hf, addBlock_illegal hp, Res.finish_raised, takeError_fatal (by decide)]

end

theorem bracket_length (m : Byte) (p : List Byte) : ([m] ++ p ++ [m]).length = p.length + 2 := by simp

/-- Settles O17: the smallest absent value is what the marker search finds, and the block with it is one push; an illegal
length is raised before any push. -/
theorem blockIsBracketedByItsMarker : Obligations.BlockIsBracketedByItsMarker := by
  unfold Obligations.BlockIsBracketedByItsMarker
  refine fun p s hf => ⟨fun m hl hu habsent hsmaller => ?legal, exec_oqBlock_illegal hf, fun _ => rfl⟩
  case legal =>
    have hm : marker p = some m := marker_of_first habsent hsmaller
    rw [← bracket_length m p]
    exact pushesExactly_of_outPush (exec_oqBlock_legal hf hl hu hm)

/-- Settles O16: each of the four builders is one push of its bytes. -/
theorem buildersPushTheirBytes : Obligations.BuildersPushTheirBytes := by
  unfold Obligations.BuildersPushTheirBytes
  intro i bs s hf hbuilder
  refine and_assoc.1 ?_
  change PushesExactly s i bs ∧ _
  obtain ⟨rfl, rfl⟩ | ⟨v, rfl, rfl⟩ | ⟨v, rfl, rfl⟩ | rfl := hbuilder
  · exact ⟨pushesExactly_of_outPush (exec_oqHeader hf), fun _ => .inl rfl, rfl⟩
  · exact ⟨pushesExactly_of_outPush (exec_oqByte hf v), fun _ => .inr (.inl rfl), rfl⟩
  · rw [← bytes16_eq]
    exact ⟨pushesExactly_of_outPush (exec_oqWord hf v), fun _ => .inr (.inr (.inl rfl)), rfl⟩
  · exact ⟨pushesExactly_of_outPush (exec_oqRaw hf bs), fun _ => .inr (.inr (.inr rfl)), rfl⟩

/-- Settles O18: where ENG runs, the queue's bytes become the value returned. -/
theorem takeAllReturnsAndClears : Obligations.TakeAllReturnsAndClears := by
  unfold Obligations.TakeAllReturnsAndClears
  exact fun _ => exec_oqTakeall

end Sys2Proof.Machine
end

section
/-! SUPPORT. The operations of 42_datablock_command.md run on their own: the marker (R78, R80), the DataBlock (R79), the
Command registers (R81) and the halves of a word (R82). -/

namespace Sys2Proof.Machine

/-! ### The marker and the DataBlock -/

theorem marker_none_of_all {p : List Byte} (hall : ∀ v : Byte, v ∈ p) : marker p = none := by
  cases hm : marker p with
  | none => rfl
  | some m => exact absurd (hall m) (marker_spec hm).1

theorem findMarker_of_some {p : List Byte} {m : Byte} (hm : marker p = some m) (s : State) :
    findMarker p s = .ok m s := by
  simp [findMarker, hm]

theorem findMarker_of_none {p : List Byte} (hm : marker p = none) (s : State) :
    findMarker p s = .raised .markerExhausted (.payloadLength p.length) s := by
  simp [findMarker, hm]

theorem construct_legal {p : List Byte} {m : Byte} {s : State} (hl : 1 ≤ p.length) (hu : p.length ≤ s.cfg.maxPayload)
    (hm : marker p = some m) : construct p s = .ok ⟨p, m⟩ s := by
  simp [construct, (legalPayload_iff s.cfg p).2 ⟨hl, hu⟩, findMarker_of_some hm]

theorem construct_illegal {p : List Byte} {s : State} (hp : p.length < 1 ∨ s.cfg.maxPayload < p.length) :
    construct p s = .raised .blockLength (.payloadLength p.length) s := by
  have hnot : ¬ legalPayload s.cfg p = true := by rw [legalPayload_iff]; omega
  simp [construct, hnot]

section
variable {s : State} (hf : s.fsm ≠ .halted)
include hf

theorem exec_dbMarker (p : List Byte) :
    exec (.dbMarker p) s = (findMarker p s).finish fun m t => withRet (.byte m) t := by
  simp [exec, execDbMarker, hf]

theorem exec_dbConstruct (p : List Byte) :
    exec (.dbConstruct p) s = (construct p s).finish fun b t => withRet (.block b) t := by
  simp [exec, execDbConstruct, hf]

end

/-- Settles O19: the smallest absent value is what the marker search finds; where no value is absent it finds none, and
`MarkerExhausted` is fatal. -/
theorem markerIsSmallestAbsent : Obligations.MarkerIsSmallestAbsent := by
  unfold Obligations.MarkerIsSmallestAbsent
  refine fun p s hf => ⟨fun m habsent hsmaller => ?found, fun hall => ?exhausted⟩
  case found =>
    rw [exec_dbMarker hf, findMarker_of_some (marker_of_first habsent hsmaller), Res.finish_ok, withRet]
  case exhausted =>
    rw [exec_dbMarker hf, findMarker_of_none (marker_none_of_all hall), Res.finish_raised, takeError_fatal (by decide)]
    rfl

/-- Settles O20: the marker is at most the length of the payload, hence at most 254. -/
theorem legalPayloadHasMarker : Obligations.LegalPayloadHasMarker := by
  unfold Obligations.LegalPayloadHasMarker
  intro p _ hu
  obtain ⟨m, hm, habsent, hle⟩ := marker_exists p hu
  have hne : m ≠ 0xFF#8 := by
    rintro rfl
    have : 255 ≤ p.length := hle
    omega
  exact ⟨m, hm, habsent, hle, hne⟩

/-- Settles O21: a legal payload is paired with the smallest absent value, which the marker search finds; an illegal
length is raised before the search. -/
theorem constructPairsPayloadWithMarker : Obligations.ConstructPairsPayloadWithMarker := by
  unfold Obligations.ConstructPairsPayloadWithMarker
  refine fun p s hf => ⟨fun m hl hu habsent hsmaller => ?legal, fun hp => ?illegal⟩
  case legal =>
    rw [exec_dbConstruct hf, construct_legal hl hu (marker_of_first habsent hsmaller), Res.finish_ok, withRet]
  case illegal =>
    rw [exec_dbConstruct hf, construct_illegal hp, Res.finish_raised, takeError_fatal (by decide)]
    rfl

/-! ### The Command registers and the halves of a word -/

section
variable {s : State} (hf : s.fsm ≠ .halted)
include hf

theorem exec_cmdDecode (bc de hl : Word) (f a cmd : Byte) :
    exec (.cmdDecode bc de hl f a cmd) s
      = .next { s with command := ⟨bc, de, hl, f, a, cmd⟩, cmdValid := true } := by
  simp [exec, execCmdDecode, hf, writeCommand]

theorem exec_cmdHigh (x : Word) : exec (.cmdHigh x) s = .next { s with ret := .byte (high x) } := by
  simp [exec, execCmdHigh, hf, withRet]

theorem exec_cmdLow (x : Word) : exec (.cmdLow x) s = .next { s with ret := .byte (low x) } := by
  simp [exec, execCmdLow, hf, withRet]

end

/-- Settles O22: where ENG runs, the one update of the operation is that of the register file; its encoding begins with
its code. -/
theorem decodeWritesTheWholeCommand : Obligations.DecodeWritesTheWholeCommand := by
  unfold Obligations.DecodeWritesTheWholeCommand
  exact fun bc de hl f a cmd s hf => ⟨exec_cmdDecode hf bc de hl f a cmd, fun _ => rfl⟩

/-- Settles O23: the bytes returned are `high` and `low`, quotient and remainder by 256. -/
theorem highAndLowSplitAWord : Obligations.HighAndLowSplitAWord := by
  unfold Obligations.HighAndLowSplitAWord
  exact fun x s hf =>
    ⟨high x, low x, exec_cmdHigh hf x, exec_cmdLow hf x, high_toNat x, low_toNat x, le16_low_high x⟩

end Sys2Proof.Machine
end

section
/-! SUPPORT. The ReadOperation (43_read_operation.md): its five operations run on their own (R83 to R88), a whole round
of echoes (R86), and a whole transfer with every echo right (R106, R107, 95_test_vectors.md V-SRC-5). -/

namespace Sys2Proof.Machine

/-! ### The operations in their phase -/

section
variable {s : State} (hf : s.fsm ≠ .halted)
include hf

theorem exec_roConstruct (base : Word) (data : List Byte) :
    exec (.roConstruct base data) s = (roConstruct base data s).finish fun _ t => t := by
  simp [exec, execRoConstruct, hf]

theorem exec_roRound (hsend : s.roPhase = .send) (hne : s.roPending ≠ []) :
    exec .roRound s = (roRound s).finish fun _ t => t := by
  simp [exec, execRoRound, hf, hsend, hne]

theorem exec_roEcho {blk : DataBlock} (hecho : s.roPhase = .echo) (hblk : s.roPending[s.roIdx]? = some blk) :
    exec .roEcho s =
      (suspend (!s.inq.isEmpty) .nextbyte popByte s).finish fun e t => .next (takeEcho blk e t) := by
  simp [exec, execRoEcho, hf, hecho, hblk, nextByte]

theorem exec_roEndround (hecho : s.roPhase = .echo) (hall : s.roPending.length ≤ s.roIdx) :
    exec .roEndround s = .next (roEndround s) := by
  simp [exec, execRoEndround, hf, hecho, hall]

theorem exec_roExit (hsend : s.roPhase = .send) (hnone : s.roPending = []) :
    exec .roExit s = (roExit s).finish fun _ t => t := by
  simp [exec, execRoExit, hf, hsend, hnone]

/-! ### The operations outside their phase (log entry 13) -/

theorem exec_roRound_fault (h : s.roPhase ≠ .send ∨ s.roPending = []) : exec .roRound s = .fault .roNotEnabled := by
  have hnot : ¬ (s.roPhase = .send ∧ s.roPending ≠ []) := by tauto
  simp only [exec, execRoRound, engineOnly_running hf, if_neg hnot]

theorem exec_roEcho_fault (h : s.roPhase ≠ .echo ∨ s.roPending.length ≤ s.roIdx) :
    exec .roEcho s = .fault .roNotEnabled := by
  simp only [exec, execRoEcho, engineOnly_running hf]
  split
  next blk hecho hblk =>
    have hlt : s.roIdx < s.roPending.length := (List.getElem?_eq_some_iff.1 hblk).1
    rcases h with h | h
    · exact absurd hecho h
    · omega
  next => rfl

theorem exec_roEndround_fault (h : s.roPhase ≠ .echo ∨ s.roIdx < s.roPending.length) :
    exec .roEndround s = .fault .roNotEnabled := by
  have hnot : ¬ (s.roPhase = .echo ∧ s.roPending.length ≤ s.roIdx) := by rw [← Nat.not_le] at h; tauto
  simp only [exec, execRoEndround, engineOnly_running hf, if_neg hnot]

theorem exec_roExit_fault (h : s.roPhase ≠ .send ∨ s.roPending ≠ []) : exec .roExit s = .fault .roNotEnabled := by
  have hnot : ¬ (s.roPhase = .send ∧ s.roPending = []) := by tauto
  simp only [exec, execRoExit, engineOnly_running hf, if_neg hnot]

end

/-- Settles O25: with parameters that fit together `RO.CONSTRUCT` raises nothing, and its blocks are the transfer's. -/
theorem constructSplitsDataInReverse : Obligations.ConstructSplitsDataInReverse := by
  unfold Obligations.ConstructSplitsDataInReverse
  refine fun base data s hf hw => ⟨?splits, fun _ => rfl⟩
  case splits =>
    obtain ⟨blks, hblks, hrun⟩ := roConstruct_spec base data s hw
    exact ⟨blks, hblks, by rw [exec_roConstruct hf, hrun, Res.finish_ok]⟩

/-- Settles O29: each operation tests what its rule requires before anything else. -/
theorem readOperationStepsNeedTheirPhase : Obligations.ReadOperationStepsNeedTheirPhase := by
  unfold Obligations.ReadOperationStepsNeedTheirPhase
  exact fun s hf => ⟨exec_roRound_fault hf, exec_roEcho_fault hf, exec_roEndround_fault hf, exec_roExit_fault hf⟩

/-! ### What a round and the exit send -/

/-- A flush after something was pushed is one write of all that was queued (41_outbound_queue.md R77). -/
theorem flush_pushed {bs : List Byte} (hne : bs ≠ []) (s : State) :
    flush (pushed bs s) = { s with outq := [], txlog := s.txlog ++ [s.outq ++ bs] } := by
  simp [flush, takeAll, pushed, hne]

/-- The round has been sent and its echoes are awaited (43_read_operation.md R84, R85). -/
def roundSent (s : State) : State :=
  { s with
    outq := [], txlog := s.txlog ++ [s.outq ++ roundFrame s.cfg s.roBase s.roPending], dlElapsed := 0,
    roRetained := [], roIdx := 0, roPhase := .echo }

theorem roRound_room {s : State} (hb : ∀ b ∈ s.roPending, b.legal s.cfg) (hn : s.roPending.length ≤ 255)
    (hroom : s.outRoom (roundFrame s.cfg s.roBase s.roPending).length) : roRound s = .ok () (roundSent s) := by
  have hne : roundFrame s.cfg s.roBase s.roPending ≠ [] := by simp [roundFrame]
  rw [roRound, (roundFrame_all hb hn).room hroom, Res.andThen_ok, flush_pushed hne]
  rfl

/-- More blocks than the count field holds, before any byte is pushed (R92). -/
theorem roRound_many {s : State} (hn : 255 < s.roPending.length) :
    roRound s = .raised .fieldOverflow (.blockCount s.roPending.length) s := by
  simp [roRound, frameFast, payloads, hn]

theorem roExit_room {s : State} (hroom : s.outRoom (s.cfg.header.length + 1)) :
    roExit s = .ok () { pushed (s.cfg.header ++ [s.cfg.codeExit]) s with roPhase := .none } := by
  rw [roExit, (frameExit_all s).room (by simpa using hroom), Res.andThen_ok]

/-- An action that goes on after a frame does not, where there is no room for the frame. -/
theorem Res.PushesAll.full_andThen {r : Res Unit} {frame : List Byte} {s : State} (h : r.PushesAll frame s)
    (hfull : ¬ s.outRoom frame.length) (k : Unit → State → Res Unit) (l : Unit → State → State) :
    ∃ t, (r.andThen k).finish l = .next t ∧ s.outOverflowed frame t := by
  rcases h with ⟨hroom, -⟩ | ⟨-, sent, req, hpre, hlen, hno, rfl⟩
  · exact absurd hroom hfull
  · exact ⟨_, rfl, sent, req, hpre, hlen, hno, rfl⟩

/-- The overflow is fatal, and leaves the ReadOperation and the transport as they are (60_exceptions.md R112). -/
theorem State.outOverflowed.fields {frame : List Byte} {s t : State} (h : s.outOverflowed frame t) :
    t.fault = .queueOverflow ∧ t.fsm = .halted ∧ t.txlog = s.txlog ∧ t.roPending = s.roPending ∧
      t.roPhase = s.roPhase := by
  obtain ⟨sent, req, -, -, -, rfl⟩ := h
  exact ⟨rfl, rfl, rfl, rfl, rfl⟩

/-- Settles O26: the frame is pushed whole and flushed; above 255 blocks, or without room for it, the builder raises. -/
theorem roundSendsOneFastFrame : Obligations.RoundSendsOneFastFrame := by
  unfold Obligations.RoundSendsOneFastFrame
  intro s hf hsend hne hb
  rw [exec_roRound hf hsend hne]
  refine ⟨fun hn hroom => ?sent, fun hn => ?many, fun hn hfull => ?full⟩
  case sent => rw [roRound_room hb hn hroom, Res.finish_ok, roundSent]
  case many =>
    rw [roRound_many hn, Res.finish_raised, takeError_fatal (by decide)]
    rfl
  case full =>
    obtain ⟨t, hrun, hover⟩ := (roundFrame_all hb hn).full_andThen hfull _ _
    obtain ⟨hfault, hhalted, htx, hpending, hphase⟩ := hover.fields
    exact ⟨t, hrun, hfault, hhalted, htx, hpending, hphase.trans hsend⟩

/-- Settles O28: the end of a round is the one update of R87; the EXIT frame is pushed whole, or overflows. -/
theorem roundEndsAndOperationExits : Obligations.RoundEndsAndOperationExits := by
  unfold Obligations.RoundEndsAndOperationExits
  refine fun s hf => ⟨fun hecho hall => ?ends, fun hsend hnone hroom => ?exits, fun hsend hnone hfull => ?full,
    fun _ => ⟨rfl, rfl⟩⟩
  case ends => rw [exec_roEndround hf hecho hall.ge, roEndround]
  case exits =>
    rw [exec_roExit hf hsend hnone, roExit_room hroom, Res.finish_ok, pushed, List.append_assoc]
  case full =>
    rw [exec_roExit hf hsend hnone]
    obtain ⟨t, hrun, hover⟩ := (frameExit_all s).full_andThen (by simpa using hfull) _ _
    obtain ⟨hfault, hhalted, htx, -, hphase⟩ := hover.fields
    exact ⟨t, hrun, hfault, hhalted, hphase.trans hsend, htx⟩

/-! ### One echo -/

theorem takeEcho_match {blk : DataBlock} {e : Byte} (h : e = blk.marker) (s : State) :
    takeEcho blk e s = { s with roIdx := s.roIdx + 1 } := by
  simp [takeEcho, h]

theorem takeEcho_mismatch {blk : DataBlock} {e : Byte} (h : e ≠ blk.marker) (s : State) :
    takeEcho blk e s = { s with
      roRetained := s.roRetained ++ [blk], roRetx := s.roRetx + 1, roIdx := s.roIdx + 1 } := by
  simp [takeEcho, h]

/-- An echo before the deadline is compared with the block it is awaited for (R86). -/
theorem exec_roEcho_byte {s : State} {blk : DataBlock} {e : Byte} {rest : List Byte} (hf : s.fsm ≠ .halted)
    (hecho : s.roPhase = .echo) (hblk : s.roPending[s.roIdx]? = some blk) (hi : s.inq = e :: rest)
    (hrun : s.dlElapsed * s.cfg.tickMs < s.cfg.timeoutMs) :
    exec .roEcho s = .next (takeEcho blk e { s with inq := rest }) := by
  rw [exec_roEcho hf hecho hblk, inq_ready hi, suspend_progress hrun, popByte_cons hi, Wait.finish_complete]

/-- An echo at or after the deadline is taken or lost to the recovery (R60, R90). -/
theorem exec_roEcho_draw {s : State} {blk : DataBlock} {e : Byte} {rest : List Byte} (hf : s.fsm ≠ .halted)
    (hecho : s.roPhase = .echo) (hblk : s.roPending[s.roIdx]? = some blk) (hi : s.inq = e :: rest)
    (hexp : s.cfg.timeoutMs ≤ s.dlElapsed * s.cfg.tickMs) :
    exec .roEcho s = .next (takeEcho blk e { s with inq := rest, draws := s.draws + 1 }) ∨
      exec .roEcho s = .next (recovery .nextbyte { s with draws := s.draws + 1 }) := by
  rw [exec_roEcho hf hecho hblk, inq_ready hi]
  refine (finish_suspend_draw hexp).imp_left fun hdraw => hdraw.trans ?_
  rw [popByte_cons (s := { s with draws := s.draws + 1 }) hi, Wait.finish_complete]

/-- Settles O27: an echo taken is a match or a mismatch with its block's marker; with no byte the wait holds or times
out. -/
theorem echoComparesItsOwnMarker : Obligations.EchoComparesItsOwnMarker := by
  unfold Obligations.EchoComparesItsOwnMarker
  refine fun s blk hf hecho hblk => ⟨fun e rest hi hrun => ?taken, fun e rest hi hexp => ?either,
    fun hi hrun => ?hold, fun hi hexp => ?timeout⟩
  case taken =>
    rw [exec_roEcho_byte hf hecho hblk hi hrun]
    exact ⟨fun h => by rw [takeEcho_match h], fun h => by rw [takeEcho_mismatch h]⟩
  case either =>
    rcases exec_roEcho_draw hf hecho hblk hi hexp with htaken | hlost
    · by_cases h : e = blk.marker
      · exact .inl ⟨h, by rw [htaken, takeEcho_match h]⟩
      · exact .inr (.inl ⟨h, by rw [htaken, takeEcho_mismatch h]⟩)
    · exact .inr (.inr hlost)
  case hold =>
    rw [exec_roEcho hf hecho hblk, inq_not_ready hi, suspend_hold hrun, Wait.finish_suspended]
  case timeout =>
    rw [exec_roEcho hf hecho hblk, inq_not_ready hi, suspend_timeout hexp, Wait.finish_timeout]

/-! ### A round of echoes -/

/-- The blocks whose own echo is wrong, in wire order (R86). -/
def mismatched (blks : List DataBlock) (es : List Byte) : List DataBlock :=
  ((blks.zip es).filter fun x => decide (x.2 ≠ x.1.marker)).map Prod.fst

@[simp] theorem mismatched_nil : mismatched [] [] = [] := rfl

theorem mismatched_cons (b : DataBlock) (blks : List DataBlock) (e : Byte) (es : List Byte) :
    mismatched (b :: blks) (e :: es) = mismatched [b] [e] ++ mismatched blks es := by
  by_cases h : e = b.marker <;> simp [mismatched, h]

theorem mismatched_markers (blks : List DataBlock) : mismatched blks (blks.map DataBlock.marker) = [] := by
  induction blks with
  | nil => rfl
  | cons b blks ih =>
    rw [List.map_cons, mismatched_cons, ih]
    simp [mismatched]

/-- One echo, in the terms of a round. -/
theorem takeEcho_mismatched (blk : DataBlock) (e : Byte) (s : State) : takeEcho blk e s = { s with
    roRetained := s.roRetained ++ mismatched [blk] [e], roRetx := s.roRetx + (mismatched [blk] [e]).length,
    roIdx := s.roIdx + 1 } := by
  by_cases h : e = blk.marker
  · rw [takeEcho_match h]
    simp [mismatched, h]
  · simp [takeEcho_mismatch h, mismatched, h]

theorem step_respond {s : State} {ag : List Offer} (ha : s.agenda = engTurn :: ag) (hf : s.fsm = .respond) :
    step s = exec .dspRespond { s with agenda := ag } :=
  step_eng ha (by simp [engineInstr, hf])

/-- `RESPOND` takes the echo of the block at `ro_idx` (44_dispatcher.md R106). -/
theorem exec_dspRespond_echo {s : State} (hf : s.fsm ≠ .halted) (hecho : s.roPhase = .echo)
    (hlt : s.roIdx < s.roPending.length) : exec .dspRespond s = exec .roEcho s := by
  simp [exec, execDspRespond, hf, hecho, hlt]

/-- One move of ENG on an echo that has arrived before the deadline. -/
theorem step_takes_echo {s : State} {blk : DataBlock} {e : Byte} {rest : List Byte} {ag : List Offer}
    (hf : s.fsm = .respond) (hecho : s.roPhase = .echo) (hblk : s.roPending[s.roIdx]? = some blk)
    (hi : s.inq = e :: rest) (hrun : s.dlElapsed * s.cfg.tickMs < s.cfg.timeoutMs) (ha : s.agenda = engTurn :: ag) :
    step s = .next (takeEcho blk e { s with inq := rest, agenda := ag }) := by
  have hrunning : s.fsm ≠ .halted := by simp [hf]
  rw [step_respond ha hf,
    exec_dspRespond_echo (s := { s with agenda := ag }) hrunning hecho (List.getElem?_eq_some_iff.1 hblk).1]
  exact exec_roEcho_byte (s := { s with agenda := ag }) hrunning hecho hblk hi hrun

/-- ENG takes the echoes of the blocks from `ro_idx` on, one a move. -/
theorem runSteps_takes_echoes (blks : List DataBlock) : ∀ {s : State} {es rest : List Byte} {ag : List Offer},
    s.fsm = .respond → s.roPhase = .echo → s.roPending.drop s.roIdx = blks → es.length = blks.length →
    s.inq = es ++ rest → s.dlElapsed * s.cfg.tickMs < s.cfg.timeoutMs →
    s.agenda = List.replicate es.length engTurn ++ ag →
    runSteps es.length s = .next { s with
      inq := rest, roIdx := s.roIdx + es.length, agenda := ag, roRetained := s.roRetained ++ mismatched blks es,
      roRetx := s.roRetx + (mismatched blks es).length } := by
  induction blks with
  | nil =>
    intro s es rest ag _ _ _ hlen hi _ ha
    obtain rfl := List.eq_nil_of_length_eq_zero hlen
    obtain rfl : s.inq = rest := hi
    obtain rfl : s.agenda = ag := ha
    simp [runSteps]
  | cons b blks ih =>
    intro s es rest ag hf hecho hd hlen hi hrun ha
    obtain ⟨e, es, rfl⟩ := List.exists_cons_of_length_eq_add_one hlen
    have hblk : s.roPending[s.roIdx]? = some b := by rw [← List.head?_drop, hd]; rfl
    have hd' : s.roPending.drop (s.roIdx + 1) = blks := by rw [← List.drop_drop, hd]; rfl
    have hstep := step_takes_echo (rest := es ++ rest) (ag := List.replicate es.length engTurn ++ ag)
      hf hecho hblk hi hrun ha
    have hrest := ih (s := takeEcho b e { s with inq := es ++ rest, agenda := List.replicate es.length engTurn ++ ag })
      (es := es) (rest := rest) (ag := ag) (by simpa using hf) (by simpa using hecho) (by simpa using hd')
      (Nat.succ.inj hlen) (by simp) (by simpa using hrun) (by simp)
    rw [List.length_cons, runSteps_succ _ hstep, hrest, takeEcho_mismatched, mismatched_cons b blks e es]
    simp only [List.append_assoc, List.length_append, Nat.add_assoc, Nat.add_comm 1 es.length]

/-- Settles O30: a round starts at the first block with nothing retained. -/
theorem roundRetainsTheMismatchedBlocks : Obligations.RoundRetainsTheMismatchedBlocks := by
  unfold Obligations.RoundRetainsTheMismatchedBlocks
  intro s es rest ag hf hecho hidx hret hlen hi hrun ha
  rw [runSteps_takes_echoes s.roPending hf hecho (by rw [hidx, List.drop_zero]) hlen hi hrun ha, hidx, hret]
  simp [mismatched]

/-! ### A transfer with every echo right -/

section
variable {s : State} (hf : s.fsm ≠ .halted)
include hf

theorem exec_dspRespond_round (hsend : s.roPhase = .send) (hne : s.roPending ≠ []) :
    exec .dspRespond s = exec .roRound s := by
  simp [exec, execDspRespond, hf, hsend, hne]

theorem exec_dspRespond_endround (hecho : s.roPhase = .echo) (hall : s.roPending.length ≤ s.roIdx) :
    exec .dspRespond s = .next (roEndround s) := by
  simp [exec, execDspRespond, execRoEndround, hf, hecho, hall]

theorem exec_dspRespond_exit (hsend : s.roPhase = .send) (hnone : s.roPending = []) :
    exec .dspRespond s = (roExit s).finish fun _ t => goto .flush t := by
  simp [exec, execDspRespond, hf, hsend, hnone]

theorem exec_dspFlush : exec .dspFlush s = .next (enterWaitSync (flush s)) := by
  simp [exec, execDspFlush, hf]

end

/-- ENG's move that sends a round (R84, R106). -/
theorem step_sends_round {s : State} {ag : List Offer} (hf : s.fsm = .respond) (hsend : s.roPhase = .send)
    (hne : s.roPending ≠ []) (hn : s.roPending.length ≤ 255) (hb : ∀ b ∈ s.roPending, b.legal s.cfg)
    (hroom : s.outRoom (roundFrame s.cfg s.roBase s.roPending).length) (ha : s.agenda = engTurn :: ag) :
    step s = .next (roundSent { s with agenda := ag }) := by
  have hrunning : s.fsm ≠ .halted := by simp [hf]
  rw [step_respond ha hf, exec_dspRespond_round (s := { s with agenda := ag }) hrunning hsend hne,
    exec_roRound (s := { s with agenda := ag }) hrunning hsend hne,
    roRound_room (s := { s with agenda := ag }) hb hn hroom, Res.finish_ok]

/-- Once nothing is pending, the EXIT frame is queued, and it is flushed on the way to `WAIT_SYNC` (R88, R107). -/
theorem runSteps_exits {s : State} {ag : List Offer} (hf : s.fsm = .respond) (hsend : s.roPhase = .send)
    (hnone : s.roPending = []) (hroom : s.outRoom (s.cfg.header.length + 1))
    (ha : s.agenda = engTurn :: engTurn :: ag) :
    runSteps 2 s = .next (enterWaitSync { s with
      agenda := ag, outq := [], txlog := s.txlog ++ [s.outq ++ (s.cfg.header ++ [s.cfg.codeExit])],
      roPhase := .none }) := by
  have hrunning : s.fsm ≠ .halted := by simp [hf]
  have hexit : step s = .next (goto .flush
      { pushed (s.cfg.header ++ [s.cfg.codeExit]) { s with agenda := engTurn :: ag } with roPhase := .none }) := by
    rw [step_respond ha hf, exec_dspRespond_exit (s := { s with agenda := engTurn :: ag }) hrunning hsend hnone,
      roExit_room (s := { s with agenda := engTurn :: ag }) hroom, Res.finish_ok]
  rw [runSteps_succ 1 hexit, runSteps_one, step_eng rfl rfl, exec_dspFlush (by simp [goto])]
  simp [flush, takeAll, pushed, goto, enterWaitSync, deadlineReset]

/-- A round with nothing retained is the last one (R87). -/
theorem runSteps_ends_transfer {s : State} {ag : List Offer} (hf : s.fsm = .respond) (hecho : s.roPhase = .echo)
    (hall : s.roPending.length ≤ s.roIdx) (hret : s.roRetained = [])
    (hroom : s.outRoom (s.cfg.header.length + 1)) (ha : s.agenda = engTurn :: engTurn :: engTurn :: ag) :
    runSteps 3 s = .next (enterWaitSync { s with
      agenda := ag, outq := [], txlog := s.txlog ++ [s.outq ++ (s.cfg.header ++ [s.cfg.codeExit])], roPending := [],
      roRetained := [], roIdx := 0, roPhase := .none }) := by
  have hend : step s = .next (roEndround { s with agenda := engTurn :: engTurn :: ag }) :=
    (step_respond ha hf).trans (exec_dspRespond_endround (by simp [hf]) hecho hall)
  have hexit := runSteps_exits (s := roEndround { s with agenda := engTurn :: engTurn :: ag }) hf rfl hret hroom rfl
  rw [runSteps_succ 2 hend, hexit]
  simp [roEndround, hret]

/-- A round whose echoes are all right retains nothing and counts nothing. -/
theorem runSteps_takes_markers {s : State} {ag : List Offer} (hf : s.fsm = .respond) (hecho : s.roPhase = .echo)
    (hidx : s.roIdx = 0) (hret : s.roRetained = []) (hi : s.inq = s.roPending.map DataBlock.marker)
    (hrun : s.dlElapsed * s.cfg.tickMs < s.cfg.timeoutMs)
    (ha : s.agenda = List.replicate s.roPending.length engTurn ++ ag) :
    runSteps s.roPending.length s = .next { s with inq := [], roIdx := s.roPending.length, agenda := ag } := by
  have hlen : (s.roPending.map DataBlock.marker).length = s.roPending.length := List.length_map _
  have hround := runSteps_takes_echoes s.roPending (es := s.roPending.map DataBlock.marker) (rest := []) (ag := ag)
    hf hecho (by rw [hidx, List.drop_zero]) hlen (by rw [hi, List.append_nil]) hrun (by rw [hlen, ha])
  rw [hlen, mismatched_markers] at hround
  simpa [hidx, hret] using hround

/-- With all the echoes of a round there, and right, ENG takes them and ends the transfer. -/
theorem runSteps_completes_transfer {s : State} {ag : List Offer} (hf : s.fsm = .respond) (hecho : s.roPhase = .echo)
    (hidx : s.roIdx = 0) (hret : s.roRetained = []) (hi : s.inq = s.roPending.map DataBlock.marker)
    (hrun : s.dlElapsed * s.cfg.tickMs < s.cfg.timeoutMs) (hroom : s.outRoom (s.cfg.header.length + 1))
    (ha : s.agenda = List.replicate (s.roPending.length + 3) engTurn ++ ag) :
    runSteps (s.roPending.length + 3) s = .next (enterWaitSync { s with
      agenda := ag, inq := [], outq := [], txlog := s.txlog ++ [s.outq ++ (s.cfg.header ++ [s.cfg.codeExit])],
      roPending := [], roRetained := [], roIdx := 0, roPhase := .none }) := by
  have hechoes := runSteps_takes_markers (ag := engTurn :: engTurn :: engTurn :: ag) hf hecho hidx hret hi hrun
    (by simp [ha, List.replicate_add])
  have hends := runSteps_ends_transfer (ag := ag)
    (s := { s with
      inq := [], roIdx := s.roPending.length, agenda := engTurn :: engTurn :: engTurn :: ag })
    hf hecho (Nat.le_refl _) hret hroom rfl
  exact (runSteps_add _ 3 hechoes).trans hends

/-- FEED delivers the echoes of a round in one batch, and they are right (R86, R106, R107). -/
theorem runSteps_matching_echoes {s : State} {ag : List Offer} (hf : s.fsm = .respond) (hecho : s.roPhase = .echo)
    (hidx : s.roIdx = 0) (hret : s.roRetained = []) (hi : s.inq = [])
    (hrun : s.dlElapsed * s.cfg.tickMs < s.cfg.timeoutMs) (hid : s.cfg.inDepth = none) (hod : s.cfg.outDepth = none)
    (ha : s.agenda = feedTurn (s.roPending.map DataBlock.marker) ::
      (List.replicate (s.roPending.length + 3) engTurn ++ ag)) :
    runSteps (s.roPending.length + 4) s = .next (enterWaitSync { s with
      agenda := ag, outq := [], txlog := s.txlog ++ [s.outq ++ (s.cfg.header ++ [s.cfg.codeExit])], roPending := [],
      roRetained := [], roIdx := 0, roPhase := .none }) := by
  have hfeed := (step_feed ha).trans (exec_iqAppend_room (State.inRoom_none hid _))
  have hcompletes := runSteps_completes_transfer (ag := ag)
    (s := { s with
      inq := s.inq ++ s.roPending.map DataBlock.marker
      agenda := List.replicate (s.roPending.length + 3) engTurn ++ ag })
    hf hecho hidx hret (by simp [hi]) hrun (State.outRoom_none hod _) rfl
  rw [runSteps_succ _ hfeed, hcompletes, hi]

/-- Settles O31: the round's own frame, then its echoes, then the EXIT frame. -/
theorem matchingEchoesCompleteTheTransfer : Obligations.MatchingEchoesCompleteTheTransfer := by
  unfold Obligations.MatchingEchoesCompleteTheTransfer
  intro s ag hf hsend hne hn hb hout hi hod hid htimeout ha
  have hround := step_sends_round hf hsend hne hn hb (State.outRoom_none hod _) ha
  have hechoes := runSteps_matching_echoes (ag := ag)
    (s := roundSent { s with agenda := feedTurn (s.roPending.map DataBlock.marker) ::
      (List.replicate (s.roPending.length + 3) engTurn ++ ag) })
    hf rfl rfl rfl hi (by simpa [roundSent] using htimeout) hid hod rfl
  refine (runSteps_succ _ hround).trans (hechoes.trans ?_)
  simp [roundSent, enterWaitSync, deadlineReset, hout]

end Sys2Proof.Machine
end

section
/-! SUPPORT. The Dispatcher's actions one by one (44_dispatcher.md R95 to R107), each run in its own state. -/

namespace Sys2Proof.Machine

/-! ### ENG's move -/

section
variable {s : State} (hm : s.engineMoves)
include hm

/-- ENG's move performs the action of its `fsm` (R95). -/
theorem step_of_engineMoves {i : Instr} (hi : engineInstr s = some i) : step s = exec i (dropOffer s) := by
  have hi' : engineInstr (dropOffer s) = some i := hi
  rw [State.engineMoves] at hm
  simp [step, hm, moveInstr, hi']

theorem step_of_engineMoves_halted (hf : s.fsm = .halted) : step s = .next (dropOffer s) := by
  have hi : engineInstr (dropOffer s) = none := by simp [engineInstr, hf]
  rw [State.engineMoves] at hm
  simp [step, hm, moveInstr, hi]

end

/-- Settles O4: each running `fsm` value has its action, which the step runs with the offer taken. -/
theorem engineMovesByFsm : Obligations.EngineMovesByFsm := by
  unfold Obligations.EngineMovesByFsm
  rintro s _ hm rfl
  have runs : ∀ {f : Fsm} {i : Instr}, engineInstr { s with fsm := f } = some i → s.fsm = f →
      step s = exec i (dropOffer s) := by
    rintro _ i hi rfl
    exact step_of_engineMoves hm hi
  exact ⟨runs rfl, runs rfl, runs rfl, runs rfl, runs rfl, runs rfl, step_of_engineMoves_halted hm⟩

/-! ### WAIT_SYNC -/

/-- The byte that completes the pattern ends the wait (40_inbound_queue.md R65). -/
theorem matchStep_completes {pat : List Byte} {b : Byte} {rest : List Byte} {s : State} {i d : Nat}
    (hi : s.inq = b :: rest) (hm : matchByte pat b s.syncI s.syncDiscard = (i, d)) (hend : i = pat.length) :
    matchStep pat s = .complete d { s with inq := rest, syncI := i, syncDiscard := d, seq := none } := by
  simp [matchStep, hi, hm, hend]

/-- Any other byte leaves the wait in progress (R65). -/
theorem matchStep_continues {pat : List Byte} {b : Byte} {rest : List Byte} {s : State} {i d : Nat}
    (hi : s.inq = b :: rest) (hm : matchByte pat b s.syncI s.syncDiscard = (i, d)) (hmore : i ≠ pat.length) :
    matchStep pat s = .suspended { s with inq := rest, syncI := i, syncDiscard := d } := by
  simp [matchStep, hi, hm, hmore]

/-- What follows the wait for `SYNC` (44_dispatcher.md R98). -/
def syncMatched (s : State) : Host.Outcome State Fault Refusal := .next (goto .readFixed9 (deadlineReset s))

/-- `WAIT_SYNC`'s action is a wait for a byte, from the wait for `SYNC` as it stands or is now started (R98). -/
theorem exec_dspWaitSync {s : State} {i d : Nat} (hf : s.fsm ≠ .halted) (hseq : s.seqAt s.cfg.sync i d) :
    exec .dspWaitSync s = (suspend (!s.inq.isEmpty) (.waitseq d) (matchStep s.cfg.sync)
      (sequenceAt s.cfg.sync i d s)).finish fun _ t => syncMatched t := by
  simp [exec, execDspWaitSync, hf, waitSequence, startSequence_eq_sequenceAt hseq, sequenceAt, syncMatched]

/-- One byte of `WAIT_SYNC`: the deadline is reset only where it completes `SYNC` (R98, R96). -/
theorem finish_matchStep_sync {pat : List Byte} {b : Byte} {rest : List Byte} {s t : State} {i d : Nat}
    (hi : s.inq = b :: rest) (hm : matchByte pat b s.syncI s.syncDiscard = (i, d))
    (hdone : i = pat.length → t = { s with
      inq := rest, syncI := i, syncDiscard := d, seq := none, dlElapsed := 0, fsm := .readFixed9 })
    (hmore : i ≠ pat.length → t = { s with inq := rest, syncI := i, syncDiscard := d }) :
    (matchStep pat s).finish (fun _ u => syncMatched u) = .next t := by
  by_cases hend : i = pat.length
  · rw [matchStep_completes hi hm hend, hdone hend]
    rfl
  · rw [matchStep_continues hi hm hend, hmore hend]
    rfl

/-- Settles O32: the wait's progress is R65's match of one byte; where the deadline has expired too, the draw decides
between that and the recovery. -/
theorem waitSyncCompletesOnSync : Obligations.WaitSyncCompletesOnSync := by
  unfold Obligations.WaitSyncCompletesOnSync
  intro s i d hf hseq
  rw [exec_dspWaitSync (by simp [hf]) hseq]
  refine ⟨fun b rest i' d' t hi hm hdone hmore => ⟨fun hrun => ?progress, fun hexp => ?either⟩,
    fun hi hrun => ?hold, fun hi hexp => ?timeout⟩
  case progress =>
    rw [inq_ready hi, suspend_progress (s := sequenceAt s.cfg.sync i d s) hrun]
    exact finish_matchStep_sync hi (matchByte_matchedTo hm) hdone hmore
  case either =>
    rw [inq_ready hi]
    refine (finish_suspend_draw (s := sequenceAt s.cfg.sync i d s) hexp).imp_left fun hdraw => hdraw.trans ?_
    exact finish_matchStep_sync hi (matchByte_matchedTo hm) (fun hend => by rw [hdone hend]; rfl)
      fun hend => by rw [hmore hend]; rfl
  case hold =>
    rw [inq_not_ready hi, suspend_hold (s := sequenceAt s.cfg.sync i d s) hrun]
    rfl
  case timeout =>
    rw [inq_not_ready hi, suspend_timeout (s := sequenceAt s.cfg.sync i d s) hexp]
    rfl

/-! ### READ_FIXED_9 -/

theorem eq_le16_of_toNat {w : Word} {lo hi : Byte} (h : w.toNat = lo.toNat + 256 * hi.toNat) : w = le16 lo hi :=
  BitVec.eq_of_toNat_eq (h.trans (le16_toNat lo hi).symm)

/-- The nine pops in wire order (30_encoding.md R44, R59). -/
theorem readFields_nine {s : State} {c0 c1 e0 e1 h0 h1 f a cmd : Byte} {rest : List Byte}
    (hi : s.inq = [c0, c1, e0, e1, h0, h1, f, a, cmd] ++ rest) :
    readFields s = .ok ⟨le16 c0 c1, le16 e0 e1, le16 h0 h1, f, a, cmd⟩ { s with inq := rest } := by
  simp [readFields, readWord, readByte, hi]

/-- What follows the wait for the fields: the pops and the decode (44_dispatcher.md R99). -/
def fieldsDecoded (s : State) : Host.Outcome State Fault Refusal :=
  (readFields s).finish fun c t => goto .decode (writeCommand c t)

theorem exec_dspReadFixed9 {s : State} (hf : s.fsm ≠ .halted) : exec .dspReadFixed9 s =
    (suspend (decide (s.cfg.fixedLen ≤ s.inq.length)) (.waitavail s.inq.length s.cfg.fixedLen)
      (fun t => .complete () t) s).finish fun _ t => fieldsDecoded t := by
  simp [exec, execDspReadFixed9, hf, waitAvailable, fieldsDecoded]

theorem fieldsDecoded_nine {s : State} {c0 c1 e0 e1 h0 h1 f a cmd : Byte} {rest : List Byte} {bc de hl : Word}
    (hi : s.inq = [c0, c1, e0, e1, h0, h1, f, a, cmd] ++ rest) (hbc : bc.toNat = c0.toNat + 256 * c1.toNat)
    (hde : de.toNat = e0.toNat + 256 * e1.toNat) (hhl : hl.toNat = h0.toNat + 256 * h1.toNat) :
    fieldsDecoded s = .next { s with
      inq := rest, command := ⟨bc, de, hl, f, a, cmd⟩, cmdValid := true, fsm := .decode } := by
  rw [fieldsDecoded, readFields_nine hi, eq_le16_of_toNat hbc, eq_le16_of_toNat hde, eq_le16_of_toNat hhl]
  rfl

/-- Settles O33: the wait completes with nine bytes there, which are then popped and decoded at once; with fewer it holds or
times out. -/
theorem readFixedNineDecodesInWireOrder : Obligations.ReadFixedNineDecodesInWireOrder := by
  unfold Obligations.ReadFixedNineDecodesInWireOrder
  intro s hf hlen
  rw [exec_dspReadFixed9 hf, hlen]
  refine ⟨fun c0 c1 e0 e1 h0 h1 f a cmd rest bc de hl hi hbc hde hhl => ?nine, fun hfew hrun => ?hold,
    fun hfew hexp => ?timeout⟩
  case nine =>
    have hready : 9 ≤ s.inq.length := by simp [hi]
    rw [decide_eq_true hready]
    refine ⟨fun hrun => ?_, fun hexp => (finish_suspend_draw hexp).imp_left fun hdraw => hdraw.trans ?_⟩
    · rw [suspend_progress hrun]
      exact fieldsDecoded_nine hi hbc hde hhl
    · exact fieldsDecoded_nine (s := { s with draws := s.draws + 1 }) hi hbc hde hhl
  case hold => rw [decide_eq_false (Nat.not_le.2 hfew), suspend_hold hrun, Wait.finish_suspended]
  case timeout => rw [decide_eq_false (Nat.not_le.2 hfew), suspend_timeout hexp, Wait.finish_timeout]

/-! ### DECODE -/

/-- Settles O34: the action emits one event and moves on; `classify` tests the disk opcode before the known ones. -/
theorem decodeReportsTheCommand : Obligations.DecodeReportsTheCommand := by
  unfold Obligations.DecodeReportsTheCommand
  refine fun s hf => ⟨exec_dspDecode hf, fun hd => ?dskio, classify_known, classify_unknown, fun _ => rfl⟩
  case dskio => rw [hd, classify_dskio]

/-! ### DISPATCH: which action is taken -/

section
variable {s : State} (hf : s.fsm ≠ .halted)
include hf

theorem exec_dspDispatch_diskRead (hc : s.command.cmd = s.cfg.opDskio) :
    exec .dspDispatch s = (diskRead s.command s).finish fun _ t => goto .respond t := by
  rw [exec_dspDispatch hf, dispatchCommand, dispatchAction, hc, classify_dskio]

theorem exec_dspDispatch_known (hc : classify s.cfg s.command.cmd = .known) :
    exec .dspDispatch s = (fixedReplyAction s.command s).finish fun _ t => goto .respond t := by
  rw [exec_dspDispatch hf, dispatchCommand, dispatchAction, hc]

/-- One event, and on to `RESPOND` (R105). -/
theorem exec_dspDispatch_unknown (hc : classify s.cfg s.command.cmd = .unknown) :
    exec .dspDispatch s = .next { s with
      diaglog := s.diaglog ++ [.unknownOpcode s.command.cmd], fsm := .respond } := by
  rw [exec_dspDispatch hf, dispatchCommand, dispatchAction, hc]
  rfl

end

/-- Settles O38: an opcode that is neither the disk one nor a known one is of class unknown. -/
theorem dispatchLogsAnUnknownOpcode : Obligations.DispatchLogsAnUnknownOpcode := by
  unfold Obligations.DispatchLogsAnUnknownOpcode
  exact fun s hf hd hk => exec_dspDispatch_unknown hf (classify_unknown hd hk)

/-! ### DISPATCH: the disk read -/

theorem diskRead_write {c : Command} {s : State} (hw : c.f.getLsbD 0 = true) : diskRead c s = .ok () s := by
  simp [diskRead, writeFlag, hw]

theorem storeRead_within {start size : Nat} {s : State} (h : start + size ≤ s.cfg.storeSize) :
    storeRead start size s = .ok (imageBytes s.image start size) s := by
  rw [storeRead, if_neg (Nat.not_lt.2 h)]

theorem storeRead_beyond {start size : Nat} {s : State} (h : s.cfg.storeSize < start + size) :
    storeRead start size s = .raised .diskStoreFault (.store start size) s := by
  rw [storeRead, if_pos h]

section
variable {c : Command} {s : State} {size start : Nat}
  (hm : s.cfg.dskioMap = { count := .b, start := .de, dest := .hl })
  (hs : size = c.bc.toNat / 256 * s.cfg.sectorSize) (ht : start = c.de.toNat * s.cfg.sectorSize)
  (hr : c.f.getLsbD 0 = false)
include hm hs ht hr

theorem diskRead_zero (hz : size = 0) : diskRead c s = .ok () (emit .zeroLength s) := by
  rw [diskRead_read hm hs ht hr, if_pos hz]

theorem diskRead_beyond (hz : size ≠ 0) (ho : s.cfg.storeSize < start + size) :
    diskRead c s = .raised .diskStoreFault (.store start size) s := by
  rw [diskRead_read hm hs ht hr, if_neg hz, storeRead_beyond ho, Res.andThen_raised]

theorem diskRead_short (hz : size ≠ 0) (ho : start + size ≤ s.cfg.storeSize) (hl : size < s.cfg.chunkSize) :
    diskRead c s = frameSlow c.hl (imageBytes s.image start size) s := by
  rw [diskRead_read hm hs ht hr, if_neg hz, storeRead_within ho, Res.andThen_ok, if_pos hl, slowPath]

end

/-- Settles O35: the action returns before it reads the store, or raises at the read. -/
theorem dispatchIgnoresWriteAndZeroLength : Obligations.DispatchIgnoresWriteAndZeroLength := by
  unfold Obligations.DispatchIgnoresWriteAndZeroLength
  intro s size start hf hc hm hs ht
  rw [exec_dspDispatch_diskRead hf hc]
  refine ⟨fun hw => ?write, fun hr hz => ?zero, fun hr hz ho => ?beyond⟩
  case write => rw [diskRead_write hw]; rfl
  case zero => rw [diskRead_zero hm hs ht hr hz]; rfl
  case beyond => rw [diskRead_beyond hm hs ht hr hz ho]; rfl

/-- The SLOW frame of a payload shorter than a chunk (30_encoding.md R49), with the marker it is bracketed by. -/
theorem frameSlow_short {dest : Word} {data : List Byte} {s : State} (hw : s.cfg.wf = true) (hne : data.length ≠ 0)
    (hl : data.length < s.cfg.chunkSize) : ∃ m, marker data = some m ∧
      (frameSlow dest data s).PushesAll (s.cfg.header ++ [s.cfg.codeSlow] ++ bytes16 dest
        ++ bytes16 (BitVec.ofNat 16 data.length) ++ ([m] ++ data ++ [m])) s := by
  obtain ⟨-, -, hchunk, hmax, -⟩ := Config.wf_parts hw
  obtain ⟨m, hmark, -⟩ := marker_exists data (by omega)
  have hlegal : DataBlock.legal s.cfg ⟨data, m⟩ := ⟨Nat.pos_of_ne_zero hne, by dsimp only; omega, hmark⟩
  exact ⟨m, hmark, frameSlow_all (d := dest) (b := ⟨data, m⟩) (s := s) hlegal⟩

/-- Settles O36: a long read is a ReadOperation constructed on the image's bytes; a short one is the SLOW frame of those
bytes, pushed whole or overflowing. -/
theorem dispatchStartsTheDiskRead : Obligations.DispatchStartsTheDiskRead := by
  unfold Obligations.DispatchStartsTheDiskRead
  intro s size start hf hc hw hm hs ht hr hz ho
  rw [exec_dspDispatch_diskRead hf hc]
  refine ⟨fun hl => ?long, fun hl => ?short⟩
  case long =>
    obtain ⟨data, blks, hdata, hblks, hrun⟩ := diskRead_long hw hm hs ht hr hz ho hl
    exact ⟨data, blks, hdata, hblks, by rw [hrun]; rfl⟩
  case short =>
    have hdata := imageBytes_slice s.image size start
    obtain ⟨m, hmark, hframe⟩ := frameSlow_short (dest := s.command.hl) (data := imageBytes s.image start size) hw
      (by rwa [hdata.1]) (by rwa [hdata.1])
    obtain ⟨habsent, hsmaller⟩ := marker_spec hmark
    rw [hdata.1] at hframe
    rw [diskRead_short hm hs ht hr hz ho hl]
    exact ⟨_, m, _, hdata, habsent, hsmaller, rfl, fun hroom => by rw [hframe.room hroom]; rfl,
      fun hfull => hframe.full hfull _⟩

/-! ### DISPATCH: the fixed reply -/

/-- Settles O37: a reply is the header and its bytes, pushed whole or overflowing; a Command that is not listed is
unimplemented. -/
theorem dispatchTakesTheFixedReply : Obligations.DispatchTakesTheFixedReply := by
  unfold Obligations.DispatchTakesTheFixedReply
  intro s hf hc
  rw [exec_dspDispatch_known hf hc, fixedReplyAction]
  refine ⟨fun hn => ?noResponse, fun bs hb hroom => ?reply, fun bs hb hfull => ?full, fun hu => ?unimplemented,
    fun hnone => ?unlisted⟩
  case noResponse => rw [hn]; rfl
  case reply =>
    rw [hb]
    dsimp only
    rw [(frameReply_all bs s).room (by simpa using hroom), List.append_assoc]
    rfl
  case full =>
    rw [hb]
    exact (frameReply_all bs s).full (by simpa using hfull) _
  case unimplemented => rw [hu]; rfl
  case unlisted => rw [fixedReply, hnone, lookupReply]

/-! ### RESPOND -/

/-- The EXIT frame is queued and the operation has ended, or the frame overflows (43_read_operation.md R88). -/
theorem roExit_cases (s : State) : (∃ bs, roExit s = .ok () { pushed bs s with roPhase := .none }) ∨
    ∃ i u, roExit s = .raised .queueOverflow i u := by
  rcases frameExit_all s with ⟨-, e⟩ | ⟨-, sent, req, -, -, -, e⟩
  · exact .inl ⟨_, by rw [roExit, e, Res.andThen_ok]⟩
  · exact .inr ⟨_, _, by rw [roExit, e, Res.andThen_raised]⟩

/-- After `RO.EXIT` the engine goes on to `FLUSH`, or is halted as `RO.EXIT` halts it (44_dispatcher.md R106). -/
theorem exec_dspRespond_of_roExit {s t : State} (hf : s.fsm ≠ .halted) (hsend : s.roPhase = .send)
    (hnone : s.roPending = []) (hx : exec .roExit s = .next t) :
    (t.fsm ≠ .halted ∧ exec .dspRespond s = .next (goto .flush t)) ∨
      (t.fsm = .halted ∧ exec .dspRespond s = .next t) := by
  rw [exec_roExit hf hsend hnone] at hx
  rw [exec_dspRespond_exit hf hsend hnone]
  rcases roExit_cases s with ⟨bs, e⟩ | ⟨i, u, e⟩ <;> rw [e] at hx ⊢ <;> cases hx
  · exact .inl ⟨hf, rfl⟩
  · exact .inr ⟨rfl, rfl⟩

theorem exec_dspRespond_none {s : State} (hf : s.fsm ≠ .halted) (hp : s.roPhase = .none) :
    exec .dspRespond s = .next { s with fsm := .flush } := by
  simp [exec, execDspRespond, hf, hp, goto]

/-- Settles O39: each phase has its operation; the two ends of `RO.EXIT` differ in `fsm`. -/
theorem respondRunsTheReadOperation : Obligations.RespondRunsTheReadOperation := by
  unfold Obligations.RespondRunsTheReadOperation
  refine fun s hf => ⟨exec_dspRespond_none hf, exec_dspRespond_round hf, exec_dspRespond_echo hf,
    fun hecho hall => ?endround, fun t hsend hnone hx ht => ?flushes, fun t hsend hnone hx ht => ?halts⟩
  case endround => rw [exec_dspRespond_endround hf hecho hall, exec_roEndround hf hecho hall]
  case flushes =>
    rcases exec_dspRespond_of_roExit hf hsend hnone hx with ⟨-, hrun⟩ | ⟨hhalted, -⟩
    · exact hrun
    · exact absurd hhalted ht
  case halts =>
    rcases exec_dspRespond_of_roExit hf hsend hnone hx with ⟨hrunning, -⟩ | ⟨-, hrun⟩
    · exact absurd ht hrunning
    · exact hrun

/-! ### FLUSH -/

theorem flush_nonempty {s : State} (h : s.outq ≠ []) :
    flush s = { s with outq := [], txlog := s.txlog ++ [s.outq] } := by
  simp [flush, takeAll, h]

theorem flush_empty {s : State} (h : s.outq = []) : flush s = s := by
  simp only [flush, takeAll, h, if_true]
  rw [← h]

/-- Settles O40: the flush writes what is queued or nothing, and `WAIT_SYNC` is entered from there. -/
theorem flushWritesAndEntersWaitSync : Obligations.FlushWritesAndEntersWaitSync := by
  unfold Obligations.FlushWritesAndEntersWaitSync
  intro s hf
  rw [exec_dspFlush hf]
  exact ⟨fun h => by rw [flush_nonempty h]; rfl, fun h => by rw [flush_empty h]; rfl⟩

/-! ### Whole frames -/

/-- A frame that ENG was ready for has been matched, decoded and reported (44_dispatcher.md R98 to R100). -/
def frameDecoded (c : Command) (s : State) : State :=
  { s with
    syncI := s.cfg.sync.length, seq := none, dlElapsed := 0, command := c, cmdValid := true,
    diaglog := s.diaglog ++ [.cmdReceived c (classify s.cfg c.cmd)], fsm := .dispatch }

theorem frameDecoded_running (c : Command) (s : State) : (frameDecoded c s).fsm ≠ .halted := by simp [frameDecoded]

/-- The row's frame is `DISPATCH` on that state (log entry 11). -/
theorem exec_inbound_ready {s : State} {i : Instr} {c : Command} (hr : readyForFrame s = true)
    (hroom : s.inRoom (s.cfg.sync.length + 9)) (hi : i.format = .inbound)
    (he : encode s.cfg i = frameBytes s.cfg c) : exec i s = exec .dspDispatch (frameDecoded c s) :=
  (inboundFrameIsDispatched s i c hi he).1 hr hroom

/-- Settles O43: both rows are `DISPATCH` on a disk Command, a write request or a read of at least one chunk. -/
theorem inboundDiskFrameIsPerformed : Obligations.InboundDiskFrameIsPerformed := by
  unfold Obligations.InboundDiskFrameIsPerformed
  intro s bc de hl f a hr hroom hw hm
  refine ⟨fun hf => ?write, fun hf hl ho => ?read⟩
  case write =>
    have hrun := (dispatchIgnoresWriteAndZeroLength _ _ _ (frameDecoded_running ⟨bc, de, hl, f, a, s.cfg.opDskio⟩ s)
      rfl hm rfl rfl).1 hf
    rw [exec_inbound_ready hr hroom rfl rfl, hrun, ← classify_dskio s.cfg]
    rfl
  case read =>
    obtain ⟨-, hchunk, -⟩ := Config.wf_parts hw
    obtain ⟨data, blks, hdata, hblks, hrun⟩ := (dispatchStartsTheDiskRead _ _ _
      (frameDecoded_running ⟨bc, de, _, f, a, s.cfg.opDskio⟩ s) rfl hw hm rfl rfl hf
      (Nat.ne_of_gt (Nat.lt_of_lt_of_le hchunk hl)) ho).1 hl
    refine ⟨data, blks, hdata, hblks, ?_⟩
    rw [exec_inbound_ready hr hroom rfl rfl, hrun, ← classify_dskio s.cfg]
    rfl

/-- Settles O45: each row is `DISPATCH` on a Command of its class. -/
theorem inboundReplyFrameIsPerformed : Obligations.InboundReplyFrameIsPerformed := by
  unfold Obligations.InboundReplyFrameIsPerformed
  intro s i bc de hl f a cmd hr hroom hw hwf
  refine ⟨fun hi => ?known, fun hi => ?unknown⟩
  case known =>
    have hrow : i.format = .inbound ∧ encode s.cfg i = frameBytes s.cfg ⟨bc, de, hl, f, a, cmd⟩ ∧
        classify s.cfg cmd = .known := by
      obtain ⟨-, -, -, -, -, hknown, hne, -⟩ := Config.wf_parts hw
      obtain ⟨rfl, rfl⟩ | rfl := hi
      · exact ⟨rfl, rfl, classify_known hne.symm hknown⟩
      · obtain ⟨hc, -⟩ : classify s.cfg cmd = .known ∧ cmd ≠ s.cfg.opCmdrequest := by simpa [Instr.wf] using hwf
        exact ⟨rfl, rfl, hc⟩
    obtain ⟨hin, hbytes, hc⟩ := hrow
    obtain ⟨hnone, hreply, -⟩ := dispatchTakesTheFixedReply _
      (frameDecoded_running ⟨bc, de, hl, f, a, cmd⟩ s) hc
    rw [exec_inbound_ready hr hroom hin hbytes, ← hc]
    exact ⟨hnone, hreply⟩
  case unknown =>
    subst hi
    have hc : classify s.cfg cmd = .unknown := by simpa [Instr.wf] using hwf
    have hrun := exec_dspDispatch_unknown (frameDecoded_running ⟨bc, de, hl, f, a, cmd⟩ s) hc
    rw [exec_inbound_ready hr hroom rfl rfl, hrun]
    simp [frameDecoded, hc]

end Sys2Proof.Machine
end

section
/-! SUPPORT. Where ENG resets the deadline (44_dispatcher.md R96), and that no other step of ENG touches it. -/

namespace Sys2Proof.Machine

/-- The deadline is reset at a point of R96, and kept anywhere else. -/
def DeadlineKept (s t : State) : Prop :=
  (deadlinePoint s t → t.dlElapsed = 0) ∧ (¬ deadlinePoint s t → t.dlElapsed = s.dlElapsed)

theorem DeadlineKept.of_point {s t : State} (h : deadlinePoint s t) (h0 : t.dlElapsed = 0) : DeadlineKept s t :=
  ⟨fun _ => h0, fun hn => absurd h hn⟩

theorem DeadlineKept.of_not_point {s t : State} (h : ¬ deadlinePoint s t) (hk : t.dlElapsed = s.dlElapsed) :
    DeadlineKept s t :=
  ⟨fun hp => absurd hp h, fun _ => hk⟩

/-- A recovery, told by its event (R110). -/
theorem DeadlineKept.recovery {s u : State} (i : ErrInfo) (hd : u.diaglog = s.diaglog) :
    DeadlineKept s (recovery i u) :=
  .of_point (.inr (.inl ⟨i, by simp [hd], rfl⟩)) rfl

/-- Outside `WAIT_SYNC` and `READ_FIXED_9` only the flush of a round is a point. -/
theorem not_deadlinePoint_of_fsm {s t : State} (hw : t.fsm ≠ .waitSync) (hr : t.fsm ≠ .readFixed9)
    (he : s.roPhase = .send → t.roPhase ≠ .echo) : ¬ deadlinePoint s t := by
  rintro (⟨-, h⟩ | ⟨-, -, h⟩ | ⟨-, h⟩ | ⟨-, hsend, h⟩)
  · exact hw h
  · exact hw h
  · exact hr h
  · exact he hsend h

/-- A wait that goes on, with nothing reported, is no point. -/
theorem not_deadlinePoint_of_waiting {s t : State} (hs : s.fsm = .waitSync ∨ s.fsm = .readFixed9)
    (hf : t.fsm = s.fsm) (hd : t.diaglog = s.diaglog) : ¬ deadlinePoint s t := by
  rintro (⟨h, -⟩ | ⟨i, h, -⟩ | ⟨h, h'⟩ | ⟨h, -⟩)
  · simp [h] at hs
  · simp [hd] at h
  · simp [hf, h] at h'
  · simp [h] at hs

/-- A fatal fault, from a state with the deadline and the phase of `s`, is no point (60_exceptions.md R112). -/
theorem DeadlineKept.fatal {s u : State} {c : ErrCode} {i : ErrInfo} (hk : u.dlElapsed = s.dlElapsed)
    (hp : u.roPhase = s.roPhase) : DeadlineKept s (fatal c i u) :=
  .of_not_point (not_deadlinePoint_of_fsm (by simp) (by simp) (by simp +contextual [hp])) hk

theorem Pushed.deadline_eq {s t : State} (h : Pushed s t) : t.dlElapsed = s.dlElapsed ∧ t.roPhase = s.roPhase := by
  obtain ⟨bs, rfl⟩ := h
  exact ⟨rfl, rfl⟩

theorem startSequence_deadline (pat : List Byte) (s : State) : (startSequence pat s).dlElapsed = s.dlElapsed ∧
    (startSequence pat s).diaglog = s.diaglog := by
  unfold startSequence; split <;> exact ⟨rfl, rfl⟩

/-! ### Each action of ENG -/

section
variable {s t : State}

theorem dspWaitSync_deadline (hf : s.fsm = .waitSync) (he : exec .dspWaitSync s = .next t) : DeadlineKept s t := by
  obtain ⟨hdl, hdiag⟩ := startSequence_deadline s.cfg.sync s
  have hfsm := startSequence_fsm s.cfg.sync s
  obtain ⟨_, rfl, d, ⟨b, rest, i, n, -, -, ⟨-, rfl⟩ | ⟨-, rfl⟩⟩ | rfl | ⟨-, rfl⟩⟩ := dspWaitSync_cases (by simp [hf]) he
  · exact .of_point (.inr (.inr (.inl ⟨hf, rfl⟩))) rfl
  · exact .of_not_point (not_deadlinePoint_of_waiting (.inl hf) hfsm hdiag) hdl
  · exact .recovery _ hdiag
  · exact .of_not_point (not_deadlinePoint_of_waiting (.inl hf) hfsm hdiag) hdl

theorem dspReadFixed9_deadline (hf : s.fsm = .readFixed9) (he : exec .dspReadFixed9 s = .next t) :
    DeadlineKept s t := by
  obtain ⟨d, ⟨c, bs, rest, -, -, rfl⟩ | ⟨-, -, i, rest, -, rfl⟩ | rfl | ⟨-, rfl⟩⟩ := dspReadFixed9_cases (by simp [hf]) he
  · exact .of_not_point (not_deadlinePoint_of_fsm (by simp) (by simp) (by simp +contextual)) rfl
  · exact .fatal rfl rfl
  · exact .recovery _ rfl
  · exact .of_not_point (not_deadlinePoint_of_waiting (.inr hf) rfl rfl) rfl

theorem dspDecode_deadline (hf : s.fsm = .decode) (he : exec .dspDecode s = .next t) : DeadlineKept s t := by
  obtain rfl := dspDecode_cases (by simp [hf]) he
  exact .of_not_point (not_deadlinePoint_of_fsm (by simp [decodeAction]) (by simp [decodeAction])
    (by simp +contextual [decodeAction])) rfl

theorem Dispatched.deadline_eq (h : Dispatched s t) :
    t.dlElapsed = s.dlElapsed ∧ (s.roPhase = .send → t.roPhase ≠ .echo) := by
  cases h <;> exact ⟨rfl, by simp +contextual⟩

theorem DispatchRaised.deadline_eq {c : ErrCode} (h : DispatchRaised s c t) :
    t.dlElapsed = s.dlElapsed ∧ t.roPhase = s.roPhase := by
  obtain ⟨-, hp | ⟨b, rfl⟩⟩ := h
  · exact hp.deadline_eq
  · exact ⟨rfl, rfl⟩

theorem dspDispatch_deadline (hf : s.fsm = .dispatch) (he : exec .dspDispatch s = .next t) : DeadlineKept s t := by
  rcases dspDispatch_cases (by simp [hf]) he with ⟨s1, -, hd, rfl⟩ | ⟨c, i, s1, -, hd, rfl⟩
  · exact .of_not_point (not_deadlinePoint_of_fsm (by simp) (by simp) hd.deadline_eq.2) hd.deadline_eq.1
  · exact .fatal hd.deadline_eq.1 hd.deadline_eq.2

/-- The flush of a round is the point of R85; a round that fails is none. -/
theorem roRound_deadline (hf : s.fsm = .respond) (he : exec .roRound s = .next t) : DeadlineKept s t := by
  obtain ⟨hsend, -, ⟨-, bs, rfl⟩ | ⟨c, i, s1, -, hp, rfl⟩⟩ := roRound_cases (by simp [hf]) he
  · exact .of_point (.inr (.inr (.inr ⟨hf, hsend, rfl⟩))) rfl
  · exact .fatal hp.deadline_eq.1 hp.deadline_eq.2

theorem not_deadlinePoint_of_echo (hecho : s.roPhase = .echo) (ht : t.fsm = .respond) :
    ¬ deadlinePoint s t := not_deadlinePoint_of_fsm (by simp [ht]) (by simp [ht]) (by simp [hecho])

theorem roEcho_deadline (hf : s.fsm = .respond) (he : exec .roEcho s = .next t) : DeadlineKept s t := by
  obtain ⟨hecho, blk, -, d, ⟨e, rest, -, rfl⟩ | rfl | ⟨-, rfl⟩⟩ := roEcho_cases (by simp [hf]) he
  · exact .of_not_point (not_deadlinePoint_of_echo hecho (by simpa using hf)) (by simp)
  · exact .recovery _ rfl
  · exact .of_not_point (not_deadlinePoint_of_echo hecho hf) rfl

theorem dspRespond_deadline (hf : s.fsm = .respond) (he : exec .dspRespond s = .next t) : DeadlineKept s t := by
  rcases dspRespond_cases (by simp [hf]) he with ⟨hnone, rfl⟩ | ⟨-, -, hr⟩ | ⟨-, -, hr⟩ | ⟨hecho, -, rfl⟩ |
    ⟨-, -, ⟨bs, rfl⟩ | ⟨i, s1, hp, rfl⟩⟩
  · exact .of_not_point (not_deadlinePoint_of_fsm (by simp) (by simp) (by simp [hnone])) rfl
  · exact roRound_deadline hf hr
  · exact roEcho_deadline hf hr
  · exact .of_not_point (not_deadlinePoint_of_echo hecho hf) rfl
  · exact .of_not_point (not_deadlinePoint_of_fsm (by simp) (by simp) (by simp)) rfl
  · exact .fatal hp.deadline_eq.1 hp.deadline_eq.2

theorem dspFlush_deadline (hf : s.fsm = .flush) (he : exec .dspFlush s = .next t) : DeadlineKept s t := by
  obtain rfl := dspFlush_cases (by simp [hf]) he
  exact .of_point (.inl ⟨hf, rfl⟩) rfl

end

/-- Settles O58: ENG's move is the action of its `fsm`, and each action resets the deadline at its points only. -/
theorem deadlineResetPoints : Obligations.DeadlineResetPoints := by
  unfold Obligations.DeadlineResetPoints
  intro s t hm hs
  change DeadlineKept (dropOffer s) t
  obtain ⟨_, rfl, ⟨hf, he⟩ | ⟨hf, he⟩ | ⟨hf, he⟩ | ⟨hf, he⟩ | ⟨hf, he⟩ | ⟨hf, he⟩ | ⟨hf, rfl⟩⟩ := engine_cases hm hs
  · exact dspWaitSync_deadline hf he
  · exact dspReadFixed9_deadline hf he
  · exact dspDecode_deadline hf he
  · exact dspDispatch_deadline hf he
  · exact dspRespond_deadline hf he
  · exact dspFlush_deadline hf he
  · exact .of_not_point (not_deadlinePoint_of_fsm (by simp [hf]) (by simp [hf]) (by simp +contextual)) rfl

end Sys2Proof.Machine
end

section
/-! SUPPORT. The events of 60_exceptions.md: the recovery from a wait that times out (R110), the lost link (R113),
`HALTED` and what still acts there (R112), and that a step through the ports always has a next state (R122). -/

namespace Sys2Proof.Machine

/-! ### Recovery -/

/-- A wait that is not ready when the deadline has expired is recovered from, whatever it waited for (R60, R110). -/
theorem finish_suspend_timeout {α : Type} {info : ErrInfo} {p : State → Wait α} {s : State}
    {k : α → State → Host.Outcome State Fault Refusal} (h : s.cfg.timeoutMs ≤ s.dlElapsed * s.cfg.tickMs) :
    (suspend false info p s).finish k = .next (recovery info s) := by
  rw [suspend_timeout h, Wait.finish_timeout]

/-- Settles O41: each of the three actions is a wait that is not ready, and `recovery` is the state described. -/
theorem timeoutIsRecovered : Obligations.TimeoutIsRecovered := by
  unfold Obligations.TimeoutIsRecovered
  intro s t hexp ht
  have hrec : ∀ info, t info = recovery info s := fun info => (ht info).trans rfl
  refine ⟨fun hf hseq hi => ?sync, fun hf hfew => ?fields, fun hf hecho hlt hi => ?echo⟩
  case sync =>
    have hat : s.seqAt s.cfg.sync s.syncI s.syncDiscard := ⟨fun _ => ⟨rfl, rfl⟩, absurd hseq⟩
    rw [exec_dspWaitSync (by simp [hf]) hat, inq_not_ready hi,
      finish_suspend_timeout (s := sequenceAt s.cfg.sync s.syncI s.syncDiscard s) hexp, hrec]
    rfl
  case fields =>
    rw [exec_dspReadFixed9 (by simp [hf]), decide_eq_false (Nat.not_le.2 hfew), finish_suspend_timeout hexp, hrec]
  case echo =>
    have hrun : s.fsm ≠ .halted := by simp [hf]
    rw [exec_dspRespond_echo hrun hecho hlt, exec_roEcho hrun hecho (List.getElem?_eq_getElem hlt), inq_not_ready hi,
      finish_suspend_timeout hexp, hrec]

/-! ### The lost link -/

theorem linkLost_running {s : State} (hf : s.fsm ≠ .halted) : linkLost s = fatal .transportLost .none s := if_neg hf

theorem linkLost_halted {s : State} (hf : s.fsm = .halted) : linkLost s = s := if_pos hf

theorem step_linkLost {s : State} {o : Offer} {ag : List Offer} (ha : s.agenda = o :: ag) (hr : o.reset = false)
    (hl : o.linkLost = true) : step s = .next (linkLost { s with agenda := ag }) := by
  simp [step, currentOffer, dropOffer, ha, hr, hl]

/-- Settles O6: the step is `link_lost` with the offer taken, a fatal fault in every state but `HALTED`. -/
theorem linkLostIsFatal : Obligations.LinkLostIsFatal := by
  unfold Obligations.LinkLostIsFatal
  intro s o ag ha hr hl
  rw [step_linkLost ha hr hl]
  refine ⟨fun hrun => ?fatal, fun hhalted => ?idle⟩
  case fatal => rw [linkLost_running (s := { s with agenda := ag }) hrun]; rfl
  case idle => rw [linkLost_halted (s := { s with agenda := ag }) hhalted]

/-! ### `HALTED` -/

/-- Every operation but FEED's, CLK's and the arriving frames stands under ENG's guard (R112; log entry 15). -/
theorem exec_eq_engineOnly {i : Instr} (hin : i.format ≠ .inbound) (htick : i ≠ .clkTick)
    (hfeed : ∀ bs, i ≠ .iqAppend bs) : ∃ act, ∀ s, exec i s = engineOnly s act := by
  cases i
  case iqAppend bs => exact absurd rfl (hfeed bs)
  case clkTick => exact absurd rfl htick
  case inDskioRead | inDskioWrite | inCmdrequest | inKnownOther | inUnknown => exact absurd rfl hin
  all_goals exact ⟨_, fun _ => rfl⟩

/-- Settles O52: ENG's guard leaves a halted block as it is. -/
theorem engineOperationsIdleInHalted : Obligations.EngineOperationsIdleInHalted := by
  unfold Obligations.EngineOperationsIdleInHalted
  intro i s hf hin htick hfeed
  obtain ⟨act, hact⟩ := exec_eq_engineOnly hin htick hfeed
  rw [hact, engineOnly_halted hf]

/-- What still acts on a halted block: FEED's append, or its overflow, and CLK's tick (R61, R62, R112; log entry 17). -/
inductive HaltedActs (s : State) : State → Prop where
  | idle : HaltedActs s s
  | ticked : HaltedActs s (tick s)
  | fed (bs : List Byte) : HaltedActs s { s with inq := s.inq ++ bs }
  | overflowed (info : ErrInfo) : HaltedActs s (fatal .queueOverflow info s)

theorem iqAppend_haltedActs {bs : List Byte} {s t : State} (he : exec (.iqAppend bs) s = .next t) :
    HaltedActs s t := by
  by_cases hroom : s.inRoom bs.length
  · rw [exec_iqAppend_room hroom] at he; cases he; exact .fed bs
  · rw [exec_iqAppend_full hroom] at he; cases he; exact .overflowed _

/-- A frame that arrives in `HALTED` is only fed (R61, R112; log entry 11). -/
theorem frameArrives_haltedActs {c : Command} {s t : State} (hf : s.fsm = .halted) (he : frameArrives c s = .next t) :
    HaltedActs s t := by
  have hwaits : readyForFrame s = false := by simp [readyForFrame, hf]
  rcases frameArrives_waits (c := c) hwaits with e | ⟨info, e⟩ <;> rw [e] at he <;> cases he
  · exact .fed _
  · exact .overflowed info

theorem exec_haltedActs {i : Instr} {s t : State} (hf : s.fsm = .halted) (he : exec i s = .next t) :
    HaltedActs s t := by
  by_cases hin : i.format = .inbound
  · obtain ⟨c, -, hc⟩ := exec_inbound hin s
    exact frameArrives_haltedActs hf (hc ▸ he)
  by_cases htick : i = .clkTick
  · subst htick; cases he; exact .ticked
  by_cases hfeed : ∃ bs, i = .iqAppend bs
  · obtain ⟨bs, rfl⟩ := hfeed
    exact iqAppend_haltedActs he
  · rw [engineOperationsIdleInHalted i s hf hin htick (not_exists.1 hfeed)] at he
    cases he; exact .idle

/-- Without a reset, the step of a halted block takes the offer and does no more than `HaltedActs` says. -/
theorem step_haltedActs {s t : State} (hf : s.fsm = .halted) (hr : (currentOffer s).reset = false)
    (hs : step s = .next t) : HaltedActs (dropOffer s) t := by
  rcases step_cases hs with ⟨hr', -⟩ | ⟨-, -, rfl⟩ | ⟨-, -, ⟨i, -, he⟩ | ⟨-, rfl⟩⟩
  · simp [hr] at hr'
  · rw [linkLost_halted (s := dropOffer s) hf]; exact .idle
  · exact exec_haltedActs hf he
  · exact .idle

/-- Settles O53: what still acts in `HALTED` writes only `inq`, the deadline, `fault` and the diagnostic log. -/
theorem haltedIsLeftOnlyByReset : Obligations.HaltedIsLeftOnlyByReset := by
  unfold Obligations.HaltedIsLeftOnlyByReset
  intro s t hf hr hs
  cases step_haltedActs hf hr hs with
  | idle => simp [hf]
  | ticked => simp [hf]
  | fed bs => simp [hf]
  | overflowed info => simp

/-! ### No step through the ports stops -/

/-- The outcome is a next state. -/
def Continues (o : Host.Outcome State Fault Refusal) : Prop := ∃ t, o = .next t

theorem Continues.next (t : State) : Continues (.next t) := ⟨t, rfl⟩

/-- Every error is taken, by recovery or as a fatal fault (R110, R112). -/
theorem Res.finish_continues {α : Type} (r : Res α) (k : α → State → State) : Continues (r.finish k) := by
  cases r with
  | ok v s => exact .next _
  | raised c i s => exact .next _

theorem Wait.finish_continues {α : Type} (w : Wait α) {k : α → State → Host.Outcome State Fault Refusal}
    (hk : ∀ v s, Continues (k v s)) : Continues (w.finish k) := by
  cases w with
  | complete v s => exact hk v s
  | suspended s => exact .next _
  | timeout i s => exact .next _

/-- `RESPOND` runs a step of the ReadOperation only where its rule allows it (44_dispatcher.md R106; log entry 13). -/
theorem dspRespond_continues {s : State} (hf : s.fsm ≠ .halted) : Continues (exec .dspRespond s) := by
  cases hphase : s.roPhase with
  | none => exact ⟨_, exec_dspRespond_none hf hphase⟩
  | send =>
    by_cases hnone : s.roPending = []
    · rw [exec_dspRespond_exit hf hphase hnone]
      exact Res.finish_continues _ _
    · rw [exec_dspRespond_round hf hphase hnone, exec_roRound hf hphase hnone]
      exact Res.finish_continues _ _
  | echo =>
    rcases Nat.lt_or_ge s.roIdx s.roPending.length with hlt | hall
    · rw [exec_dspRespond_echo hf hphase hlt, exec_roEcho hf hphase (List.getElem?_eq_getElem hlt)]
      exact Wait.finish_continues _ fun _ _ => .next _
    · exact ⟨_, exec_dspRespond_endround hf hphase hall⟩

/-- ENG's next action (R95) never stops. -/
theorem engineInstr_continues {s : State} {i : Instr} (hi : engineInstr s = some i) : Continues (exec i s) := by
  have hrun : s.fsm ≠ .halted := by intro hf; simp [engineInstr, hf] at hi
  unfold engineInstr at hi
  split at hi <;> cases hi
  · simp only [exec, execDspWaitSync, engineOnly_running hrun]
    exact Wait.finish_continues _ fun _ _ => .next _
  · rw [exec_dspReadFixed9 hrun]
    exact Wait.finish_continues _ fun _ _ => Res.finish_continues _ _
  · exact ⟨_, exec_dspDecode hrun⟩
  · rw [exec_dspDispatch hrun]
    exact Res.finish_continues _ _
  · exact dspRespond_continues hrun
  · exact ⟨_, exec_dspFlush hrun⟩

/-- A mover of the ports performs an instruction that does not stop, or, in `HALTED`, none. -/
theorem moveInstr_continues (s : State) {m : Move} (hm : ∀ fmt bytes, m ≠ .operation fmt bytes) :
    moveInstr s m = .ok none ∨ ∃ i, moveInstr s m = .ok (some i) ∧ Continues (exec i s) := by
  cases m with
  | eng =>
    cases hi : engineInstr s with
    | none => exact .inl (congrArg Except.ok hi)
    | some i => exact .inr ⟨i, congrArg Except.ok hi, engineInstr_continues hi⟩
  | feed bs => exact .inr ⟨.iqAppend bs, rfl, Res.finish_continues _ _⟩
  | clk => exact .inr ⟨.clkTick, rfl, .next _⟩
  | operation fmt bytes => exact absurd rfl (hm fmt bytes)

theorem step_continues {s : State} (hports : (currentOffer s).usesPorts) : Continues (step s) := by
  unfold step
  split
  · exact .next _
  split
  · exact .next _
  rcases moveInstr_continues (dropOffer s) hports with e | ⟨i, e, hi⟩ <;> rw [e]
  · exact .next _
  · exact hi

/-- Settles O51: of the invariant only `portsOnly` is needed, no operation being offered by its bytes. -/
theorem engineNeverStops : Obligations.EngineNeverStops := by
  unfold Obligations.EngineNeverStops
  intro s h
  exact step_continues (currentOffer_usesPorts h.portsOnly)

end Sys2Proof.Machine
end

section
/-! SUPPORT. The reset of 70_reset_and_hazards.md (R124, R125): the step taken when it is offered. -/

namespace Sys2Proof.Machine

/-- `reset` comes before the lost link and the mover, whatever the state (R114 item 1). -/
theorem step_reset {s : State} {o : Offer} {ag : List Offer} (ha : s.agenda = o :: ag) (hr : o.reset = true) :
    step s = .next (resetEvent { s with agenda := ag }) := by
  simp [step, currentOffer, dropOffer, ha, hr]

/-- Settles O5: the step is the `reset` event with the offer taken, and each element of `resetEvent` is the value stated. -/
theorem resetTakenOverEverything : Obligations.ResetTakenOverEverything := by
  unfold Obligations.ResetTakenOverEverything
  intro s o ag ha hr
  refine ⟨resetEvent { s with agenda := ag }, step_reset ha hr, ?_⟩
  simp

end Sys2Proof.Machine
end
